-- ==== Sys2Proof/Word.lean ====
section
/-! DEFINITION. The one data width of the block: every slot, frame field, the checksum accumulator and
the length counter are one byte (spec/00_scope.md R10), unsigned (R11). -/
namespace Sys2Proof

/-- A byte, an unsigned number 0..255 (R11). -/
abbrev Byte := BitVec 8

end Sys2Proof
end

