-- ==== Sys2Proof/Config.lean ====
section
/-! DEFINITION. The parameters of the model (spec/00_scope.md R5 to R9, spec/10_state.md R34) and the values the spec
leaves open. A parameter is read by rules and written by none; a claim quantifies over every value of `Params`. The
capacity `C` of a channel stands in the channel itself (each channel may have its own, R5), `NLINKS` is the number of
links of the state (R9). -/
namespace Sys2Proof

/-- The four header bytes `MAGIC[0..3]` (R6). -/
structure Magic where
  b0 : Byte
  b1 : Byte
  b2 : Byte
  b3 : Byte
  deriving DecidableEq, Repr

/-- The four magic bytes in the order in which they are sent (R50, R80). -/
def Magic.bytes (m : Magic) : List Byte := [m.b0, m.b1, m.b2, m.b3]

/-- The parameters of one model, fixed before reset and never changed (spec/70_reset_and_hazards.md R262). -/
structure Params where
  /-- `MAGIC[0..3]` (R6) -/
  magic : Magic
  /-- `TOKEN` (R7) -/
  token : Byte
  /-- `ENC_MAX`, the largest payload the encoder accepts, at most 255 (R8) -/
  encMax : Nat
  /-- `c0`, the value of every cursor after RESET; 0 unless a realisation starts elsewhere (R261) -/
  c0 : Nat
  /-- the acknowledge byte, also the identifier of ACKNOWLEDGE (R210, R216) -/
  ack : Byte
  /-- the identifier of GET_ALIVE (R216) -/
  cmdGetAlive : Byte
  /-- `CMD_START_CONFIG`, whose value the source does not give (R104, R210) -/
  cmdStartConfig : Byte
  /-- the size of the configuration record, which the source does not give (R212) -/
  recordSize : Nat
  /-- the fixed 'unrecognized' marker of the answer to an unknown command (R213) -/
  unknownMarker : Byte
  /-- whether the marker is the first of the answer's two bytes (R213) -/
  unknownMarkerFirst : Bool
  deriving DecidableEq, Repr

/-- PARAMETER WITHOUT A VALUE (spec/91_not_in_source.md N4): the identifier of START_CONFIG. Log 4. -/
opaque Config.cmdStartConfig : Byte

/-- PARAMETER WITHOUT A VALUE (N5): the size of the configuration record. Log 4. -/
opaque Config.recordSize : Nat

/-- PARAMETER WITHOUT A VALUE (N4): the 'unrecognized' marker. Log 4. -/
opaque Config.unknownMarker : Byte

/-- PARAMETER WITHOUT A VALUE (N4): the place of the marker in the answer. Log 4. -/
opaque Config.unknownMarkerFirst : Bool

/-- FREE VALUE (R213, N4): the byte that stands beside the marker in the answer to the unknown command byte `raw`.
Nothing constrains it. Log 13. -/
opaque Config.unknownOther : Byte → Byte

/-- The reference parameters of R6 to R8 and R216; what has no reference value is an opaque constant. PRESUMED for the
magic bytes (log 2), DESIGN CHOICE for taking the reference values (log 3). -/
def Params.reference : Params where
  magic := ⟨0x55, 0x4E, 0x45, 0x52⟩
  token := 0x3A
  encMax := 255
  c0 := 0
  ack := 0x0D
  cmdGetAlive := 0xF0
  cmdStartConfig := Config.cmdStartConfig
  recordSize := Config.recordSize
  unknownMarker := Config.unknownMarker
  unknownMarkerFirst := Config.unknownMarkerFirst

/-- The capacity of every channel after reset: the reference value of R5 (the original's 8-bit cursors). Log 3. -/
def Config.referenceCapacity : Nat := 256

/-- `NLINKS` after reset: the reference value of R9, the PC link and the radio link. Log 3. -/
def Config.referenceLinks : Nat := 2

end Sys2Proof
end

