-- ==== Sys2Proof/Syntax.lean ====
section
/-! DEFINITION. The operation set (spec/30_encoding.md R91, R86; spec/opcode_table.json): one constructor per row.
The hardware has no instruction set (spec/00_scope.md R1); an "instruction" of this model is one event an agent
performs, with the operands of R86. -/
namespace Sys2Proof

/-- The two directions of a link's channels (spec/43_link_and_collaborators.md R200). -/
inductive Dir where
  | inbound
  | outbound
  deriving DecidableEq, Repr

/-- A channel is reached by name, not by address (spec/20_memory.md R58): its link and its direction. Link 0 is the PC
link and link 1 the radio link, so `⟨0, .inbound⟩` is `pc_in` and `⟨1, .outbound⟩` is `radio_out` (R98, R200). -/
structure ChanId where
  link : Nat
  dir : Dir
  deriving DecidableEq, Repr

/-- `pc_in` (R98). -/
def ChanId.pcIn : ChanId := ⟨0, .inbound⟩
/-- `pc_out` (R98). -/
def ChanId.pcOut : ChanId := ⟨0, .outbound⟩
/-- `radio_in` (R98). -/
def ChanId.radioIn : ChanId := ⟨1, .inbound⟩
/-- `radio_out` (R98). -/
def ChanId.radioOut : ChanId := ⟨1, .outbound⟩

/-- One row of spec/opcode_table.json. A decoder and an encoder are named by their link. -/
inductive Instr where
  /-- PUSH `(ch, b)`, R110 -/
  | push (ch : ChanId) (b : Byte)
  /-- HAS_DATA `(ch)`, R111 -/
  | hasData (ch : ChanId)
  /-- POP `(ch)`, R112 -/
  | pop (ch : ChanId)
  /-- PEEK `(ch)`, R115 -/
  | peek (ch : ChanId)
  /-- STEPBACK `(ch)`, R116 -/
  | stepback (ch : ChanId)
  /-- VIEW `(ch, off, n)`, R118 -/
  | view (ch : ChanId) (off n : Nat)
  /-- DEC_STEP `(dec)`, R140 -/
  | decStep (dec : Nat)
  /-- DEC_STEP in AWAIT_MAGIC_1, R141 -/
  | decAwaitMagic1 (dec : Nat)
  /-- DEC_STEP in AWAIT_MAGIC_2, R142 -/
  | decAwaitMagic2 (dec : Nat)
  /-- DEC_STEP in AWAIT_MAGIC_3, R143 -/
  | decAwaitMagic3 (dec : Nat)
  /-- DEC_STEP in AWAIT_MAGIC_4, R144 -/
  | decAwaitMagic4 (dec : Nat)
  /-- DEC_STEP in READ_LENGTH, R145 -/
  | decReadLength (dec : Nat)
  /-- DEC_STEP in READ_TOKEN, R146 -/
  | decReadToken (dec : Nat)
  /-- DEC_STEP in READ_PAYLOAD with `remaining > 0`, R148 -/
  | decPayload (dec : Nat)
  /-- DEC_STEP in READ_PAYLOAD with `remaining == 0`, R149 -/
  | decChecksum (dec : Nat)
  /-- DISPATCH `(dec, off, n)`, R150 -/
  | dispatch (dec off : Nat) (n : Byte)
  /-- DEC_RUN `(dec)`, R151 -/
  | decRun (dec : Nat)
  /-- ENCODE `(enc, p)`, R180 -/
  | encode (enc : Nat) (p : List Byte)
  /-- FEED_PC `(b)`, R201 -/
  | feedPc (b : Byte)
  /-- FEED_RADIO `(b)`, R202 -/
  | feedRadio (b : Byte)
  /-- TICK, R203 -/
  | tick
  /-- RESET, R260 -/
  | reset
  /-- FRAME: a whole frame of R80 arrives on a channel (FEED_FRAME of R99). Log 14. -/
  | frame (ch : ChanId) (p : List Byte)
  /-- FRAME.reference_header: the six header bytes of a frame with payload length `n`, R80. Log 14. -/
  | frameReferenceHeader (n : Byte)
  /-- CMD.GET_ALIVE: the collaborator answers a dispatched GET_ALIVE, R104, R211. Log 12. -/
  | cmdGetAlive
  /-- CMD.ACKNOWLEDGE: the collaborator answers a dispatched ACKNOWLEDGE, R104, R211. Log 12. -/
  | cmdAcknowledge
  /-- CMD.START_CONFIG: the collaborator answers a dispatched START_CONFIG, R104, R212. Log 12. -/
  | cmdStartConfig
  /-- CMD.UNKNOWN: the collaborator answers a dispatched command byte it does not know, R104, R213. Log 12. -/
  | cmdUnknown (raw : Byte)
  deriving DecidableEq, Repr

/-- What CommandProcessor takes `payload[0]` for (R104, R210: "ACKNOWLEDGE, GET_ALIVE, START_CONFIG, UNKNOWN(raw
byte)"). -/
inductive Command where
  | getAlive
  | acknowledge
  | startConfig
  | unknown (raw : Byte)
  deriving DecidableEq, Repr

end Sys2Proof
end

