-- ==== Sys2Proof/WellFormed.lean ====
section
/-! DEFINITION. Which instructions are well formed under given parameters: a FRAME's payload is one that has a frame
(spec/42_frame_encoder.md R187), and a CMD row's identifier is the one its byte stands for (spec/30_encoding.md R104; where
two identifiers are the same byte, only the row that `commandOf` gives it to is well formed, log 25). Nothing else is a
matter of form: a link, a slot index and a count may be any number (spec/00_scope.md R5, R9), and a missing link (log 18),
VIEW's bound and ENCODE's bound (R118, R182) are answered by the machine. -/
namespace Sys2Proof

/-- Well-formedness, constructor by constructor. -/
def Instr.wf (p : Params) : Instr → Bool
  | .push _ _ => true
  | .hasData _ => true
  | .pop _ => true
  | .peek _ => true
  | .stepback _ => true
  | .view _ _ _ => true
  | .decStep _ => true
  | .decAwaitMagic1 _ => true
  | .decAwaitMagic2 _ => true
  | .decAwaitMagic3 _ => true
  | .decAwaitMagic4 _ => true
  | .decReadLength _ => true
  | .decReadToken _ => true
  | .decPayload _ => true
  | .decChecksum _ => true
  | .dispatch _ _ _ => true
  | .decRun _ => true
  | .encode _ _ => true
  | .feedPc _ => true
  | .feedRadio _ => true
  | .tick => true
  | .reset => true
  | .frame _ payload => decide (payload.length ≤ 255)
  | .frameReferenceHeader _ => true
  | .cmdGetAlive => true
  | .cmdAcknowledge => decide (p.ack ≠ p.cmdGetAlive)
  | .cmdStartConfig => decide (p.cmdStartConfig ≠ p.cmdGetAlive) && decide (p.cmdStartConfig ≠ p.ack)
  | .cmdUnknown raw => decide (raw ≠ p.cmdGetAlive) && decide (raw ≠ p.ack) && decide (raw ≠ p.cmdStartConfig)

end Sys2Proof
end

