-- ==== Sys2Proof/Decode.lean ====
section
/-! DEFINITION. The wire format of a frame (spec/30_encoding.md R80 to R85, spec/42_frame_encoder.md R187), and the
decoder and encoder of instruction codes. The spec gives the operations no binary encoding (R86): their codes are the
model's (log 1), an opcode byte and the operands of R86 in order. The rows that do have bytes in the spec keep them:
FRAME carries the frame's own bytes (R80), FRAME.reference_header is the six bytes of its row, CMD carries the one byte
at frame offset 6 (R104). -/
namespace Sys2Proof

/-- `XOR(list)` of spec/00_scope.md R11: exclusive-or folded over a list, `XOR([]) = 0`. -/
def xorBytes : List Byte → Byte
  | [] => 0
  | x :: xs => x ^^^ xorBytes xs

/-- Everything of a frame before its checksum: magic, length, token, payload (R80). -/
def frameBody (p : Params) (payload : List Byte) : List Byte :=
  p.magic.bytes ++ [BitVec.ofNat 8 payload.length, p.token] ++ payload

/-- `frame(p)` of R187: the `7 + N` bytes of a frame, its checksum last (R85). -/
def frameBytes (p : Params) (payload : List Byte) : List Byte :=
  frameBody p payload ++ [xorBytes (frameBody p payload)]

/-- `K = XOR(MAGIC) ^ TOKEN` of R89. -/
def seedConstant (p : Params) : Byte := xorBytes p.magic.bytes ^^^ p.token

/-- Why a byte string is no instruction. Safe: nothing runs. -/
inductive DecodeError where
  /-- no byte at all -/
  | empty
  /-- no row has this opcode byte -/
  | unknownOpcode (op : Byte)
  /-- the bytes after this opcode byte are not its row's operands: too few or too many -/
  | wrongLength (op : Byte)
  /-- a channel's direction byte is neither 0 (inbound) nor 1 (outbound) -/
  | badDirection (d : Byte)
  /-- the bytes of a FRAME do not begin with the magic (R81) -/
  | badMagic
  /-- the byte at frame offset 5 is not the token (R83) -/
  | badToken
  /-- the bytes after the token are not the payload that the length byte announces and one more (R82) -/
  | badLength
  /-- the last byte of a FRAME is not the XOR of the others (R85) -/
  | badChecksum
  /-- the bytes after 0x55 are not a header with the reference magic and token -/
  | badHeader
  deriving DecidableEq, Repr

/-- What the decoder answers. -/
inductive Decoded where
  | instr (i : Instr)
  | rejected (e : DecodeError)
  deriving DecidableEq, Repr

/-- The payload of a byte string that is exactly one frame under `p`, or why it is none. -/
def parseFrame (p : Params) : List Byte → Except DecodeError (List Byte)
  | m0 :: m1 :: m2 :: m3 :: n :: t :: rest =>
    if [m0, m1, m2, m3] ≠ p.magic.bytes then .error .badMagic
    else if t ≠ p.token then .error .badToken
    else if rest.length ≠ n.toNat + 1 then .error .badLength
    else if rest.drop n.toNat ≠ [xorBytes (frameBody p (rest.take n.toNat))] then .error .badChecksum
    else .ok (rest.take n.toNat)
  | _ => .error .badLength

/-- What CommandProcessor takes a command byte for (R104, R210). DESIGN CHOICE (log 25): the spec does not say which command
a byte stands for where two identifiers are the same byte (START_CONFIG's has no value); the model takes GET_ALIVE first,
then ACKNOWLEDGE, then START_CONFIG. -/
def commandOf (p : Params) (b : Byte) : Command :=
  if b = p.cmdGetAlive then .getAlive
  else if b = p.ack then .acknowledge
  else if b = p.cmdStartConfig then .startConfig
  else .unknown b

/-- The instruction of a command. -/
def instrOfCommand : Command → Instr
  | .getAlive => .cmdGetAlive
  | .acknowledge => .cmdAcknowledge
  | .startConfig => .cmdStartConfig
  | .unknown raw => .cmdUnknown raw

/-- The direction byte of a channel's code (log 1). -/
def dirByte : Dir → Byte
  | .inbound => 0
  | .outbound => 1

/-- The direction a byte stands for. -/
def dirOfByte (d : Byte) : Option Dir :=
  if d = 0 then some .inbound else if d = 1 then some .outbound else none

/-- The code of a number operand (a link, a slot index, a count), which may be any natural number, since R5 and R9 of
spec/00_scope.md bound neither `C` nor `NLINKS`: a byte 255 for each 255 in it, then the rest below 255 (log 1). -/
def numBytes (n : Nat) : List Byte := List.replicate (n / 255) 255 ++ [BitVec.ofNat 8 (n % 255)]

/-- The number whose code a byte string begins with, and the bytes after it. -/
def readNum : List Byte → Option (Nat × List Byte)
  | [] => none
  | b :: rest => if b = 255 then (readNum rest).map fun x => (x.1 + 255, x.2) else some (b.toNat, rest)

/-- A row whose operands begin with a number: the number, then `k`'s operands. -/
def onNumber (op : Byte) (k : Nat → List Byte → Decoded) (bytes : List Byte) : Decoded :=
  match readNum bytes with
  | some (n, rest) => k n rest
  | none => .rejected (.wrongLength op)

/-- A row whose only operand is a number. -/
def onlyNumber (op : Byte) (k : Nat → Instr) : List Byte → Decoded :=
  onNumber op fun n rest => if rest = [] then .instr (k n) else .rejected (.wrongLength op)

/-- A direction byte, then `k`'s operands. -/
def onDirection (op : Byte) (k : Dir → List Byte → Decoded) : List Byte → Decoded
  | d :: rest =>
    match dirOfByte d with
    | some dir => k dir rest
    | none => .rejected (.badDirection d)
  | [] => .rejected (.wrongLength op)

/-- A row whose operands begin with a channel: link number, direction byte, then `k`'s operands. -/
def onChannel (op : Byte) (k : ChanId → List Byte → Decoded) : List Byte → Decoded :=
  onNumber op fun l => onDirection op fun dir => k ⟨l, dir⟩

/-- A row whose only operand is a channel. -/
def onlyChannel (op : Byte) (k : ChanId → Instr) : List Byte → Decoded :=
  onChannel op fun ch rest => if rest = [] then .instr (k ch) else .rejected (.wrongLength op)

/-- A row whose only operand is one byte. -/
def onlyByte (op : Byte) (k : Byte → Instr) : List Byte → Decoded
  | [b] => .instr (k b)
  | _ => .rejected (.wrongLength op)

/-- A row without operands. -/
def noOperand (op : Byte) (i : Instr) : List Byte → Decoded
  | [] => .instr i
  | _ => .rejected (.wrongLength op)

/-- PUSH's operands after the channel. -/
def decodePush (ch : ChanId) : List Byte → Decoded := onlyByte 0x01 (.push ch)

/-- VIEW's operands after the channel: the slot index and the count. -/
def decodeView (ch : ChanId) : List Byte → Decoded :=
  onNumber 0x06 fun off => onlyNumber 0x06 fun n => .view ch off n

/-- DISPATCH's operands: decoder, offset, length. -/
def decodeDispatch : List Byte → Decoded :=
  onNumber 0x19 fun dec => onNumber 0x19 fun off => onlyByte 0x19 fun n => .dispatch dec off n

/-- ENCODE's operands: encoder, then the payload, which is all the rest (of any length: R182 is a fault, not an
ill-formed code). -/
def decodeEncode : List Byte → Decoded := onNumber 0x20 fun enc payload => .instr (.encode enc payload)

/-- FRAME's operands after the channel: the bytes of one frame of R80. -/
def decodeFrame (p : Params) (ch : ChanId) (bytes : List Byte) : Decoded :=
  match parseFrame p bytes with
  | .ok pl => .instr (.frame ch pl)
  | .error e => .rejected e

/-- FRAME.reference_header after its first byte 0x55: `4E 45 52 n 3A` (row FRAME.reference_header of
spec/opcode_table.json). -/
def decodeHeader : List Byte → Decoded
  | [b1, b2, b3, n, t] =>
    if b1 = 0x4E ∧ b2 = 0x45 ∧ b3 = 0x52 ∧ t = 0x3A then .instr (.frameReferenceHeader n) else .rejected .badHeader
  | _ => .rejected .badHeader

/-- The row an opcode byte names, applied to the operand bytes. -/
def decodeRow (p : Params) (op : Byte) (rest : List Byte) : Decoded :=
  match op.toNat with
  | 0x01 => onChannel op decodePush rest
  | 0x02 => onlyChannel op .hasData rest
  | 0x03 => onlyChannel op .pop rest
  | 0x04 => onlyChannel op .peek rest
  | 0x05 => onlyChannel op .stepback rest
  | 0x06 => onChannel op decodeView rest
  | 0x10 => onlyNumber op .decStep rest
  | 0x11 => onlyNumber op .decAwaitMagic1 rest
  | 0x12 => onlyNumber op .decAwaitMagic2 rest
  | 0x13 => onlyNumber op .decAwaitMagic3 rest
  | 0x14 => onlyNumber op .decAwaitMagic4 rest
  | 0x15 => onlyNumber op .decReadLength rest
  | 0x16 => onlyNumber op .decReadToken rest
  | 0x17 => onlyNumber op .decPayload rest
  | 0x18 => onlyNumber op .decChecksum rest
  | 0x19 => decodeDispatch rest
  | 0x1A => onlyNumber op .decRun rest
  | 0x20 => decodeEncode rest
  | 0x28 => onlyByte op .feedPc rest
  | 0x29 => onlyByte op .feedRadio rest
  | 0x2A => noOperand op .tick rest
  | 0x2B => noOperand op .reset rest
  | 0x30 => onChannel op (decodeFrame p) rest
  | 0x40 => onlyByte op (fun b => instrOfCommand (commandOf p b)) rest
  | 0x55 => decodeHeader rest
  | _ => .rejected (.unknownOpcode op)

/-- The instruction a byte string is the code of, under the parameters `p`; total, and a rejection has a name. -/
def decode (p : Params) : List Byte → Decoded
  | [] => .rejected .empty
  | op :: rest => decodeRow p op rest

/-- The opcode byte of a row (log 1; 0x55 is the first byte of the table's reference header). -/
def opcode : Instr → Byte
  | .push _ _ => 0x01
  | .hasData _ => 0x02
  | .pop _ => 0x03
  | .peek _ => 0x04
  | .stepback _ => 0x05
  | .view _ _ _ => 0x06
  | .decStep _ => 0x10
  | .decAwaitMagic1 _ => 0x11
  | .decAwaitMagic2 _ => 0x12
  | .decAwaitMagic3 _ => 0x13
  | .decAwaitMagic4 _ => 0x14
  | .decReadLength _ => 0x15
  | .decReadToken _ => 0x16
  | .decPayload _ => 0x17
  | .decChecksum _ => 0x18
  | .dispatch _ _ _ => 0x19
  | .decRun _ => 0x1A
  | .encode _ _ => 0x20
  | .feedPc _ => 0x28
  | .feedRadio _ => 0x29
  | .tick => 0x2A
  | .reset => 0x2B
  | .frame _ _ => 0x30
  | .frameReferenceHeader _ => 0x55
  | .cmdGetAlive => 0x40
  | .cmdAcknowledge => 0x40
  | .cmdStartConfig => 0x40
  | .cmdUnknown _ => 0x40

/-- The code of a channel operand. -/
def chanBytes (ch : ChanId) : List Byte := numBytes ch.link ++ [dirByte ch.dir]

/-- The operand bytes of an instruction. -/
def operandBytes (p : Params) : Instr → List Byte
  | .push ch b => chanBytes ch ++ [b]
  | .hasData ch => chanBytes ch
  | .pop ch => chanBytes ch
  | .peek ch => chanBytes ch
  | .stepback ch => chanBytes ch
  | .view ch off n => chanBytes ch ++ (numBytes off ++ numBytes n)
  | .decStep d => numBytes d
  | .decAwaitMagic1 d => numBytes d
  | .decAwaitMagic2 d => numBytes d
  | .decAwaitMagic3 d => numBytes d
  | .decAwaitMagic4 d => numBytes d
  | .decReadLength d => numBytes d
  | .decReadToken d => numBytes d
  | .decPayload d => numBytes d
  | .decChecksum d => numBytes d
  | .dispatch d off n => numBytes d ++ (numBytes off ++ [n])
  | .decRun d => numBytes d
  | .encode e pl => numBytes e ++ pl
  | .feedPc b => [b]
  | .feedRadio b => [b]
  | .tick => []
  | .reset => []
  | .frame ch pl => chanBytes ch ++ frameBytes p pl
  | .frameReferenceHeader n => [0x4E, 0x45, 0x52, n, 0x3A]
  | .cmdGetAlive => [p.cmdGetAlive]
  | .cmdAcknowledge => [p.ack]
  | .cmdStartConfig => [p.cmdStartConfig]
  | .cmdUnknown raw => [raw]

/-- The code of an instruction. -/
def encode (p : Params) (i : Instr) : List Byte := opcode i :: operandBytes p i

/-- `k` bytes of a number, the least significant first. -/
def lowBytes : Nat → Nat → List Byte
  | 0, _ => []
  | k + 1, w => BitVec.ofNat 8 w :: lowBytes k (w / 256)

/-- The first of the codes `bytes`, `bytes ++ [0]`, `bytes ++ [0, 0]`, … (at most `fuel` zero bytes) that decodes: the
table may give a row fewer bits than its code has, and the bits above are zero. -/
def firstDecoded (p : Params) : Nat → List Byte → Option (Instr × List Byte)
  | 0, _ => none
  | fuel + 1, bytes =>
    match decode p bytes with
    | .instr i => some (i, bytes)
    | .rejected _ => firstDecoded p fuel (bytes ++ [0])

/-- The instruction and the code in a number of `nbits` bits whose first byte is its least significant one. The one row
of the table with bits, FRAME.reference_header, says "48 bits, first byte most significant": a 48-bit number that reads
so as that row is that row. -/
def tableCode (nbits w : Nat) : Option (Instr × List Byte) :=
  let bytes := lowBytes ((nbits + 7) / 8) w
  match decode Params.reference bytes.reverse with
  | .instr (.frameReferenceHeader n) => some (.frameReferenceHeader n, bytes.reverse)
  | _ => firstDecoded Params.reference 12 bytes

/-- The instruction the decoder reads from a number of `nbits` bits (see `tableCode`), under the reference
parameters. -/
def decodeTableWord (nbits w : Nat) : Option Instr := (tableCode nbits w).map Prod.fst

end Sys2Proof
end

