-- ==== Sys2Proof/Machine/State.lean ====
section
/-! DEFINITION. The state: every register of every link (spec/10_state.md R23 to R32), the parameters (R34), and what
stands around the block in a run: the events still to come, the operation the polling agent is inside, the collaborator
that answers a dispatch, and the model's trace. All of it is plain data. -/
namespace Sys2Proof.Machine

/-- One RingChannel (R23 to R25) with its capacity (spec/00_scope.md R5) and the spec's ghost counters (R17). -/
structure Chan where
  /-- `C`, a parameter: no event writes it -/
  cap : Nat
  /-- `ch.wr` (R23) -/
  wr : Nat
  /-- `ch.rd` (R24) -/
  rd : Nat
  /-- `ch.mem`: the slots a PUSH has written since reset, in rising order; a slot not listed has no value (R25, R238) -/
  mem : List Host.Cell
  /-- ghost counter `W` (R17) -/
  pushed : Nat
  /-- ghost counter `R` (R17) -/
  consumed : Nat
  /-- the MODEL's: the consumer's latest event on this channel was a consuming read, so a STEPBACK keeps its
  precondition (spec/40_ringchannel_ops.md R116; log 16) -/
  justRead : Bool
  deriving DecidableEq, Repr

/-- `dec.st` (R26). -/
inductive DecState where
  | awaitMagic1
  | awaitMagic2
  | awaitMagic3
  | awaitMagic4
  | readLength
  | readToken
  | readPayload
  deriving DecidableEq, Repr

/-- The decoder's registers (R26 to R30). -/
structure Dec where
  st : DecState
  /-- `dec.len` (R27) -/
  len : Byte
  /-- `dec.remaining` (R28) -/
  remaining : Byte
  /-- `dec.acc` (R29) -/
  acc : Byte
  /-- `dec.start_off`, a slot index of the inbound channel (R30) -/
  startOff : Nat
  /-- ghost, read by no event: the slot of this frame's length byte (R33.4; log 26) -/
  lenSlot : Nat
  /-- ghost, read by no event: the payload bytes of this frame consumed so far, `p` of R33.3 (log 26) -/
  taken : List Byte
  deriving DecidableEq, Repr

/-- The sub-cases of DEC_STEP, selected by `dec.st` and, in READ_PAYLOAD, by `dec.remaining`
(spec/41_frame_decoder.md R140, R147). -/
inductive SubCase where
  | awaitMagic1
  | awaitMagic2
  | awaitMagic3
  | awaitMagic4
  | readLength
  | readToken
  | payload
  | checksum
  deriving DecidableEq, Repr

/-- One link: an inbound channel with its decoder and an outbound channel with its encoder, which keeps no state
(R9, R31, R200). -/
structure Link where
  inCh : Chan
  dec : Dec
  outCh : Chan
  deriving DecidableEq, Repr

/-- A DISPATCH (R150): the link, `off`, `n`, and the payload view taken at the event. -/
structure Dispatch where
  link : Nat
  off : Nat
  n : Byte
  payload : List Byte
  deriving DecidableEq, Repr

/-- One request of the responder's answer: `ENCODE(enc, p')` (spec/43_link_and_collaborators.md R208). -/
structure Request where
  enc : Nat
  payload : List Byte
  deriving DecidableEq, Repr

/-- One row of a responder given by its values: to the DISPATCH `(link, n, payload)` it answers `requests` (R208). -/
structure Answer where
  link : Nat
  n : Byte
  payload : List Byte
  requests : List Request
  deriving DecidableEq, Repr

/-- The collaborator that answers a dispatch, a parameter of the model: a function of the dispatch (R208; log 11). No
event changes it. -/
inductive Responder where
  /-- the reference responder of R216 -/
  | reference
  /-- the recorded contract of CommandProcessor, R211 to R214 -/
  | commandProcessor
  /-- any responder, by its values: the first row of the dispatch answers it; a dispatch without a row is answered by
  nothing. A run meets finitely many dispatches, so every function is such a table on it -/
  | table (rows : List Answer)
  deriving DecidableEq, Repr

/-- Results and labels of the model's trace (spec/00_scope.md R15, spec/60_exceptions.md R231; log 22). No event reads
it. -/
inductive Label where
  /-- HAS_DATA's answer (R111) -/
  | hasData (ch : ChanId) (answer : Bool)
  /-- POP's answer (R112) -/
  | popped (ch : ChanId) (b : Byte)
  /-- PEEK's answer (R115) -/
  | peeked (ch : ChanId) (b : Byte)
  /-- VIEW's answer (R118) -/
  | viewed (ch : ChanId) (off : Nat) (bytes : List Byte)
  /-- E1, `MagicMismatch(k, b)` (R232) -/
  | magicMismatch (dec k : Nat) (b : Byte)
  /-- E2, `TokenMismatch(b)` (R233) -/
  | tokenMismatch (dec : Nat) (b : Byte)
  /-- E3, `ChecksumMismatch(expected, got)` (R234) -/
  | checksumMismatch (dec : Nat) (expected got : Byte)
  /-- E4, `Overrun(ch)` (R235) -/
  | overrun (ch : ChanId)
  /-- a DISPATCH was raised (R150) -/
  | dispatched (d : Dispatch)
  /-- the checksum byte of an ENCODE has been pushed (`enc_done`, R180, R38) -/
  | encodeDone (enc : Nat)
  deriving DecidableEq, Repr

/-- The agents (R248); `other` is any agent beside them. -/
inductive Agent where
  /-- the producer of a link's inbound channel, an interrupt context -/
  | rx (link : Nat)
  /-- the polling agent -/
  | poll
  /-- the consumer of a link's outbound channel, a transmit path -/
  | tx (link : Nat)
  /-- the platform, which performs RESET -/
  | platform
  /-- an agent that holds no role -/
  | other (id : Nat)
  deriving DecidableEq, Repr

/-- What the collaborator does in answer to a dispatch. -/
inductive Reply where
  /-- an ENCODE it requests (R208) -/
  | encode (enc : Nat) (p : List Byte)
  /-- START_CONFIG's copy of the configuration record, from the slot after the command byte (R119, R212) -/
  | copyRecord (link off : Nat)
  deriving DecidableEq, Repr

/-- What the polling agent still has to do of the operation it is inside (spec/20_memory.md R60). -/
inductive Task where
  /-- a reply to begin -/
  | reply (r : Reply)
  /-- an ENCODE under way: the bytes before the checksum still to push and the running XOR (R31, R180) -/
  | pushing (enc : Nat) (rest : List Byte) (cks : Byte)
  /-- a DEC_RUN under way (R151) -/
  | decRun (dec : Nat)
  /-- the raised dispatch is to be answered before the next DEC_STEP (R209) -/
  | deliver
  deriving DecidableEq, Repr

/-- One entry of the schedule, which stands for the outside and for the order of the agents' events (log 7). -/
inductive Input where
  /-- agent `a` performs the event with this code, an operation of several events with no other event between -/
  | event (a : Agent) (code : List Byte)
  /-- the polling agent enters the operation with this code and will run it event by event -/
  | begin (code : List Byte)
  /-- the polling agent takes the next event of the operation it is inside -/
  | poll
  deriving DecidableEq, Repr

/-- The machine. -/
structure State where
  params : Params
  /-- RESET has happened (spec/70_reset_and_hazards.md R267; log 20) -/
  booted : Bool
  /-- the links; link 0 is the PC link, link 1 the radio link (R200) -/
  links : List Link
  /-- the decoder's output, from the checksum match until it is answered, which is before the next DEC_STEP (R149, R209;
  log 9) -/
  raised : Option Dispatch
  responder : Responder
  /-- the collaborator's persistent configuration record, outside the block (R212; log 12) -/
  record : List Byte
  tasks : List Task
  input : List Input
  /-- newest first -/
  trace : List Label
  deriving DecidableEq, Repr

/-- Model faults (R236): the contract forbids the event. The block's state does not change and the run ends, marked by
the fault (log 21). All safe. -/
inductive Fault where
  /-- POP, PEEK and DEC_STEP on an empty channel (R114). Safe. -/
  | popEmpty (ch : ChanId)
  /-- ENCODE of more than `ENC_MAX` bytes (R182). Safe. -/
  | encodeTooLong (n : Nat)
  /-- VIEW of more than `C` bytes (R118). Safe. -/
  | viewTooLong (ch : ChanId) (n : Nat)
  /-- any load of a slot not pushed since reset (R238). Safe. -/
  | readUnwritten (ch : ChanId) (a : Nat)
  /-- VIEW from a slot index `off >= C`: there is no such slot (spec/20_memory.md R53; log 17). Safe. -/
  | noSuchSlot (ch : ChanId) (off : Nat)
  deriving DecidableEq, Repr

/-- Refusals (R237): a call or a configuration the model does not accept. All safe: nothing runs. -/
inductive Refusal where
  /-- an instruction without a meaning. Safe. -/
  | notModelled (mnemonic : String)
  /-- the step: the event's code is no instruction's. Safe. -/
  | undecodable (e : DecodeError)
  /-- the step: the decoded instruction is not well formed. Safe. -/
  | illFormed
  /-- the step: an event before RESET (R267, U24). Safe. -/
  | beforeReset
  /-- the step: the agent does not hold the role the event needs (R246, R247, U10). Safe. -/
  | roleViolation (a : Agent)
  /-- RESET: a channel with `C < 2`, `ENC_MAX > 255`, or `c0` outside a channel (R237, R5, R8, R261). Safe. -/
  | badConfig
  /-- RESET while the polling agent is inside an operation (R263, U23). Safe. -/
  | resetInOperation
  /-- any event on a link the machine does not have (R9, R200; log 18). Safe. -/
  | noSuchLink (l : Nat)
  /-- STEPBACK not straight after a consuming read (R116, U11). Safe. -/
  | strayStepback (ch : ChanId)
  /-- a DEC_STEP sub-case that the decoder's state does not select (R140; log 15). Safe. -/
  | notSelected (dec : Nat)
  /-- DISPATCH or a command that no decoder raised (R150; log 9). Safe. -/
  | noDispatch
  /-- FRAME of a payload that has no frame, longer than 255 bytes (R187; log 14). Safe. -/
  | noFrame (n : Nat)
  deriving DecidableEq, Repr

/-- A channel right after RESET (R260): both cursors at `c0`, no slot with a value, the ghost counters 0. -/
def Chan.fresh (cap c0 : Nat) : Chan where
  cap := cap
  wr := c0
  rd := c0
  mem := []
  pushed := 0
  consumed := 0
  justRead := false

/-- The decoder right after RESET: AWAIT_MAGIC_1 (R26). DESIGN CHOICE, unsafe: the spec gives the four data registers no
value; they hold 0 (log 5), and so do the two ghosts (log 26). -/
def Dec.fresh : Dec where
  st := .awaitMagic1
  len := 0
  remaining := 0
  acc := 0
  startOff := 0
  lenSlot := 0
  taken := []

/-- A link right after RESET, the capacities kept. -/
def Link.fresh (capIn capOut c0 : Nat) : Link where
  inCh := Chan.fresh capIn c0
  dec := Dec.fresh
  outCh := Chan.fresh capOut c0

/-- The machine right after RESET with parameters `p` and links of the given capacities (inbound, outbound), driven by
`r`, with nothing to do (R248, R260). -/
def State.resetWith (p : Params) (caps : List (Nat × Nat)) (r : Responder) : State where
  params := p
  booted := true
  links := caps.map fun c => Link.fresh c.1 c.2 p.c0
  raised := none
  responder := r
  record := []
  tasks := []
  input := []
  trace := []

/-- The machine right after RESET with the reference parameters (R5 to R9, R216, R260). -/
def State.reset : State :=
  State.resetWith Params.reference
    (List.replicate Config.referenceLinks (Config.referenceCapacity, Config.referenceCapacity)) .reference

end Sys2Proof.Machine
end

