-- ==== Sys2Proof/Machine/Flags.lean ====
section
/-! DEFINITION. The block has no flags and no condition codes (spec/10_state.md R22): no operation writes a status bit. What
it answers, it computes from the cursors each time it is asked. -/
namespace Sys2Proof.Machine

/-- `has_data`, "computed from cursor equality" (R22, R111). -/
def Chan.hasData (c : Chan) : Bool := decide (c.rd ≠ c.wr)

/-- `occ(ch) = (ch.wr - ch.rd) mod C` (spec/30_encoding.md R103). The hardware never computes it. -/
def Chan.occ (c : Chan) : Nat := (c.wr + c.cap - c.rd) % c.cap

/-- The next PUSH is an overrun PUSH: `occ == C - 1` (R235, spec/70_reset_and_hazards.md R271). No agent of the block can
evaluate it; the model does, for the label E4. -/
def Chan.atLimit (c : Chan) : Bool := decide (c.occ + 1 = c.cap)

end Sys2Proof.Machine
end

