-- ==== Sys2Proof/Machine/Operands.lean ====
section
/-! DEFINITION. The operand forms of spec/30_encoding.md R86: a channel, a decoder or an encoder is named by its link, and
an event on a link the machine does not have is refused (log 18). Also which agent may perform an instruction: the
roles of spec/60_exceptions.md R246. -/
namespace Sys2Proof.Machine

/-- The outcome of an event. -/
abbrev Result := Host.Outcome State Fault Refusal

/-- A link's channel of one direction. -/
def Link.chan (k : Link) : Dir → Chan
  | .inbound => k.inCh
  | .outbound => k.outCh

/-- A link with one channel replaced. -/
def Link.setChan (k : Link) (d : Dir) (c : Chan) : Link :=
  match d with
  | .inbound => { k with inCh := c }
  | .outbound => { k with outCh := c }

/-- The channel a channel operand names. -/
def State.chan? (s : State) (ch : ChanId) : Option Chan := (s.links[ch.link]?).map (·.chan ch.dir)

/-- The decoder a decoder operand names. -/
def State.dec? (s : State) (l : Nat) : Option Dec := (s.links[l]?).map (·.dec)

/-- A state with one link changed. -/
def State.modLink (s : State) (l : Nat) (f : Link → Link) : State := { s with links := s.links.modify l f }

/-- A state with one channel replaced; no other channel changes (spec/40_ringchannel_ops.md R121). -/
def State.setChan (s : State) (ch : ChanId) (c : Chan) : State := s.modLink ch.link (·.setChan ch.dir c)

/-- Resolve a link operand. -/
def withLink (l : Nat) (s : State) (f : Link → Result) : Result :=
  match s.links[l]? with
  | some k => f k
  | none => .refused (.noSuchLink l)

/-- Resolve a channel operand. -/
def withChan (ch : ChanId) (s : State) (f : Chan → Result) : Result :=
  withLink ch.link s fun k => f (k.chan ch.dir)

/-- The producer of a channel (R200, R246). -/
def producerOf (ch : ChanId) : Agent :=
  match ch.dir with
  | .inbound => .rx ch.link
  | .outbound => .poll

/-- The consumer of a channel (R200, R246). -/
def consumerOf (ch : ChanId) : Agent :=
  match ch.dir with
  | .inbound => .poll
  | .outbound => .tx ch.link

/-- The one agent that may perform an instruction (the column "agent" of R91 and the roles of R246). -/
def performer : Instr → Agent
  | .push ch _ => producerOf ch
  | .hasData ch => consumerOf ch
  | .pop ch => consumerOf ch
  | .peek ch => consumerOf ch
  | .stepback ch => consumerOf ch
  | .view ch _ _ => consumerOf ch
  | .decStep _ => .poll
  | .decAwaitMagic1 _ => .poll
  | .decAwaitMagic2 _ => .poll
  | .decAwaitMagic3 _ => .poll
  | .decAwaitMagic4 _ => .poll
  | .decReadLength _ => .poll
  | .decReadToken _ => .poll
  | .decPayload _ => .poll
  | .decChecksum _ => .poll
  | .dispatch _ _ _ => .poll
  | .decRun _ => .poll
  | .encode _ _ => .poll
  | .feedPc _ => .rx 0
  | .feedRadio _ => .rx 1
  | .tick => .poll
  | .reset => .platform
  | .frame ch _ => producerOf ch
  | .frameReferenceHeader _ => .rx 0
  | .cmdGetAlive => .poll
  | .cmdAcknowledge => .poll
  | .cmdStartConfig => .poll
  | .cmdUnknown _ => .poll

end Sys2Proof.Machine
end

