-- ==== Sys2Proof/Machine/Ops.lean ====
section
/-! DEFINITION. The named operations over slots, cursors and channels (spec/00_scope.md R13, spec/30_encoding.md R100,
spec/40_ringchannel_ops.md), and the state change that takes the place of an exception's entry (spec/60_exceptions.md
R244). -/
namespace Sys2Proof.Machine

/-! ### Slots -/

/-- The byte listed at slot `a`; none where no PUSH has written the slot since reset (R238). -/
def Memory.read : List Host.Cell → Nat → Option Byte
  | [], _ => none
  | (k, v) :: m, a => if a = k then some v else Memory.read m a

/-- Store byte `b` at slot `a`, keeping the rising order of the cells. -/
def Memory.write : List Host.Cell → Nat → Byte → List Host.Cell
  | [], a, b => [(a, b)]
  | (k, v) :: m, a, b =>
    if a < k then (a, b) :: (k, v) :: m
    else if a = k then (a, b) :: m
    else (k, v) :: Memory.write m a b

/-- The canonical form: slot numbers strictly rising. An unlisted slot has no value, so no listed one can equal what an
unlisted one reads as. -/
abbrev Memory.wf (m : List Host.Cell) : Prop := m.Pairwise fun x y => x.1 < y.1

/-- `MemRead(ch, a, 1)` (R13), none where the slot has no value. -/
def Chan.slot? (c : Chan) (a : Nat) : Option Byte := Memory.read c.mem a

/-- What one slot of one channel of the machine holds. -/
def State.slot? (s : State) (ch : ChanId) (a : Nat) : Option Byte := (s.chan? ch).bind (·.slot? a)

/-- The bytes of the `n` slots `off mod C`, `(off + 1) mod C`, … (R53), or the first of those slots that has no
value. -/
def Chan.readRun (c : Chan) : Nat → Nat → Except Nat (List Byte)
  | _, 0 => .ok []
  | off, n + 1 =>
    match c.slot? (off % c.cap) with
    | none => .error (off % c.cap)
    | some b =>
      match c.readRun (off + 1) n with
      | .ok bs => .ok (b :: bs)
      | .error a => .error a

/-- `contents(ch)` (spec/10_state.md R37): the visible unread bytes, oldest first. Under the invariant every visible slot
has a value; one that has none is left out. -/
def Chan.contents (c : Chan) : List Byte :=
  (List.range c.occ).filterMap fun i => c.slot? ((c.rd + i) % c.cap)

/-! ### Cursors -/

/-- `(x + 1) mod C` (R100). -/
def nextSlot (cap x : Nat) : Nat := (x + 1) % cap

/-- `(x - 1) mod C` (R100): 0 steps back to `C - 1`. -/
def prevSlot (cap x : Nat) : Nat := (x + cap - 1) % cap

/-- PUSH's two assignments, the store first (R110, R62). Does not read `rd`. -/
def Chan.pushByte (c : Chan) (b : Byte) : Chan :=
  { c with mem := Memory.write c.mem c.wr b, wr := nextSlot c.cap c.wr, pushed := c.pushed + 1 }

/-- `consume` (R112, R140): the read cursor advances, the slot keeps its byte (R25). -/
def Chan.consume (c : Chan) : Chan :=
  { c with rd := nextSlot c.cap c.rd, consumed := c.consumed + 1, justRead := true }

/-- STEPBACK's assignment (R116). The byte is unread again, so the ghost counter `R` goes back too and keeps
`ch.rd == R mod C` (R17; log 16). -/
def Chan.unconsume (c : Chan) : Chan :=
  { c with rd := prevSlot c.cap c.rd, consumed := c.consumed - 1, justRead := false }

/-- A consumer event that consumes nothing: only the model's record of the latest consumer event changes (R116). -/
def Chan.look (c : Chan) : Chan := { c with justRead := false }

/-! ### Events on a channel -/

/-- A state with a label added to the trace. -/
def State.note (s : State) (l : Label) : State := { s with trace := l :: s.trace }

/-- A state with a label added if there is one. -/
def State.noteOpt (s : State) : Option Label → State
  | some l => s.note l
  | none => s

/-- Do `f` after an event that answered a next state; a fault or a refusal ends the sequence. -/
def andThen (r : Result) (f : State → Result) : Result :=
  match r with
  | .next s => f s
  | .fault x => .fault x
  | .refused x => .refused x

/-- The PUSH event (R110), with the label E4 where it finds `occ == C - 1` (R235). -/
def pushEvent (ch : ChanId) (b : Byte) (s : State) : Result :=
  withChan ch s fun c =>
    .next ((s.setChan ch (c.pushByte b)).noteOpt (if c.atLimit then some (.overrun ch) else none))

/-- A finite sequence of PUSH events on one channel. -/
def pushAll (ch : ChanId) : List Byte → State → Result
  | [], s => .next s
  | b :: bs, s => andThen (pushEvent ch b s) (pushAll ch bs)

/-- The oldest unread byte, given to `f` (the precondition and the load of POP and PEEK, R112, R115). -/
def withOldest (ch : ChanId) (c : Chan) (f : Byte → Result) : Result :=
  if c.hasData then
    match c.slot? c.rd with
    | some b => f b
    | none => .fault (.readUnwritten ch c.rd)
  else .fault (.popEmpty ch)

/-- VIEW's checks and loads (R118), the bytes given to `f`. -/
def withView (ch : ChanId) (c : Chan) (off n : Nat) (f : List Byte → Result) : Result :=
  if c.cap < n then .fault (.viewTooLong ch n)
  else if c.cap ≤ off then .fault (.noSuchSlot ch off)
  else
    match c.readRun off n with
    | .ok bs => f bs
    | .error a => .fault (.readUnwritten ch a)

/-! ### What takes the place of an exception's entry -/

/-- The state change of an error event (R244): the decoder is in AWAIT_MAGIC_1, nothing is saved, every other register
keeps its value. There is no return (R245): decoding goes on with the next DEC_STEP. -/
def Dec.resync (d : Dec) : Dec := { d with st := .awaitMagic1 }

end Sys2Proof.Machine
end

