-- ==== Sys2Proof/Machine/Encoder.lean ====
section
/-! DEFINITION. The encoder (spec/42_frame_encoder.md) and the rows that put the bytes of a frame or of its header on a
channel (spec/30_encoding.md R80, R99). -/
namespace Sys2Proof.Machine

/-- The rest of an ENCODE (R180): the bytes before the checksum that are still to push, and the running XOR of those
pushed. The last PUSH carries the XOR. -/
def pushRun (enc : Nat) : List Byte → Byte → State → Result
  | [], cks, s => andThen (pushEvent ⟨enc, .outbound⟩ cks s) fun t => .next (t.note (.encodeDone enc))
  | x :: xs, cks, s => andThen (pushEvent ⟨enc, .outbound⟩ x s) (pushRun enc xs (cks ^^^ x))

/-- ENCODE with no other event between its PUSHes: `EncodeTooLong` pushes nothing (R182); there is no room check
(R185). -/
def encodeFrame (enc : Nat) (p : List Byte) (s : State) : Result :=
  withLink enc s fun _ =>
    if s.params.encMax < p.length then .fault (.encodeTooLong p.length) else pushRun enc (frameBody s.params p) 0 s

/-- ENCODE (R180). -/
def execEncode (enc : Nat) (p : List Byte) (s : State) : Result := encodeFrame enc p s

/-- FRAME: PUSH of each byte of `frame(p)` in order (R80, FEED_FRAME of R99; log 14). -/
def execFrame (ch : ChanId) (p : List Byte) (s : State) : Result :=
  withChan ch s fun _ =>
    if 255 < p.length then .refused (.noFrame p.length) else pushAll ch (frameBytes s.params p) s

/-- The six bytes of the table's row FRAME.reference_header, first byte first. -/
def referenceHeader (n : Byte) : List Byte := [0x55, 0x4E, 0x45, 0x52, n, 0x3A]

/-- FRAME.reference_header: the six header bytes arrive on `pc_in` (log 14). -/
def execFrameReferenceHeader (n : Byte) (s : State) : Result :=
  withChan ChanId.pcIn s fun _ => pushAll ChanId.pcIn (referenceHeader n) s

end Sys2Proof.Machine
end

