-- ==== Sys2Proof/Machine/Commands.lean ====
section
/-! DEFINITION. The collaborator that answers a dispatch (spec/43_link_and_collaborators.md R208 to R216): the reference
responder, the recorded contract of CommandProcessor, and any responder at all through a table of its values
(log 11). The rows CMD.* are CommandProcessor's calls by command byte (log 12). -/
namespace Sys2Proof.Machine

/-- The answer to an unknown command: two bytes, one of them the fixed marker (R213). The other is a FREE VALUE
(log 13). -/
def unknownAnswer (p : Params) (raw : Byte) : List Byte :=
  [if p.unknownMarkerFirst then p.unknownMarker else Config.unknownOther raw,
   if p.unknownMarkerFirst then Config.unknownOther raw else p.unknownMarker]

/-- What CommandProcessor does for a command of dispatch `d` (R211 to R213), on the link the frame arrived on (R215).
The module reset and the call of `configure` that follow START_CONFIG's copy act on RadioSequencer and are out of scope
(spec/00_scope.md R4; log 12). -/
def commandReplies (p : Params) (d : Dispatch) : Command → List Reply
  | .getAlive => [.encode d.link [p.cmdGetAlive, p.ack]]
  | .acknowledge => [.encode d.link [p.ack, p.ack]]
  | .startConfig => [.encode d.link [p.cmdStartConfig, p.ack], .copyRecord d.link d.off]
  | .unknown raw => [.encode d.link (unknownAnswer p raw)]

/-- The reference responder (R216). A dispatch with an empty payload has no command byte and is answered by nothing
(R214). -/
def referenceReplies (p : Params) (d : Dispatch) : List Reply :=
  match d.payload with
  | [] => []
  | c :: _ => if c = p.cmdGetAlive ∨ c = p.ack then [.encode d.link [c, p.ack]] else []

/-- The requests of the first row for `d` of a responder given by its values (R208); none where it has no row. -/
def requestsFor (d : Dispatch) : List Answer → List Request
  | [] => []
  | a :: rows => if a.link = d.link ∧ a.n = d.n ∧ a.payload = d.payload then a.requests else requestsFor d rows

/-- What the responder answers to `d` (R208). -/
def answerOf (p : Params) (d : Dispatch) : Responder → List Reply
  | .reference => referenceReplies p d
  | .commandProcessor =>
    match d.payload with
    | [] => []
    | c :: _ => commandReplies p d (commandOf p c)
  | .table rows => (requestsFor d rows).map fun r => .encode r.enc r.payload

/-- START_CONFIG's copy: `VIEW ch ((start_off + 1) mod C) (record size)` into the configuration record (R119, R212). -/
def copyRecord (l off : Nat) (s : State) : Result :=
  withChan ⟨l, .inbound⟩ s fun c =>
    withView ⟨l, .inbound⟩ c (nextSlot c.cap off) s.params.recordSize fun bs =>
      .next { s.setChan ⟨l, .inbound⟩ c.look with record := bs }

/-- One reply, with no other event between its parts. -/
def runReply : Reply → State → Result
  | .encode enc p, s => encodeFrame enc p s
  | .copyRecord l off, s => copyRecord l off s

/-- Replies in order, with no other event between. -/
def runReplies : List Reply → State → Result
  | [], s => .next s
  | r :: rs, s => andThen (runReply r s) (runReplies rs)

/-- The raised dispatch is answered, before the polling agent's next DEC_STEP (R209). -/
def deliver (s : State) : Result :=
  match s.raised with
  | none => .next s
  | some d => runReplies (answerOf s.params d s.responder) { s with raised := none }

/-- CommandProcessor is called with the raised dispatch and takes its command byte for `c` (R104, R210); its replies are
given to `f`. Refused where no dispatch stands, where it has no command byte (R150, R214) and where the byte is another
command's. DESIGN CHOICE (log 12): a CMD event answers as CommandProcessor whatever `State.responder` is, so that a schedule
can put CommandProcessor's answer in the place of the responder's (R208 has one responder for a run). -/
def withCommand (c : Command) (s : State) (f : List Reply → State → Result) : Result :=
  match s.raised with
  | none => .refused .noDispatch
  | some d =>
    match d.payload with
    | [] => .refused .noDispatch
    | b :: _ =>
      if commandOf s.params b = c then f (commandReplies s.params d c) { s with raised := none }
      else .refused .noDispatch

/-- The command answered with no other event between its replies. -/
def commandEvent (c : Command) (s : State) : Result := withCommand c s runReplies

/-- CMD.GET_ALIVE (R211): the answer is `[command_byte, ACK]`. -/
def execCmdGetAlive (s : State) : Result := commandEvent .getAlive s

/-- CMD.ACKNOWLEDGE (R211): the answer is `[command_byte, ACK]`. -/
def execCmdAcknowledge (s : State) : Result := commandEvent .acknowledge s

/-- CMD.START_CONFIG (R212): the answer, then the copy of the configuration record. -/
def execCmdStartConfig (s : State) : Result := commandEvent .startConfig s

/-- CMD.UNKNOWN (R213): the two-byte answer with the marker. -/
def execCmdUnknown (raw : Byte) (s : State) : Result := commandEvent (.unknown raw) s

end Sys2Proof.Machine
end

