-- ==== Sys2Proof/Machine/Decoder.lean ====
section
/-! DEFINITION. The frame decoder (spec/41_frame_decoder.md): DEC_STEP and its eight sub-cases, DISPATCH, DEC_RUN. -/
namespace Sys2Proof.Machine

/-- Which sub-case the registers select (R140, R147). -/
def Dec.subCase (d : Dec) : SubCase :=
  match d.st with
  | .awaitMagic1 => .awaitMagic1
  | .awaitMagic2 => .awaitMagic2
  | .awaitMagic3 => .awaitMagic3
  | .awaitMagic4 => .awaitMagic4
  | .readLength => .readLength
  | .readToken => .readToken
  | .readPayload => if d.remaining = 0 then .checksum else .payload

/-- What a sub-case does with a byte: the registers after it, whether the byte is consumed, the label noted, whether a
DISPATCH is raised (the columns of R152). -/
structure Reaction where
  dec : Dec
  consume : Bool
  label : Option Label
  dispatch : Bool
  deriving DecidableEq, Repr

/-- AWAIT_MAGIC_1 (R141): the byte is consumed in both cases. -/
def reactMagic1 (p : Params) (l : Nat) (d : Dec) (b : Byte) : Reaction :=
  if b = p.magic.b0 then ⟨{ d with st := .awaitMagic2 }, true, none, false⟩
  else ⟨d.resync, true, some (.magicMismatch l 1 b), false⟩

/-- AWAIT_MAGIC_2 (R142): a mismatching byte is not consumed. -/
def reactMagic2 (p : Params) (l : Nat) (d : Dec) (b : Byte) : Reaction :=
  if b = p.magic.b1 then ⟨{ d with st := .awaitMagic3 }, true, none, false⟩
  else ⟨d.resync, false, some (.magicMismatch l 2 b), false⟩

/-- AWAIT_MAGIC_3 (R143). -/
def reactMagic3 (p : Params) (l : Nat) (d : Dec) (b : Byte) : Reaction :=
  if b = p.magic.b2 then ⟨{ d with st := .awaitMagic4 }, true, none, false⟩
  else ⟨d.resync, false, some (.magicMismatch l 3 b), false⟩

/-- AWAIT_MAGIC_4 (R144). -/
def reactMagic4 (p : Params) (l : Nat) (d : Dec) (b : Byte) : Reaction :=
  if b = p.magic.b3 then ⟨{ d with st := .readLength }, true, none, false⟩
  else ⟨d.resync, false, some (.magicMismatch l 4 b), false⟩

/-- READ_LENGTH (R145): `rd` is still the slot of `b`, so `start_off` is the slot of `payload[0]` (R88). -/
def reactReadLength (cap rd : Nat) (d : Dec) (b : Byte) : Reaction :=
  ⟨{ d with len := b, startOff := (rd + 2) % cap, st := .readToken, lenSlot := rd }, true, none, false⟩

/-- READ_TOKEN (R146): on a match the accumulator takes the seed `XOR(MAGIC) ^ len ^ TOKEN` (R89). -/
def reactReadToken (p : Params) (l : Nat) (d : Dec) (b : Byte) : Reaction :=
  if b = p.token then
    ⟨{ d with
        acc := p.magic.b0 ^^^ p.magic.b1 ^^^ p.magic.b2 ^^^ p.magic.b3 ^^^ d.len ^^^ p.token
        remaining := d.len
        st := .readPayload
        taken := [] }, true, none, false⟩
  else ⟨d.resync, false, some (.tokenMismatch l b), false⟩

/-- READ_PAYLOAD with `remaining > 0` (R148): every payload byte is XORed in. -/
def reactPayload (d : Dec) (b : Byte) : Reaction :=
  ⟨{ d with acc := d.acc ^^^ b, remaining := d.remaining - 1, taken := d.taken ++ [b] }, true, none, false⟩

/-- READ_PAYLOAD with `remaining == 0` (R149): the checksum byte is consumed in both cases and not XORed in. -/
def reactChecksum (l : Nat) (d : Dec) (b : Byte) : Reaction :=
  if b = d.acc then ⟨d.resync, true, none, true⟩
  else ⟨d.resync, true, some (.checksumMismatch l d.acc b), false⟩

/-- The whole transition table (R152). -/
def react (which : SubCase) (p : Params) (l cap rd : Nat) (d : Dec) (b : Byte) : Reaction :=
  match which with
  | .awaitMagic1 => reactMagic1 p l d b
  | .awaitMagic2 => reactMagic2 p l d b
  | .awaitMagic3 => reactMagic3 p l d b
  | .awaitMagic4 => reactMagic4 p l d b
  | .readLength => reactReadLength cap rd d b
  | .readToken => reactReadToken p l d b
  | .payload => reactPayload d b
  | .checksum => reactChecksum l d b

/-- The state of link `l` after a reaction: the byte consumed or kept, the decoder's registers written, the label
noted. -/
def settle (l : Nat) (r : Reaction) (s : State) : State :=
  (s.modLink l fun k =>
    { k with inCh := if r.consume then k.inCh.consume else k.inCh.look, dec := r.dec }).noteOpt r.label

/-- The decoder's output raises (R150): the snapshot of the payload is the `n` slots from `off` on, read at this event.
VIEW's bound `n <= C` is not applied: a longer frame dispatches too (R152, U22; log 10). -/
def raiseDispatch (l : Nat) (c : Chan) (d : Dec) (s : State) : Result :=
  match c.readRun d.startOff d.len.toNat with
  | .error a => .fault (.readUnwritten ⟨l, .inbound⟩ a)
  | .ok bs =>
    .next (({ s with raised := some ⟨l, d.startOff, d.len, bs⟩ } : State).note
      (.dispatched ⟨l, d.startOff, d.len, bs⟩))

/-- One DEC_STEP by sub-case `which` (R140): it examines the oldest unread byte and is one event. A dispatch that still
stands, of any link, is answered before it (R209; log 9); no answer touches an inbound slot, an inbound cursor or a
decoder, so the byte examined is the same. -/
def decCase (which : SubCase) (l : Nat) (s : State) : Result :=
  withLink l s fun k =>
    withOldest ⟨l, .inbound⟩ k.inCh fun b =>
      andThen (deliver s) fun t =>
        let r := react which s.params l k.inCh.cap k.inCh.rd k.dec b
        if r.dispatch then raiseDispatch l k.inCh r.dec (settle l r t) else .next (settle l r t)

/-- DEC_STEP: the sub-case the decoder's state selects (R140). -/
def decStepOn (l : Nat) (s : State) : Result := withLink l s fun k => decCase k.dec.subCase l s

/-- A sub-case by name: it is a DEC_STEP only where the decoder's state selects it (log 15). -/
def selectedCase (which : SubCase) (l : Nat) (s : State) : Result :=
  withLink l s fun k => if k.dec.subCase = which then decCase which l s else .refused (.notSelected l)

/-- DEC_STEP (R140). -/
def execDecStep (dec : Nat) (s : State) : Result := decStepOn dec s

/-- DEC_STEP.AWAIT_MAGIC_1 (R141). -/
def execDecAwaitMagic1 (dec : Nat) (s : State) : Result := selectedCase .awaitMagic1 dec s

/-- DEC_STEP.AWAIT_MAGIC_2 (R142). -/
def execDecAwaitMagic2 (dec : Nat) (s : State) : Result := selectedCase .awaitMagic2 dec s

/-- DEC_STEP.AWAIT_MAGIC_3 (R143). -/
def execDecAwaitMagic3 (dec : Nat) (s : State) : Result := selectedCase .awaitMagic3 dec s

/-- DEC_STEP.AWAIT_MAGIC_4 (R144). -/
def execDecAwaitMagic4 (dec : Nat) (s : State) : Result := selectedCase .awaitMagic4 dec s

/-- DEC_STEP.READ_LENGTH (R145). -/
def execDecReadLength (dec : Nat) (s : State) : Result := selectedCase .readLength dec s

/-- DEC_STEP.READ_TOKEN (R146). -/
def execDecReadToken (dec : Nat) (s : State) : Result := selectedCase .readToken dec s

/-- DEC_STEP.READ_PAYLOAD.payload (R148). -/
def execDecPayload (dec : Nat) (s : State) : Result := selectedCase .payload dec s

/-- DEC_STEP.READ_PAYLOAD.checksum (R149). -/
def execDecChecksum (dec : Nat) (s : State) : Result := selectedCase .checksum dec s

/-- Go on with `r` where the dispatch that a DISPATCH event names stands; refused otherwise. -/
def withRaised (dec off : Nat) (n : Byte) (s : State) (r : Result) : Result :=
  withLink dec s fun _ =>
    match s.raised with
    | none => .refused .noDispatch
    | some d => if d.link = dec ∧ d.off = off ∧ d.n = n then r else .refused .noDispatch

/-- DISPATCH `(dec, off, n)` (R150, R209): the dispatch the decoder raised is handed to the collaborator, which answers
it. It changes no register of the block; the answer's ENCODEs push on outbound channels. Refused where no such dispatch
stands: only R149 produces one (log 9). -/
def execDispatch (dec off : Nat) (n : Byte) (s : State) : Result := withRaised dec off n s (deliver s)

/-- `while HAS_DATA(dec.in): DEC_STEP(dec)` (R151), a dispatch that stands answered before the next HAS_DATA (R209), with no
event of another agent between. `fuel` bounds the number of turns. -/
def decRunLoop : Nat → Nat → State → Result
  | 0, _, s => .next s
  | fuel + 1, l, s =>
    andThen (deliver s) fun t =>
      withLink l t fun k =>
        if k.inCh.hasData then andThen (decStepOn l t) (decRunLoop fuel l)
        else .next (t.setChan ⟨l, .inbound⟩ k.inCh.look)

/-- DEC_RUN with no event of another agent between its steps. Each unread byte is examined at most twice (R140, R283), so
`2 * occ` turns and the last HAS_DATA are enough. -/
def decRunAlone (l : Nat) (s : State) : Result :=
  withLink l s fun k => decRunLoop (2 * k.inCh.occ + 1) l s

/-- DEC_RUN (R151). -/
def execDecRun (dec : Nat) (s : State) : Result := decRunAlone dec s

end Sys2Proof.Machine
end

