-- ==== Sys2Proof/Machine/Links.lean ====
section
/-! DEFINITION. The entry points of the links (spec/43_link_and_collaborators.md R201 to R203) and RESET
(spec/70_reset_and_hazards.md R260). -/
namespace Sys2Proof.Machine

/-- FEED_PC (R201): `PUSH(pc_in, b)`. -/
def execFeedPc (b : Byte) (s : State) : Result := pushEvent ChanId.pcIn b s

/-- FEED_RADIO (R202): `PUSH(radio_in, b)`. -/
def execFeedRadio (b : Byte) (s : State) : Result := pushEvent ChanId.radioIn b s

/-- DEC_RUN on each of the links in order. -/
def decRunEach : List Nat → State → Result
  | [], s => .next s
  | l :: ls, s => andThen (decRunAlone l s) (decRunEach ls)

/-- TICK (R203): `DEC_RUN(dec_pc)` followed by `DEC_RUN(dec_radio)`; with another NLINKS, each link's in order
(log 18). -/
def execTick (s : State) : Result := decRunEach (List.range s.links.length) s

/-- A channel's parameters are accepted: `C >= 2` (R5, R237) and `c0` a slot of it (R261). -/
def Chan.configOk (c0 : Nat) (c : Chan) : Bool := decide (2 ≤ c.cap) && decide (c0 < c.cap)

/-- The parameters are accepted: `ENC_MAX <= 255` (R8) and every channel's. -/
def State.configOk (s : State) : Bool :=
  decide (s.params.encMax ≤ 255) &&
    s.links.all fun k => k.inCh.configOk s.params.c0 && k.outCh.configOk s.params.c0

/-- RESET (R260): every channel empty at `c0`, no slot with a value, every decoder in AWAIT_MAGIC_1; the capacities stay
(R262). Refused inside an operation (R263) and for a configuration the model does not accept (R237). The agents around
the block, its collaborator and the trace are not the block's and stay (log 20). DESIGN CHOICE (log 20): a DISPATCH that
stands unanswered is dropped; R263 does not say whether the polling agent is then inside an operation. -/
def execReset (s : State) : Result :=
  if s.tasks ≠ [] then .refused .resetInOperation
  else if s.configOk then
    .next { s with
      booted := true
      links := s.links.map fun k => Link.fresh k.inCh.cap k.outCh.cap s.params.c0
      raised := none }
  else .refused .badConfig

end Sys2Proof.Machine
end

