-- ==== Sys2Proof/Machine/RingChannel.lean ====
section
/-! DEFINITION. The meanings of the RingChannel rows (spec/40_ringchannel_ops.md): PUSH, HAS_DATA, POP, PEEK, STEPBACK,
VIEW. -/
namespace Sys2Proof.Machine

/-- PUSH (R110): never fails, does not read `ch.rd`. -/
def execPush (ch : ChanId) (b : Byte) (s : State) : Result := pushEvent ch b s

/-- HAS_DATA (R111). -/
def execHasData (ch : ChanId) (s : State) : Result :=
  withChan ch s fun c => .next ((s.setChan ch c.look).note (.hasData ch c.hasData))

/-- POP (R112): `PopEmpty` on an empty channel (R114). -/
def execPop (ch : ChanId) (s : State) : Result :=
  withChan ch s fun c => withOldest ch c fun b => .next ((s.setChan ch c.consume).note (.popped ch b))

/-- PEEK (R115): as POP, nothing consumed. -/
def execPeek (ch : ChanId) (s : State) : Result :=
  withChan ch s fun c => withOldest ch c fun b => .next ((s.setChan ch c.look).note (.peeked ch b))

/-- STEPBACK (R116): refused when not straight after a consuming read (R237). -/
def execStepback (ch : ChanId) (s : State) : Result :=
  withChan ch s fun c => if c.justRead then .next (s.setChan ch c.unconsume) else .refused (.strayStepback ch)

/-- VIEW (R118): the cursors are neither read nor written. -/
def execView (ch : ChanId) (off n : Nat) (s : State) : Result :=
  withChan ch s fun c => withView ch c off n fun bs => .next ((s.setChan ch c.look).note (.viewed ch off bs))

end Sys2Proof.Machine
end

