-- ==== Sys2Proof/Machine/Dispatch.lean ====
section
/-! DEFINITION. One arm per constructor of Instr, each a direct call of its meaning. -/
namespace Sys2Proof.Machine

def exec (i : Instr) (s : State) : Host.Outcome State Fault Refusal :=
  match i with
  | .push ch b => Sys2Proof.Machine.execPush ch b s
  | .hasData ch => Sys2Proof.Machine.execHasData ch s
  | .pop ch => Sys2Proof.Machine.execPop ch s
  | .peek ch => Sys2Proof.Machine.execPeek ch s
  | .stepback ch => Sys2Proof.Machine.execStepback ch s
  | .view ch off n => Sys2Proof.Machine.execView ch off n s
  | .decStep dec => Sys2Proof.Machine.execDecStep dec s
  | .decAwaitMagic1 dec => Sys2Proof.Machine.execDecAwaitMagic1 dec s
  | .decAwaitMagic2 dec => Sys2Proof.Machine.execDecAwaitMagic2 dec s
  | .decAwaitMagic3 dec => Sys2Proof.Machine.execDecAwaitMagic3 dec s
  | .decAwaitMagic4 dec => Sys2Proof.Machine.execDecAwaitMagic4 dec s
  | .decReadLength dec => Sys2Proof.Machine.execDecReadLength dec s
  | .decReadToken dec => Sys2Proof.Machine.execDecReadToken dec s
  | .decPayload dec => Sys2Proof.Machine.execDecPayload dec s
  | .decChecksum dec => Sys2Proof.Machine.execDecChecksum dec s
  | .dispatch dec off n => Sys2Proof.Machine.execDispatch dec off n s
  | .decRun dec => Sys2Proof.Machine.execDecRun dec s
  | .encode enc p => Sys2Proof.Machine.execEncode enc p s
  | .feedPc b => Sys2Proof.Machine.execFeedPc b s
  | .feedRadio b => Sys2Proof.Machine.execFeedRadio b s
  | .tick => Sys2Proof.Machine.execTick s
  | .reset => Sys2Proof.Machine.execReset s
  | .frame ch p => Sys2Proof.Machine.execFrame ch p s
  | .frameReferenceHeader n => Sys2Proof.Machine.execFrameReferenceHeader n s
  | .cmdGetAlive => Sys2Proof.Machine.execCmdGetAlive s
  | .cmdAcknowledge => Sys2Proof.Machine.execCmdAcknowledge s
  | .cmdStartConfig => Sys2Proof.Machine.execCmdStartConfig s
  | .cmdUnknown raw => Sys2Proof.Machine.execCmdUnknown raw s

end Sys2Proof.Machine
end

