-- ==== Sys2Proof/Machine/Agents.lean ====
section
/-! DEFINITION. A run is a sequence of events of independent agents in any order (spec/20_memory.md R60): the order is the
list `State.input`, which stands for the outside (log 7). The polling agent's operations of several events (ENCODE,
DEC_RUN, TICK and the answer to a dispatch or a command) can also be run event by event, with events of other agents between
(log 8). -/
namespace Sys2Proof.Machine

/-- The next PUSH of an ENCODE under way (R180, R184). -/
def pushNext (enc : Nat) : List Byte → Byte → State → Result
  | [], cks, s => pushRun enc [] cks s
  | x :: xs, cks, s =>
    andThen (pushEvent ⟨enc, .outbound⟩ x s) fun t =>
      .next { t with tasks := .pushing enc xs (cks ^^^ x) :: t.tasks }

/-- The raised dispatch is answered event by event: the replies are what the polling agent does next (R209). -/
def deliverNext (s : State) : Result :=
  match s.raised with
  | none => .next s
  | some d =>
    .next { s with raised := none, tasks := (answerOf s.params d s.responder).map .reply ++ s.tasks }

/-- The next event of a DEC_RUN under way (R151): a dispatch that stands is answered first (R209); then a DEC_STEP while
there is data, and the run stays under way. On an empty channel the run ends. -/
def decRunNext (l : Nat) (s : State) : Result :=
  match s.raised with
  | some _ => deliverNext { s with tasks := .decRun l :: s.tasks }
  | none =>
    withLink l s fun k =>
      if k.inCh.hasData then andThen (decStepOn l s) fun t => .next { t with tasks := .decRun l :: t.tasks }
      else .next (s.setChan ⟨l, .inbound⟩ k.inCh.look)

/-- The first PUSH of an ENCODE, or the fault that pushes nothing (R182). -/
def encodeNext (enc : Nat) (p : List Byte) (s : State) : Result :=
  withLink enc s fun _ =>
    if s.params.encMax < p.length then .fault (.encodeTooLong p.length) else pushNext enc (frameBody s.params p) 0 s

/-- One event of a task, the tasks after it standing in the state. -/
def runTask : Task → State → Result
  | .reply (.encode enc p), s => encodeNext enc p s
  | .reply (.copyRecord l off), s => copyRecord l off s
  | .pushing enc rest cks, s => pushNext enc rest cks s
  | .decRun l, s => decRunNext l s
  | .deliver, s => deliverNext s

/-- The polling agent's next event of the operation it is inside; with none, nothing happens. -/
def pollNext (s : State) : Result :=
  match s.tasks with
  | [] => .next s
  | t :: ts => runTask t { s with tasks := ts }

/-- The replies to a command become what the polling agent does next. -/
def queueReplies (rs : List Reply) (s : State) : Result := .next { s with tasks := rs.map .reply ++ s.tasks }

/-- The polling agent enters an operation of several events and will run it event by event. Every other instruction is
one event and happens at once (R60). -/
def beginOperation (i : Instr) (s : State) : Result :=
  match i with
  | .encode enc p => withLink enc s fun _ => .next { s with tasks := .reply (.encode enc p) :: s.tasks }
  | .decRun dec => withLink dec s fun _ => .next { s with tasks := .decRun dec :: s.tasks }
  | .tick => .next { s with tasks := (List.range s.links.length).map .decRun ++ s.tasks }
  | .dispatch dec off n => withRaised dec off n s (.next { s with tasks := .deliver :: s.tasks })
  | .cmdGetAlive => withCommand .getAlive s queueReplies
  | .cmdAcknowledge => withCommand .acknowledge s queueReplies
  | .cmdStartConfig => withCommand .startConfig s queueReplies
  | .cmdUnknown raw => withCommand (.unknown raw) s queueReplies
  | .push _ _ | .hasData _ | .pop _ | .peek _ | .stepback _ | .view _ _ _ | .decStep _ | .decAwaitMagic1 _
  | .decAwaitMagic2 _ | .decAwaitMagic3 _ | .decAwaitMagic4 _ | .decReadLength _ | .decReadToken _ | .decPayload _
  | .decChecksum _ | .feedPc _ | .feedRadio _ | .reset | .frame _ _ | .frameReferenceHeader _ => exec i s

/-- Whether an agent may perform an instruction now: after RESET, or the RESET itself (R267), and in its role (R246,
R247). The refusal otherwise. -/
def admission (a : Agent) (i : Instr) (s : State) : Option Refusal :=
  if i.wf s.params = false then some .illFormed
  else if s.booted = false ∧ i ≠ .reset then some .beforeReset
  else if performer i = a then none
  else some (.roleViolation a)

/-- Decode an event's code, admit it, and give the instruction to `run`. -/
def runCode (a : Agent) (code : List Byte) (s : State) (run : Instr → State → Result) : Result :=
  match decode s.params code with
  | .rejected e => .refused (.undecodable e)
  | .instr i =>
    match admission a i s with
    | some r => .refused r
    | none => run i s

/-- The polling agent is inside an operation, so an event of its own waits: events of one agent keep their order
(R60). -/
def pollBusy (a : Agent) (s : State) : Bool := decide (a = .poll) && !s.tasks.isEmpty

/-- One step of a run: the head of the schedule happens, and an event of the polling agent that must wait gives its place
to the operation it waits for. With an empty schedule the polling agent goes on with what it is inside, if anything.
DESIGN CHOICE (log 27): a dispatch that stands (`State.raised`) does not by itself make the polling agent busy, so events of
its own other than a DEC_STEP (a raw PUSH, POP, STEPBACK, an ENCODE) may come between the DEC_STEP that raised it and its answer;
R209 says only that the answer comes before the next DEC_STEP. -/
def runNext (s : State) : Result :=
  match s.input with
  | [] => pollNext s
  | .poll :: rest => pollNext { s with input := rest }
  | .event a code :: rest =>
    if pollBusy a s then pollNext s else runCode a code { s with input := rest } exec
  | .begin code :: rest =>
    if pollBusy .poll s then pollNext s else runCode .poll code { s with input := rest } beginOperation

/-- `s` with an instruction placed where the next step takes it: RESET has happened, the polling agent is inside no
operation, and the instruction's one permitted agent performs it next. -/
def State.withNextEvent (s : State) (i : Instr) (code : List Byte) : State :=
  { s with booted := true, tasks := [], input := .event (performer i) code :: s.input }

end Sys2Proof.Machine
end

