-- ==== Sys2Proof/Machine/Step.lean ====
section
/-! DEFINITION. One step of the machine, and an instruction placed for the next step. -/
namespace Sys2Proof.Machine

/-- One step (spec/20_memory.md R60; see `runNext`). -/
def step (s : State) : Host.Outcome State Fault Refusal := runNext s

/-- `s` with the instruction whose bits are `w` (see `tableCode`) as the event of the next step; a number that is no
instruction's code is placed as it stands. -/
def State.withFetchWord (s : State) (nbits w : Nat) : State :=
  match tableCode nbits w with
  | some (i, code) => s.withNextEvent i code
  | none => { s with booted := true, tasks := [], input := .event .poll (lowBytes ((nbits + 7) / 8) w) :: s.input }

end Sys2Proof.Machine
end

