-- ==== Sys2Proof/Machine/Ports.lean ====
section
/-! DEFINITION. The signals a register-transfer realisation may have (spec/10_state.md R38), as functions of the state.
They are informative and add nothing to the semantics; the input signals are the events themselves. There is no full,
no overflow and no frame_error signal (R22). -/
namespace Sys2Proof.Machine

/-- `rd_data`: the byte a PEEK would give, while there is one. -/
def Chan.portRdData (c : Chan) : Option Byte := if c.hasData then c.slot? c.rd else none

/-- `view_data` for a slot index `view_addr`. -/
def Chan.portViewData (c : Chan) (viewAddr : Nat) : Option Byte := c.slot? viewAddr

/-- `frame_valid` of a link's decoder: its DISPATCH stands, unanswered. -/
def State.portFrameValid (s : State) (l : Nat) : Bool :=
  match s.raised with
  | some d => decide (d.link = l)
  | none => false

/-- `frame_start` and `frame_len` of a link's decoder at its DISPATCH. -/
def State.portFrame (s : State) (l : Nat) : Option (Nat × Byte) :=
  match s.raised with
  | some d => if d.link = l then some (d.off, d.n) else none
  | none => none

/-- `enc_done` at the event that leads from `s` to `t`: the checksum byte of this encoder has been pushed. No label E1 to E4
has a part in it (spec/60_exceptions.md R231). -/
def State.portEncDone (s t : State) (enc : Nat) : Bool :=
  decide (s.trace.count (.encodeDone enc) < t.trace.count (.encodeDone enc))

end Sys2Proof.Machine
end

