-- ==== Sys2Proof/Safety.lean ====
section
/-! DEFINITION. The terms claims are stated in: the invariant of a run (spec/10_state.md R33 and what the rules entail),
the history of a channel (spec/70_reset_and_hazards.md R271), and what an event leaves unchanged. -/
namespace Sys2Proof.Machine

/-! ### The invariant -/

/-- A channel that started with both cursors at `c0` (R17, R33.1, R238): cursors follow the ghost counters, nothing is
consumed that was not pushed, memory is canonical, and a slot has a value exactly if a PUSH since reset reached it. -/
structure Chan.Wf (c0 : Nat) (c : Chan) : Prop where
  two_le : 2 ≤ c.cap
  start_lt : c0 < c.cap
  wr_eq : c.wr = (c0 + c.pushed) % c.cap
  rd_eq : c.rd = (c0 + c.consumed) % c.cap
  consumed_le : c.consumed ≤ c.pushed
  read_once : c.justRead = true → 1 ≤ c.consumed
  canonical : Memory.wf c.mem
  written : ∀ a, (c.slot? a).isSome ↔ ∃ j, j < c.pushed ∧ a = (c0 + j) % c.cap

/-- A frame's length and token have been matched or are being matched: READ_TOKEN and READ_PAYLOAD (R33.4). -/
def Dec.pastLength (d : Dec) : Prop := d.st = .readToken ∨ d.st = .readPayload

/-- A decoder whose inbound channel has `cap` slots (R33.2 to R33.4). The ghosts `taken` and `lenSlot` are R33's `p` and
"slot of this frame's length byte" (log 26). -/
structure Dec.Wf (p : Params) (cap : Nat) (d : Dec) : Prop where
  start_lt : d.startOff < cap
  remaining_le : d.st = .readPayload → d.remaining.toNat ≤ d.len.toNat
  taken_length : d.st = .readPayload → d.taken.length = d.len.toNat - d.remaining.toNat
  acc_eq : d.st = .readPayload → d.acc = xorBytes (p.magic.bytes ++ [d.len, p.token] ++ d.taken)
  lenSlot_lt : d.pastLength → d.lenSlot < cap
  start_eq : d.pastLength → d.startOff = (d.lenSlot + 2) % cap

/-- Both channels and the decoder of a link. -/
structure Link.Wf (p : Params) (k : Link) : Prop where
  inbound : k.inCh.Wf p.c0
  decoder : k.dec.Wf p k.inCh.cap
  outbound : k.outCh.Wf p.c0

/-- A standing dispatch names a link, an existing slot, and a payload of its length (R150). -/
structure Dispatch.Wf (s : State) (d : Dispatch) : Prop where
  start_lt : ∃ k, s.links[d.link]? = some k ∧ d.off < k.inCh.cap
  length_eq : d.payload.length = d.n.toNat

/-- The invariant of a run. -/
structure State.Inv (s : State) : Prop where
  encMax_le : s.params.encMax ≤ 255
  links_wf : ∀ (l : Nat) (k : Link), s.links[l]? = some k → k.Wf s.params
  raised_wf : ∀ d, s.raised = some d → d.Wf s

/-- The payload bytes that the decoder has taken of the frame under way came off the channel after its length byte, which
was push number `j`: so every slot of a payload that is dispatched has been pushed. Kept by every event but a raw STEPBACK
on the inbound channel, which R116 allows after a consuming DEC_STEP too. -/
structure Dec.Ahead (c0 : Nat) (c : Chan) (d : Dec) : Prop where
  token : d.st = .readToken → ∃ j, d.startOff = (c0 + j + 2) % c.cap ∧ j + 1 ≤ c.consumed
  payload : d.st = .readPayload → ∃ j, d.startOff = (c0 + j + 2) % c.cap ∧ j + 2 + d.taken.length ≤ c.consumed

/-- Every decoder is so. -/
def State.Ahead (s : State) : Prop :=
  ∀ (l : Nat) (k : Link), s.links[l]? = some k → k.dec.Ahead s.params.c0 k.inCh

/-! ### The history of a channel -/

/-- The store holds the last `C` bytes of `hist`, the list of all bytes pushed since reset, oldest first: push number `j`
went to slot `(c0 + j) mod C` and stands there until push number `j + C` (R25, R36). -/
structure Chan.Holds (c0 : Nat) (c : Chan) (hist : List Byte) : Prop where
  length_eq : hist.length = c.pushed
  slot_eq : ∀ j, j < c.pushed → c.pushed ≤ j + c.cap → c.slot? ((c0 + j) % c.cap) = hist[j]?

/-- Every slot of the channel has a value. -/
def Chan.AllWritten (c : Chan) : Prop := ∀ a, a < c.cap → (c.slot? a).isSome

/-- The channel as the spec has it: without the model's own record of the latest consumer event (log 16). -/
def Chan.block (c : Chan) : Chan := { c with justRead := false }

/-- The decoder's registers R26 to R30: without the two ghosts of R33 (log 26). -/
def Dec.block (d : Dec) : Dec := { d with lenSlot := 0, taken := [] }

/-- A channel after a list of PUSHes (R110). -/
def Chan.pushBytes (c : Chan) (bs : List Byte) : Chan := bs.foldl Chan.pushByte c

/-! ### What an event leaves unchanged -/

/-- Everything around the links is as before, the raised dispatch and the trace apart. -/
def SameAround (s t : State) : Prop :=
  t.params = s.params ∧ t.booted = s.booted ∧ t.responder = s.responder ∧ t.record = s.record ∧ t.tasks = s.tasks ∧
    t.input = s.input

/-- No channel but `ch`, no decoder, and nothing around the links but the trace has changed. -/
def OnlyChannel (ch : ChanId) (s t : State) : Prop :=
  SameAround s t ∧ t.raised = s.raised ∧ (∀ l, t.dec? l = s.dec? l) ∧ ∀ o, o ≠ ch → t.chan? o = s.chan? o

/-- No slot of any channel has changed. -/
def SameSlots (s t : State) : Prop := ∀ ch a, t.slot? ch a = s.slot? ch a

/-- No link but `l` has changed. -/
def OnlyLink (l : Nat) (s t : State) : Prop := ∀ j, j ≠ l → t.links[j]? = s.links[j]?

/-- The decoder of link `l`, whose link is `k`, examines byte `b` next: its channel shows data and `b` is the oldest unread
byte (R140). No dispatch waits for its answer: with one waiting, the answer comes first (R209). -/
def Examines (s : State) (l : Nat) (k : Link) (b : Byte) : Prop :=
  s.raised = none ∧ s.links[l]? = some k ∧ k.inCh.rd ≠ k.inCh.wr ∧ k.inCh.slot? k.inCh.rd = some b

/-- What a DEC_STEP on link `l` leaves when its registers become `d` and its byte is consumed or not (R140): the read
cursor moved or not, no slot changed, no other link, nothing around the links but the raised dispatch and the trace. -/
def SteppedTo (s t : State) (l : Nat) (k : Link) (consumed : Bool) (d : Dec) : Prop :=
  (∃ k', t.links[l]? = some k' ∧ k'.dec.block = d.block ∧ k'.outCh = k.outCh ∧
      k'.inCh.block =
        (if consumed then
          { k.inCh with rd := (k.inCh.rd + 1) % k.inCh.cap, consumed := k.inCh.consumed + 1 }
        else k.inCh).block) ∧
    OnlyLink l s t ∧ SameSlots s t ∧ SameAround s t

/-- What one PUSH of `b` on the channel `ch`, whose state is `c`, leaves (R110): the byte in the slot at `wr`, the write
cursor advanced, nothing else; the label E4 exactly at the overrun PUSH (R235). -/
def PushedOnto (ch : ChanId) (b : Byte) (c : Chan) (s t : State) : Prop :=
  t.chan? ch = some { c with
      mem := Memory.write c.mem c.wr b
      wr := (c.wr + 1) % c.cap
      pushed := c.pushed + 1 } ∧
    t.slot? ch c.wr = some b ∧ (∀ a, a ≠ c.wr → t.slot? ch a = s.slot? ch a) ∧ OnlyChannel ch s t ∧
    t.trace = (if c.occ + 1 = c.cap then [.overrun ch] else []) ++ s.trace

/-- A link whose DEC_RUN reads no unwritten slot: its channel is empty, or has a value in every slot, or the decoder is as
every run without a raw inbound STEPBACK leaves it. -/
def Link.Drainable (c0 : Nat) (k : Link) : Prop :=
  k.inCh.rd = k.inCh.wr ∨ k.inCh.AllWritten ∨ k.dec.Ahead c0 k.inCh

/-! ### The collaborator -/

/-- A reply that cannot fail: an ENCODE within `ENC_MAX` on a link that is there (assumption (a) of R208), or a copy of the
record out of a channel that has a value in each of its slots and is no smaller than the record (R212, R238). -/
def Reply.Fits (s : State) : Reply → Prop
  | .encode enc p => enc < s.links.length ∧ p.length ≤ s.params.encMax
  | .copyRecord l _ => ∃ k, s.links[l]? = some k ∧ s.params.recordSize ≤ k.inCh.cap ∧ k.inCh.AllWritten

/-- Whatever it is asked, the collaborator replies only so. -/
def State.Responsive (s : State) : Prop :=
  ∀ d : Dispatch, d.link < s.links.length → ∀ r ∈ answerOf s.params d s.responder, r.Fits s

/-- The collaborator answers nothing to any dispatch. -/
def State.Silent (s : State) : Prop := ∀ d : Dispatch, answerOf s.params d s.responder = []

/-- A label that the answer to a dispatch adds to the trace: the end of an ENCODE, or an overrun of an outbound channel. -/
def Label.OfAnswer (x : Label) : Prop := (∃ e, x = .encodeDone e) ∨ ∃ l, x = .overrun ⟨l, .outbound⟩

/-- What decoding and answering leave unchanged: the parameters, the collaborator, the agents' tasks and schedule, every
slot of every inbound channel; outbound channels have at most had bytes pushed. -/
structure OnlyAnswers (s t : State) : Prop where
  params_eq : t.params = s.params
  booted_eq : t.booted = s.booted
  responder_eq : t.responder = s.responder
  tasks_eq : t.tasks = s.tasks
  input_eq : t.input = s.input
  length_eq : t.links.length = s.links.length
  slot_eq : ∀ l a, t.slot? ⟨l, .inbound⟩ a = s.slot? ⟨l, .inbound⟩ a
  outbound : ∀ l c, s.chan? ⟨l, .outbound⟩ = some c → ∃ bs, t.chan? ⟨l, .outbound⟩ = some (c.pushBytes bs)

/-! ### Operations -/

/-- The operations of the polling agent that are several events and can be run event by event (R60). Every other
instruction is performed at once. -/
def isOperation : Instr → Bool
  | .encode _ _ | .decRun _ | .tick | .dispatch _ _ _ | .cmdGetAlive | .cmdAcknowledge | .cmdStartConfig
  | .cmdUnknown _ => true
  | .push _ _ | .hasData _ | .pop _ | .peek _ | .stepback _ | .view _ _ _ | .decStep _ | .decAwaitMagic1 _
  | .decAwaitMagic2 _ | .decAwaitMagic3 _ | .decAwaitMagic4 _ | .decReadLength _ | .decReadToken _ | .decPayload _
  | .decChecksum _ | .feedPc _ | .feedRadio _ | .reset | .frame _ _ | .frameReferenceHeader _ => false

/-- DEC_STEP on link `l`, whole and by each of its rows (R140). -/
def decStepRows (l : Nat) : List Instr :=
  [.decStep l, .decAwaitMagic1 l, .decAwaitMagic2 l, .decAwaitMagic3 l, .decAwaitMagic4 l, .decReadLength l,
   .decReadToken l, .decPayload l, .decChecksum l]

/-- Slot `a` is one of the `n` slots that `n` PUSHes on `c` write. -/
def Chan.Stores (c : Chan) (n a : Nat) : Prop := ∃ i, i < n ∧ a = (c.wr + i) % c.cap

end Sys2Proof.Machine
end

