-- ==== Sys2Proof/Certificates/Slice0/Obligations.lean ====
section
/-! DEFINITION. The statements for the provers. A statement about every state quantifies over every value of the
parameters too: they are data of the state. -/
open Sys2Proof Sys2Proof.Machine

/-! ### RingChannel (spec/40_ringchannel_ops.md) -/

/-- R110: PUSH never fails: it stores at `wr` and advances `wr`, on every channel that exists, in every state. -/
def Obligations.PushStoresByteAndAdvances : Prop :=
  ∀ (s : State) (ch : ChanId) (b : Byte) (c : Chan), s.chan? ch = some c →
    ∃ t, exec (.push ch b) s = .next t ∧ PushedOnto ch b c s t

/-- R201, R202: FEED_PC is a PUSH on `pc_in` and FEED_RADIO a PUSH on `radio_in`. -/
def Obligations.FeedsPushOnInboundChannels : Prop :=
  ∀ (s : State) (b : Byte) (c : Chan),
    (s.chan? ChanId.pcIn = some c → ∃ t, exec (.feedPc b) s = .next t ∧ PushedOnto ChanId.pcIn b c s t) ∧
    (s.chan? ChanId.radioIn = some c → ∃ t, exec (.feedRadio b) s = .next t ∧ PushedOnto ChanId.radioIn b c s t)

/-- R111: HAS_DATA answers whether the cursors differ and writes nothing of the block. -/
def Obligations.HasDataComparesCursors : Prop :=
  ∀ (s : State) (ch : ChanId) (c : Chan), s.chan? ch = some c →
    ∃ t, exec (.hasData ch) s = .next t ∧ (t.chan? ch).map Chan.block = some c.block ∧ OnlyChannel ch s t ∧
      SameSlots s t ∧ t.trace = .hasData ch (decide (c.rd ≠ c.wr)) :: s.trace

/-- R112: POP on a channel with data answers the byte at `rd` and advances `rd`, and no slot is written; on an empty one it
is the fault `PopEmpty`. -/
def Obligations.PopReturnsOldestByte : Prop :=
  ∀ (s : State) (ch : ChanId) (c : Chan), s.chan? ch = some c →
    (c.rd = c.wr → exec (.pop ch) s = .fault (.popEmpty ch)) ∧
    ∀ b, c.rd ≠ c.wr → c.slot? c.rd = some b → ∃ t, exec (.pop ch) s = .next t ∧
      (t.chan? ch).map Chan.block = some { c with rd := (c.rd + 1) % c.cap, consumed := c.consumed + 1 }.block ∧
      OnlyChannel ch s t ∧ SameSlots s t ∧ t.trace = .popped ch b :: s.trace

/-- R114: POP, PEEK and DEC_STEP (whole or by the sub-case row that the state selects) on an empty channel are the fault
`PopEmpty`. -/
def Obligations.EmptyChannelFaults : Prop :=
  ∀ (s : State) (ch : ChanId) (c : Chan), s.chan? ch = some c → c.rd = c.wr →
    exec (.pop ch) s = .fault (.popEmpty ch) ∧ exec (.peek ch) s = .fault (.popEmpty ch) ∧
      ∀ (l : Nat) (k : Link), ch = ⟨l, .inbound⟩ → s.links[l]? = some k →
        exec (.decStep l) s = .fault (.popEmpty ch) ∧
        (k.dec.st = .awaitMagic1 → exec (.decAwaitMagic1 l) s = .fault (.popEmpty ch)) ∧
        (k.dec.st = .awaitMagic2 → exec (.decAwaitMagic2 l) s = .fault (.popEmpty ch)) ∧
        (k.dec.st = .awaitMagic3 → exec (.decAwaitMagic3 l) s = .fault (.popEmpty ch)) ∧
        (k.dec.st = .awaitMagic4 → exec (.decAwaitMagic4 l) s = .fault (.popEmpty ch)) ∧
        (k.dec.st = .readLength → exec (.decReadLength l) s = .fault (.popEmpty ch)) ∧
        (k.dec.st = .readToken → exec (.decReadToken l) s = .fault (.popEmpty ch)) ∧
        (k.dec.st = .readPayload → k.dec.remaining ≠ 0 → exec (.decPayload l) s = .fault (.popEmpty ch)) ∧
        (k.dec.st = .readPayload → k.dec.remaining = 0 → exec (.decChecksum l) s = .fault (.popEmpty ch))

/-- R115: PEEK answers the byte at `rd` and changes no cursor and no slot; on an empty channel it is the fault
`PopEmpty`. -/
def Obligations.PeekKeepsTheByte : Prop :=
  ∀ (s : State) (ch : ChanId) (c : Chan), s.chan? ch = some c →
    (c.rd = c.wr → exec (.peek ch) s = .fault (.popEmpty ch)) ∧
    ∀ b, c.rd ≠ c.wr → c.slot? c.rd = some b → ∃ t, exec (.peek ch) s = .next t ∧
      (t.chan? ch).map Chan.block = some c.block ∧ OnlyChannel ch s t ∧ SameSlots s t ∧
      t.trace = .peeked ch b :: s.trace

/-- R116: STEPBACK straight after a consuming read moves `rd` back by one, from 0 to `C - 1`; otherwise it is
refused. That the model keeps a record of the latest consumer event, and counts the ghost `R` back, is log 16. -/
def Obligations.StepbackUnconsumes : Prop :=
  ∀ (s : State) (ch : ChanId) (c : Chan), s.chan? ch = some c → c.rd < c.cap →
    (c.justRead = true → ∃ t, exec (.stepback ch) s = .next t ∧
      t.chan? ch = some { c with
        rd := if c.rd = 0 then c.cap - 1 else c.rd - 1
        consumed := c.consumed - 1
        justRead := false } ∧
      OnlyChannel ch s t ∧ SameSlots s t ∧ t.trace = s.trace) ∧
    (c.justRead = false → exec (.stepback ch) s = .refused (.strayStepback ch))

/-- The model's own records (logs 16 and 26): the one of R116 says of every consumer event whether it consumed, and no PUSH
changes it; the ghosts of R33 are the slot of the length byte and the payload bytes taken since the token. -/
def Obligations.RecordFollowsTheConsumer : Prop :=
  ∀ (s t : State) (ch : ChanId) (c c' : Chan), s.chan? ch = some c → t.chan? ch = some c' →
    (exec (.pop ch) s = .next t → c'.justRead = true) ∧
    (∀ i, (i = .hasData ch ∨ i = .peek ch ∨ i = .stepback ch ∨ ∃ off n, i = .view ch off n) →
      exec i s = .next t → c'.justRead = false) ∧
    (∀ b, exec (.push ch b) s = .next t → c'.justRead = c.justRead) ∧
    (ch.dir = .inbound → exec (.decStep ch.link) s = .next t → (c'.justRead = true ↔ c'.consumed ≠ c.consumed) ∧
      ∀ d d' b, s.dec? ch.link = some d → t.dec? ch.link = some d' → c.slot? c.rd = some b →
        d'.lenSlot = (if d.st = .readLength then c.rd else d.lenSlot) ∧
        d'.taken =
          (if d.st = .readToken ∧ b = s.params.token then []
          else if d.st = .readPayload ∧ d.remaining ≠ 0 then d.taken ++ [b]
          else d.taken))

/-- R117: a POP and a STEPBACK after it leave what a PEEK leaves. -/
def Obligations.PopThenStepbackIsPeek : Prop :=
  ∀ (s : State) (ch : ChanId) (c : Chan) (b : Byte),
    s.chan? ch = some c → c.rd < c.cap → c.rd ≠ c.wr → c.slot? c.rd = some b →
    ∃ t u, andThen (exec (.pop ch) s) (exec (.stepback ch)) = .next t ∧ exec (.peek ch) s = .next u ∧
      t.links = u.links

/-- R118: VIEW answers the slots `(off + i) mod C` in order and moves no cursor; more than `C` bytes is the fault
`ViewTooLong`, a slot never pushed the fault `ReadUnwritten`. -/
def Obligations.ViewReadsSlotsModuloCapacity : Prop :=
  ∀ (s : State) (ch : ChanId) (c : Chan) (off n : Nat), s.chan? ch = some c → off < c.cap →
    (∀ bs : List Byte, n ≤ c.cap → bs.length = n → (∀ i, i < n → c.slot? ((off + i) % c.cap) = bs[i]?) →
      ∃ t, exec (.view ch off n) s = .next t ∧ (t.chan? ch).map Chan.block = some c.block ∧
        OnlyChannel ch s t ∧ SameSlots s t ∧ t.trace = .viewed ch off bs :: s.trace) ∧
    (c.cap < n → exec (.view ch off n) s = .fault (.viewTooLong ch n)) ∧
    (∀ i, n ≤ c.cap → i < n → c.slot? ((off + i) % c.cap) = none →
      (∀ j, j < i → (c.slot? ((off + j) % c.cap)).isSome) →
      exec (.view ch off n) s = .fault (.readUnwritten ch ((off + i) % c.cap)))

/-- R119: a VIEW that passes the physical end answers the chunk up to the end followed by the chunk from slot 0; one that
stays within it, the end included, answers one chunk. -/
def Obligations.ViewIsTwoChunkCopy : Prop :=
  ∀ (s : State) (ch : ChanId) (c : Chan) (off n : Nat) (first second : List Byte),
    s.chan? ch = some c → off < c.cap → n ≤ c.cap →
    (∀ i, i < first.length → c.slot? (off + i) = first[i]?) →
    (c.cap < off + n → first.length = c.cap - off → second.length = off + n - c.cap →
      (∀ i, i < off + n - c.cap → c.slot? i = second[i]?) →
      ∃ t, exec (.view ch off n) s = .next t ∧ t.trace = .viewed ch off (first ++ second) :: s.trace) ∧
    (off + n ≤ c.cap → first.length = n →
      ∃ t, exec (.view ch off n) s = .next t ∧ t.trace = .viewed ch off first :: s.trace)

/-- R120 laws 2 and 3, R271: a PUSH appends its byte to the visible contents, but the overrun PUSH empties them. -/
def Obligations.PushAppendsOrEmptiesContents : Prop :=
  ∀ (s : State) (ch : ChanId) (c : Chan) (b : Byte), s.chan? ch = some c → c.Wf s.params.c0 →
    ∃ t c', exec (.push ch b) s = .next t ∧ t.chan? ch = some c' ∧
      c'.contents = (if c.occ + 1 = c.cap then [] else c.contents ++ [b])

/-- R120 law 4: a POP answers the first of the visible contents and leaves the rest. -/
def Obligations.PopTakesFirstOfContents : Prop :=
  ∀ (s : State) (ch : ChanId) (c : Chan) (b : Byte) (rest : List Byte),
    s.chan? ch = some c → c.Wf s.params.c0 → c.contents = b :: rest →
    ∃ t c', exec (.pop ch) s = .next t ∧ t.chan? ch = some c' ∧ c'.contents = rest ∧
      t.trace = .popped ch b :: s.trace

/-- R271: the visible contents are the latest `(W - R) mod C` bytes pushed, in push order, whatever was overrun. -/
def Obligations.ContentsAreTheLatestPushes : Prop :=
  ∀ (c0 : Nat) (c : Chan) (hist : List Byte), c.Wf c0 → c.Holds c0 hist →
    c.contents = hist.drop (hist.length - (c.pushed - c.consumed) % c.cap)

/-- R64, R113: while the true backlog is below `C`, consumption number `R`, by POP or by DEC_STEP, takes the byte of push
number `R`, and a PEEK shows it. -/
def Obligations.PopReturnsThePushedByte : Prop :=
  ∀ (s t : State) (ch : ChanId) (c : Chan) (hist : List Byte),
    s.chan? ch = some c → c.Wf s.params.c0 → c.Holds s.params.c0 hist → c.pushed < c.consumed + c.cap →
    (exec (.pop ch) s = .next t → ∃ b, hist[c.consumed]? = some b ∧ t.trace = .popped ch b :: s.trace) ∧
    (exec (.peek ch) s = .next t → ∃ b, hist[c.consumed]? = some b ∧ t.trace = .peeked ch b :: s.trace) ∧
    (ch.dir = .inbound → ∀ i ∈ decStepRows ch.link, exec i s = .next t →
      ∃ b, hist[c.consumed]? = some b ∧ c.rd ≠ c.wr ∧ c.slot? c.rd = some b)

/-- R271: the history that R271 speaks of grows by the byte of each PUSH and is kept by every event of the channel's consumer
(R246). -/
def Obligations.EventsExtendOrKeepHistory : Prop :=
  ∀ (s t : State) (ch : ChanId) (c : Chan) (hist : List Byte),
    s.chan? ch = some c → c.Wf s.params.c0 → c.Holds s.params.c0 hist →
    (∀ b, exec (.push ch b) s = .next t → ∃ c', t.chan? ch = some c' ∧ c'.Holds s.params.c0 (hist ++ [b])) ∧
    (∀ i, i = .hasData ch ∨ i = .pop ch ∨ i = .peek ch ∨ i = .stepback ch ∨ (∃ off n, i = .view ch off n) ∨
        (ch.dir = .inbound ∧ (i ∈ decStepRows ch.link ∨ i = .decRun ch.link)) →
      exec i s = .next t → ∃ c', t.chan? ch = some c' ∧ c'.Holds s.params.c0 hist)

/-- R66: away from the two boundaries a PUSH and a POP on one channel give the same in either order. -/
def Obligations.PushAndPopCommute : Prop :=
  ∀ (s : State) (ch : ChanId) (c : Chan) (b : Byte),
    s.chan? ch = some c → c.Wf s.params.c0 → 0 < c.occ → c.occ + 1 < c.cap →
    ∃ t, andThen (exec (.push ch b) s) (exec (.pop ch)) = .next t ∧
      andThen (exec (.pop ch) s) (exec (.push ch b)) = .next t

/-- R66 case 2, R110 corner (b): after a PUSH at `occ == C - 1` the channel reads as empty and a POP faults. -/
def Obligations.OverrunThenPopFaults : Prop :=
  ∀ (s : State) (ch : ChanId) (c : Chan) (b : Byte),
    s.chan? ch = some c → c.Wf s.params.c0 → c.occ + 1 = c.cap →
    andThen (exec (.push ch b) s) (exec (.pop ch)) = .fault (.popEmpty ch)

/-- R36, R275: the byte of push number `j` stays in its slot until push number `j + C`. -/
def Obligations.PushedByteStaysForCapacityPushes : Prop :=
  ∀ (s t : State) (ch : ChanId) (c : Chan) (bs : List Byte) (j : Nat),
    s.chan? ch = some c → c.Wf s.params.c0 → pushAll ch bs s = .next t →
    j < c.pushed → c.pushed + bs.length ≤ j + c.cap →
    t.slot? ch ((s.params.c0 + j) % c.cap) = s.slot? ch ((s.params.c0 + j) % c.cap)

/-! ### The decoder (spec/41_frame_decoder.md). What one DEC_STEP does with its byte is stated where no dispatch waits; with
one waiting, the answer comes first (R209, `WaitingDispatchIsAnsweredFirst`). -/

/-- R141: in AWAIT_MAGIC_1 the byte is consumed in both cases. -/
def Obligations.AwaitMagic1ConsumesEitherWay : Prop :=
  ∀ (s : State) (l : Nat) (k : Link) (b : Byte), Examines s l k b → k.dec.st = .awaitMagic1 →
    ∃ t, exec (.decStep l) s = .next t ∧ exec (.decAwaitMagic1 l) s = .next t ∧ t.raised = none ∧
      (b = s.params.magic.b0 → SteppedTo s t l k true { k.dec with st := .awaitMagic2 } ∧ t.trace = s.trace) ∧
      (b ≠ s.params.magic.b0 → SteppedTo s t l k true k.dec ∧ t.trace = .magicMismatch l 1 b :: s.trace)

/-- R142: in AWAIT_MAGIC_2 a match advances and a mismatching byte is kept for AWAIT_MAGIC_1. -/
def Obligations.AwaitMagic2MatchesOrResyncs : Prop :=
  ∀ (s : State) (l : Nat) (k : Link) (b : Byte), Examines s l k b → k.dec.st = .awaitMagic2 →
    ∃ t, exec (.decStep l) s = .next t ∧ exec (.decAwaitMagic2 l) s = .next t ∧ t.raised = none ∧
      (b = s.params.magic.b1 → SteppedTo s t l k true { k.dec with st := .awaitMagic3 } ∧ t.trace = s.trace) ∧
      (b ≠ s.params.magic.b1 → SteppedTo s t l k false { k.dec with st := .awaitMagic1 } ∧
        t.trace = .magicMismatch l 2 b :: s.trace)

/-- R143: AWAIT_MAGIC_3 likewise. -/
def Obligations.AwaitMagic3MatchesOrResyncs : Prop :=
  ∀ (s : State) (l : Nat) (k : Link) (b : Byte), Examines s l k b → k.dec.st = .awaitMagic3 →
    ∃ t, exec (.decStep l) s = .next t ∧ exec (.decAwaitMagic3 l) s = .next t ∧ t.raised = none ∧
      (b = s.params.magic.b2 → SteppedTo s t l k true { k.dec with st := .awaitMagic4 } ∧ t.trace = s.trace) ∧
      (b ≠ s.params.magic.b2 → SteppedTo s t l k false { k.dec with st := .awaitMagic1 } ∧
        t.trace = .magicMismatch l 3 b :: s.trace)

/-- R144: AWAIT_MAGIC_4 likewise, on to READ_LENGTH. -/
def Obligations.AwaitMagic4MatchesOrResyncs : Prop :=
  ∀ (s : State) (l : Nat) (k : Link) (b : Byte), Examines s l k b → k.dec.st = .awaitMagic4 →
    ∃ t, exec (.decStep l) s = .next t ∧ exec (.decAwaitMagic4 l) s = .next t ∧ t.raised = none ∧
      (b = s.params.magic.b3 → SteppedTo s t l k true { k.dec with st := .readLength } ∧ t.trace = s.trace) ∧
      (b ≠ s.params.magic.b3 → SteppedTo s t l k false { k.dec with st := .awaitMagic1 } ∧
        t.trace = .magicMismatch l 4 b :: s.trace)

/-- R145: READ_LENGTH takes every byte as `len` and records the slot two past it. -/
def Obligations.ReadLengthCapturesLengthAndOffset : Prop :=
  ∀ (s : State) (l : Nat) (k : Link) (b : Byte), Examines s l k b → k.dec.st = .readLength →
    ∃ t, exec (.decStep l) s = .next t ∧ exec (.decReadLength l) s = .next t ∧ t.raised = none ∧
      SteppedTo s t l k true
        { k.dec with len := b, startOff := (k.inCh.rd + 2) % k.inCh.cap, st := .readToken } ∧
      t.trace = s.trace

/-- R146: READ_TOKEN on the token seeds the accumulator and loads `remaining`; another byte is kept. -/
def Obligations.ReadTokenSeedsOrResyncs : Prop :=
  ∀ (s : State) (l : Nat) (k : Link) (b : Byte), Examines s l k b → k.dec.st = .readToken →
    ∃ t, exec (.decStep l) s = .next t ∧ exec (.decReadToken l) s = .next t ∧ t.raised = none ∧
      (b = s.params.token → SteppedTo s t l k true
          { k.dec with
            acc := xorBytes (s.params.magic.bytes ++ [k.dec.len, s.params.token])
            remaining := k.dec.len
            st := .readPayload } ∧
        t.trace = s.trace) ∧
      (b ≠ s.params.token → SteppedTo s t l k false { k.dec with st := .awaitMagic1 } ∧
        t.trace = .tokenMismatch l b :: s.trace)

/-- R148: a payload byte is XORed in and counted, whatever it is. -/
def Obligations.PayloadByteIsAccumulated : Prop :=
  ∀ (s : State) (l : Nat) (k : Link) (b : Byte), Examines s l k b → k.dec.st = .readPayload →
    0 < k.dec.remaining.toNat →
    ∃ t d, exec (.decStep l) s = .next t ∧ exec (.decPayload l) s = .next t ∧ t.raised = none ∧
      SteppedTo s t l k true d ∧ t.trace = s.trace ∧
      d.st = .readPayload ∧ d.acc = k.dec.acc ^^^ b ∧ d.remaining.toNat = k.dec.remaining.toNat - 1 ∧
      d.len = k.dec.len ∧ d.startOff = k.dec.startOff

/-- R149: the checksum byte is consumed either way; equal to `acc` it raises the DISPATCH of R150 with the payload's
slots (for a frame longer than the channel too: log 10), otherwise the frame is dropped. -/
def Obligations.ChecksumByteDispatchesOrDrops : Prop :=
  ∀ (s : State) (l : Nat) (k : Link) (b : Byte), Examines s l k b → k.dec.st = .readPayload → k.dec.remaining = 0 →
    (b ≠ k.dec.acc → ∃ t, exec (.decStep l) s = .next t ∧ exec (.decChecksum l) s = .next t ∧ t.raised = none ∧
      SteppedTo s t l k true { k.dec with st := .awaitMagic1 } ∧
      t.trace = .checksumMismatch l k.dec.acc b :: s.trace) ∧
    (∀ bs : List Byte, b = k.dec.acc → bs.length = k.dec.len.toNat →
      (∀ i, i < k.dec.len.toNat → k.inCh.slot? ((k.dec.startOff + i) % k.inCh.cap) = bs[i]?) →
      ∃ t, exec (.decStep l) s = .next t ∧ exec (.decChecksum l) s = .next t ∧
        t.raised = some ⟨l, k.dec.startOff, k.dec.len, bs⟩ ∧
        SteppedTo s t l k true { k.dec with st := .awaitMagic1 } ∧
        t.trace = .dispatched ⟨l, k.dec.startOff, k.dec.len, bs⟩ :: s.trace)

/-- R140, the model's choice in log 15: a sub-case that the decoder's state does not select is refused. -/
def Obligations.UnselectedCaseIsRefused : Prop :=
  ∀ (s : State) (l : Nat) (k : Link), s.links[l]? = some k →
    (k.dec.st ≠ .awaitMagic1 → exec (.decAwaitMagic1 l) s = .refused (.notSelected l)) ∧
    (k.dec.st ≠ .awaitMagic2 → exec (.decAwaitMagic2 l) s = .refused (.notSelected l)) ∧
    (k.dec.st ≠ .awaitMagic3 → exec (.decAwaitMagic3 l) s = .refused (.notSelected l)) ∧
    (k.dec.st ≠ .awaitMagic4 → exec (.decAwaitMagic4 l) s = .refused (.notSelected l)) ∧
    (k.dec.st ≠ .readLength → exec (.decReadLength l) s = .refused (.notSelected l)) ∧
    (k.dec.st ≠ .readToken → exec (.decReadToken l) s = .refused (.notSelected l)) ∧
    (¬ (k.dec.st = .readPayload ∧ k.dec.remaining ≠ 0) → exec (.decPayload l) s = .refused (.notSelected l)) ∧
    (¬ (k.dec.st = .readPayload ∧ k.dec.remaining = 0) → exec (.decChecksum l) s = .refused (.notSelected l))

/-- R140: the same byte is examined at most twice: a DEC_STEP consumes its byte or goes to AWAIT_MAGIC_1, and one from
AWAIT_MAGIC_1 consumes it. -/
def Obligations.NoByteIsExaminedThrice : Prop :=
  ∀ (s t : State) (l : Nat) (k k' : Link), s.links[l]? = some k → exec (.decStep l) s = .next t →
    t.links[l]? = some k' →
    (k'.inCh.rd = (k.inCh.rd + 1) % k.inCh.cap ∧ k'.inCh.consumed = k.inCh.consumed + 1) ∨
      (k.dec.st ≠ .awaitMagic1 ∧ k'.dec.st = .awaitMagic1 ∧ k'.inCh.rd = k.inCh.rd ∧
        k'.inCh.consumed = k.inCh.consumed)

/-- R150: a DISPATCH is raised only by the checksum byte that equals `acc`, with `start_off`, `len` and the payload's slots
as they stand at the event. -/
def Obligations.RaisedDispatchIsTheFrame : Prop :=
  ∀ (s t : State) (l : Nat) (d : Dispatch), exec (.decStep l) s = .next t → t.raised = some d →
    ∃ k, s.links[l]? = some k ∧ k.dec.st = .readPayload ∧ k.dec.remaining = 0 ∧
      k.inCh.slot? k.inCh.rd = some k.dec.acc ∧ d.link = l ∧ d.off = k.dec.startOff ∧ d.n = k.dec.len ∧
      d.payload.length = d.n.toNat ∧
      ∀ i, i < d.n.toNat → k.inCh.slot? ((d.off + i) % k.inCh.cap) = d.payload[i]?

/-- R151: a DEC_RUN with no event of another agent between examines everything visible: it ends with the channel empty and
no dispatch unanswered, having written no inbound slot, whatever the collaborator answers (R208); a collaborator that
answers nothing leaves all else as it was. -/
def Obligations.DecRunDrainsTheChannel : Prop :=
  ∀ (s : State) (l : Nat) (k : Link),
    s.Inv → s.links[l]? = some k → s.Responsive → k.Drainable s.params.c0 →
    ∃ t k', exec (.decRun l) s = .next t ∧ t.links[l]? = some k' ∧ k'.inCh.rd = k.inCh.wr ∧
      k'.inCh.wr = k.inCh.wr ∧ t.raised = none ∧ OnlyAnswers s t ∧
      (∀ j, j ≠ l → t.dec? j = s.dec? j ∧
        (t.chan? ⟨j, .inbound⟩).map Chan.block = (s.chan? ⟨j, .inbound⟩).map Chan.block) ∧
      (s.Silent → k'.outCh = k.outCh ∧ OnlyLink l s t ∧ SameSlots s t ∧ SameAround s t)

/-- R186: the bytes of a frame, decoded from AWAIT_MAGIC_1, give exactly one DISPATCH with its payload, no error label of the
decoder, all bytes consumed, and AWAIT_MAGIC_1 again, whatever the collaborator answers (R208). `ys` is what the answer to
a dispatch that stood before adds to the trace, `xs` what the answer to this one adds. -/
def Obligations.FrameRoundTrip : Prop :=
  ∀ (s : State) (l : Nat) (k : Link) (p : List Byte),
    s.Inv → s.links[l]? = some k → s.Responsive → k.dec.st = .awaitMagic1 → p.length ≤ 255 →
    k.inCh.contents = frameBytes s.params p →
    ∃ t k' xs ys, exec (.decRun l) s = .next t ∧ t.links[l]? = some k' ∧ k'.dec.st = .awaitMagic1 ∧
      k'.inCh.rd = k.inCh.wr ∧ k'.inCh.wr = k.inCh.wr ∧ OnlyAnswers s t ∧
      t.trace = xs ++ .dispatched ⟨l, (k.inCh.rd + 6) % k.inCh.cap, BitVec.ofNat 8 p.length, p⟩ :: (ys ++ s.trace) ∧
      (∀ x ∈ xs ++ ys, x.OfAnswer) ∧ (s.raised = none → ys = []) ∧ (s.Silent → xs = [] ∧ ys = [])

/-! ### The collaborator (spec/43_link_and_collaborators.md) -/

/-- R216: the reference responder answers GET_ALIVE and ACKNOWLEDGE with `frame([c, ACK])` on the frame's own link, and
nothing else. R208: a collaborator given by its values answers the ENCODEs of the dispatch's first row, whatever was
dispatched before, and nothing to a dispatch without a row: the answer is a function of `(link, n, payload)`. -/
def Obligations.ReferenceResponderAnswers : Prop :=
  ∀ (s : State) (d : Dispatch) (k : Link), s.raised = some d → s.links[d.link]? = some k →
    (s.responder = .reference → 2 ≤ s.params.encMax →
      (d.payload = [] → exec (.dispatch d.link d.off d.n) s = .next { s with raised := none }) ∧
      (∀ (c : Byte) (rest : List Byte), d.payload = c :: rest →
        ((c = s.params.cmdGetAlive ∨ c = s.params.ack) → ∃ t, exec (.dispatch d.link d.off d.n) s = .next t ∧
          t.chan? ⟨d.link, .outbound⟩ = some (k.outCh.pushBytes (frameBytes s.params [c, s.params.ack])) ∧
          OnlyChannel ⟨d.link, .outbound⟩ { s with raised := none } t) ∧
        (c ≠ s.params.cmdGetAlive → c ≠ s.params.ack →
          exec (.dispatch d.link d.off d.n) s = .next { s with raised := none }))) ∧
    (∀ rows : List Answer, s.responder = .table rows →
      (∀ before after reqs, rows = before ++ ⟨d.link, d.n, d.payload, reqs⟩ :: after →
        (∀ a ∈ before, (a.link, a.n, a.payload) ≠ (d.link, d.n, d.payload)) →
        exec (.dispatch d.link d.off d.n) s =
          reqs.foldl (fun r q => andThen r (exec (.encode q.enc q.payload))) (.next { s with raised := none })) ∧
      ((∀ a ∈ rows, (a.link, a.n, a.payload) ≠ (d.link, d.n, d.payload)) →
        exec (.dispatch d.link d.off d.n) s = .next { s with raised := none }))

/-- R150, R209: a DISPATCH, whatever the collaborator answers, changes no decoder, no inbound slot and no inbound cursor,
and none stands after it; one that no decoder raised is refused (log 9). -/
def Obligations.DispatchKeepsTheInboundSide : Prop :=
  ∀ (s t : State) (dec off : Nat) (n : Byte),
    (∀ k, s.links[dec]? = some k → s.raised = none → exec (.dispatch dec off n) s = .refused .noDispatch) ∧
    (exec (.dispatch dec off n) s = .next t →
      (∃ d, s.raised = some d ∧ d.link = dec ∧ d.off = off ∧ d.n = n) ∧ t.raised = none ∧
        (∀ l, t.dec? l = s.dec? l) ∧
        ∀ l c, s.chan? ⟨l, .inbound⟩ = some c →
          ∃ c', t.chan? ⟨l, .inbound⟩ = some c' ∧ c'.rd = c.rd ∧ c'.wr = c.wr ∧ c'.mem = c.mem)

/-- R209: a DEC_STEP on any link, while a dispatch waits, comes after the dispatch's answer. -/
def Obligations.WaitingDispatchIsAnsweredFirst : Prop :=
  ∀ (s u : State) (d : Dispatch) (l : Nat), s.raised = some d →
    exec (.dispatch d.link d.off d.n) s = .next u → ∀ i ∈ decStepRows l, exec i s = exec i u

/-- R211: GET_ALIVE and ACKNOWLEDGE are answered by the frame of the command byte and the acknowledge byte; the request's
further bytes are ignored. The model's choices: that the rows CMD are such events, whatever State.responder is (log 12), and,
where START_CONFIG has the byte of GET_ALIVE or ACKNOWLEDGE, that the byte is not START_CONFIG's, so that no record is copied
(log 25). -/
def Obligations.CommandsEchoWithAck : Prop :=
  ∀ (s : State) (d : Dispatch) (k : Link) (b : Byte) (rest : List Byte),
    s.raised = some d → d.payload = b :: rest → s.links[d.link]? = some k → 2 ≤ s.params.encMax →
    ∀ i, (i = .cmdGetAlive ∧ b = s.params.cmdGetAlive) ∨
        (i = .cmdAcknowledge ∧ b = s.params.ack ∧ s.params.ack ≠ s.params.cmdGetAlive) →
      ∃ t, exec i s = .next t ∧
        t.chan? ⟨d.link, .outbound⟩ = some (k.outCh.pushBytes (frameBytes s.params [b, s.params.ack])) ∧
        OnlyChannel ⟨d.link, .outbound⟩ { s with raised := none } t

/-- R212: START_CONFIG is answered likewise, and then the record is the view of the slots after the command byte,
whatever length the frame declared. (The rows CMD as events: log 12.) -/
def Obligations.StartConfigCopiesTheRecord : Prop :=
  ∀ (s : State) (d : Dispatch) (k : Link) (rest bs : List Byte),
    s.raised = some d → d.payload = s.params.cmdStartConfig :: rest → s.links[d.link]? = some k →
    s.params.cmdStartConfig ≠ s.params.cmdGetAlive → s.params.cmdStartConfig ≠ s.params.ack →
    2 ≤ s.params.encMax → 0 < k.inCh.cap → s.params.recordSize ≤ k.inCh.cap → bs.length = s.params.recordSize →
    (∀ i, i < s.params.recordSize → k.inCh.slot? ((d.off + 1 + i) % k.inCh.cap) = bs[i]?) →
    ∃ t, exec .cmdStartConfig s = .next t ∧ t.record = bs ∧ t.raised = none ∧
      t.links[d.link]? = some { k with
        inCh := { k.inCh with justRead := false }
        outCh := k.outCh.pushBytes (frameBytes s.params [s.params.cmdStartConfig, s.params.ack]) } ∧
      OnlyLink d.link s t ∧ t.params = s.params ∧ t.booted = s.booted ∧ t.responder = s.responder ∧
      t.tasks = s.tasks ∧ t.input = s.input

/-- R213: an unknown command is answered by a frame of two bytes, one of which is the marker; the other is a free value, so
the statement holds for every value of it (log 13; the rows CMD as events: log 12). -/
def Obligations.UnknownCommandAnswersWithMarker : Prop :=
  ∀ (s : State) (d : Dispatch) (k : Link) (b : Byte) (rest : List Byte),
    s.raised = some d → d.payload = b :: rest → s.links[d.link]? = some k → 2 ≤ s.params.encMax →
    b ≠ s.params.cmdGetAlive → b ≠ s.params.ack → b ≠ s.params.cmdStartConfig →
    ∃ t x y, exec (.cmdUnknown b) s = .next t ∧
      t.chan? ⟨d.link, .outbound⟩ = some (k.outCh.pushBytes (frameBytes s.params [x, y])) ∧
      OnlyChannel ⟨d.link, .outbound⟩ { s with raised := none } t ∧
      (if s.params.unknownMarkerFirst then x else y) = s.params.unknownMarker

/-! ### The encoder and frames (spec/42_frame_encoder.md, spec/30_encoding.md) -/

/-- R187: ENCODE pushes exactly the bytes of `frame(p)`, which are `7 + N` and whose XOR is 0; every slot but those
`7 + N` is as before. -/
def Obligations.EncodePushesTheFrame : Prop :=
  ∀ (s : State) (enc : Nat) (p : List Byte) (c : Chan),
    s.chan? ⟨enc, .outbound⟩ = some c → p.length ≤ s.params.encMax → s.params.encMax ≤ 255 →
    ∃ t bytes, exec (.encode enc p) s = .next t ∧ t.chan? ⟨enc, .outbound⟩ = some (c.pushBytes bytes) ∧
      OnlyChannel ⟨enc, .outbound⟩ s t ∧
      bytes = s.params.magic.bytes ++ [BitVec.ofNat 8 p.length, s.params.token] ++ p ++
        [xorBytes (s.params.magic.bytes ++ [BitVec.ofNat 8 p.length, s.params.token] ++ p)] ∧
      bytes.length = 7 + p.length ∧ xorBytes bytes = 0 ∧
      (c.wr < c.cap → ∀ a, ¬ c.Stores (7 + p.length) a → t.slot? ⟨enc, .outbound⟩ a = s.slot? ⟨enc, .outbound⟩ a)

/-- R181, R89: the checksum is the seed constant, the length byte and the XOR of the payload. -/
def Obligations.ChecksumIsSeedForm : Prop :=
  ∀ (p : Params) (payload : List Byte),
    frameBytes p payload = frameBody p payload ++
      [seedConstant p ^^^ BitVec.ofNat 8 payload.length ^^^ xorBytes payload]

/-- R182: a payload longer than `ENC_MAX` is the fault `EncodeTooLong`, and nothing is pushed. -/
def Obligations.LongPayloadFaults : Prop :=
  ∀ (s : State) (enc : Nat) (p : List Byte) (k : Link), s.links[enc]? = some k → s.params.encMax < p.length →
    exec (.encode enc p) s = .fault (.encodeTooLong p.length)

/-- R80, R99: a FRAME puts the bytes of `frame(p)` on its channel, and the header row the six bytes of the reference
header on `pc_in` (log 14); every other slot is as before. -/
def Obligations.FramePushesItsBytes : Prop :=
  ∀ (s : State) (ch : ChanId) (p : List Byte) (n : Byte) (c : Chan), c.wr < c.cap →
    (s.chan? ch = some c → p.length ≤ 255 → ∃ t, exec (.frame ch p) s = .next t ∧
      t.chan? ch = some (c.pushBytes (frameBytes s.params p)) ∧ OnlyChannel ch s t ∧
      ∀ a, ¬ c.Stores (7 + p.length) a → t.slot? ch a = s.slot? ch a) ∧
    (s.chan? ChanId.pcIn = some c → ∃ t, exec (.frameReferenceHeader n) s = .next t ∧
      t.chan? ChanId.pcIn = some (c.pushBytes [0x55, 0x4E, 0x45, 0x52, n, 0x3A]) ∧ OnlyChannel ChanId.pcIn s t ∧
      ∀ a, ¬ c.Stores 6 a → t.slot? ChanId.pcIn a = s.slot? ChanId.pcIn a)

/-- R60, R180, R184: an operation run event by event, with no other agent's event between, is the same as the operation
with nothing between: for an ENCODE in `7 + N` steps, for every operation in some number of steps. -/
def Obligations.StepwiseEncodeIsEncode : Prop :=
  (∀ (s : State) (enc : Nat) (p : List Byte) (k : Link),
    s.input = [] → s.tasks = [.reply (.encode enc p)] → s.links[enc]? = some k → p.length ≤ s.params.encMax →
    Host.Core.run core (7 + p.length) s = exec (.encode enc p) { s with tasks := [] }) ∧
  ∀ (s : State) (code : List Byte) (i : Instr),
    s.Inv → s.booted = true → s.tasks = [] → s.input = [.begin code] → decode s.params code = .instr i →
    i.wf s.params = true → performer i = .poll →
    ∃ n, Host.Core.run core n s = exec i { s with input := [] }

/-! ### Links and RESET (spec/43_link_and_collaborators.md, spec/70_reset_and_hazards.md) -/

/-- R203: on two links a TICK is the PC link's DEC_RUN followed by the radio link's. -/
def Obligations.TickIsPcThenRadio : Prop :=
  ∀ s : State, s.links.length = 2 → exec .tick s = andThen (exec (.decRun 0) s) (exec (.decRun 1))

/-- R203: a TICK with no event of another agent between leaves every inbound channel empty, having written no inbound slot,
whatever the collaborator answers (R208); one that answers nothing leaves all slots and outbound channels as they were. -/
def Obligations.TickDrainsEveryLink : Prop :=
  ∀ s : State, s.Inv → s.Responsive → (∀ (l : Nat) (k : Link), s.links[l]? = some k → k.Drainable s.params.c0) →
    ∃ t, exec .tick s = .next t ∧ OnlyAnswers s t ∧
      (∀ (l : Nat) (k : Link), s.links[l]? = some k →
        ∃ k', t.links[l]? = some k' ∧ k'.inCh.rd = k.inCh.wr ∧ k'.inCh.wr = k.inCh.wr ∧ (s.Silent → k'.outCh = k.outCh)) ∧
      (s.Silent → SameSlots s t ∧ SameAround s t)

/-- R260, with the common initial cursor of R261: RESET leaves every channel empty at `c0` with no slot written and every
decoder in AWAIT_MAGIC_1, so that no DEC_STEP is enabled. (The decoder's data registers get the model's values, log 5; this
statement says nothing of them.) The model's choices in log 20: what stays around the block, and that a DISPATCH which stands
unanswered neither keeps the RESET from happening nor outlives it (`t.raised = none`). -/
def Obligations.ResetEmptiesTheBlock : Prop :=
  ∀ s : State, s.tasks = [] → s.params.encMax ≤ 255 →
    (∀ (l : Nat) (k : Link) (d : Dir), s.links[l]? = some k → 2 ≤ (k.chan d).cap ∧ s.params.c0 < (k.chan d).cap) →
    ∃ t, exec .reset s = .next t ∧ t.booted = true ∧ t.raised = none ∧ t.links.length = s.links.length ∧
      t.params = s.params ∧ t.responder = s.responder ∧ t.record = s.record ∧ t.tasks = [] ∧ t.input = s.input ∧
      t.trace = s.trace ∧
      ∀ (l : Nat) (k : Link), s.links[l]? = some k → exec (.decStep l) t = .fault (.popEmpty ⟨l, .inbound⟩) ∧
        ∃ k', t.links[l]? = some k' ∧ k'.dec.st = .awaitMagic1 ∧
          ∀ d, (k'.chan d).cap = (k.chan d).cap ∧ (k'.chan d).wr = s.params.c0 ∧ (k'.chan d).rd = s.params.c0 ∧
            (k'.chan d).pushed = 0 ∧ (k'.chan d).consumed = 0 ∧ ∀ a, (k'.chan d).slot? a = none

/-- R263, R237: RESET is refused inside an operation, and for a configuration with a channel of fewer than two slots. -/
def Obligations.ResetIsRefused : Prop :=
  ∀ s : State,
    (s.tasks ≠ [] → exec .reset s = .refused .resetInOperation) ∧
    (∀ (l : Nat) (k : Link) (d : Dir), s.tasks = [] → s.links[l]? = some k → (k.chan d).cap < 2 → exec .reset s = .refused .badConfig)

/-- The model's choice in log 18: an event on a link the machine does not have is refused. -/
def Obligations.MissingLinkIsRefused : Prop :=
  ∀ (s : State) (l : Nat), s.links[l]? = none →
    (∀ d b off n p, exec (.push ⟨l, d⟩ b) s = .refused (.noSuchLink l) ∧
      exec (.hasData ⟨l, d⟩) s = .refused (.noSuchLink l) ∧ exec (.pop ⟨l, d⟩) s = .refused (.noSuchLink l) ∧
      exec (.peek ⟨l, d⟩) s = .refused (.noSuchLink l) ∧ exec (.stepback ⟨l, d⟩) s = .refused (.noSuchLink l) ∧
      exec (.view ⟨l, d⟩ off n) s = .refused (.noSuchLink l) ∧
      exec (.frame ⟨l, d⟩ p) s = .refused (.noSuchLink l) ∧ exec (.encode l p) s = .refused (.noSuchLink l)) ∧
    (∀ i ∈ decStepRows l, exec i s = .refused (.noSuchLink l)) ∧ exec (.decRun l) s = .refused (.noSuchLink l) ∧
    (∀ off n, exec (.dispatch l off n) s = .refused (.noSuchLink l)) ∧
    (l = ChanId.pcIn.link → ∀ b, exec (.feedPc b) s = .refused (.noSuchLink l) ∧
      exec (.frameReferenceHeader b) s = .refused (.noSuchLink l)) ∧
    (l = ChanId.radioIn.link → ∀ b, exec (.feedRadio b) s = .refused (.noSuchLink l))

/-! ### The whole machine -/

/-- R60: when the head of the schedule is an event whose code decodes to a well-formed instruction that its agent may
perform, after RESET, and the polling agent is not kept by an operation, the step is `exec` of it with the entry
taken. When it is the start of an operation of the polling agent (log 8), the step takes the entry and leaves the
operation's tasks as what the agent does next; an instruction that is one event is performed at once. -/
def Obligations.StepRunsDecodedInstruction : Prop :=
  ∀ (s : State) (code : List Byte) (rest : List Input) (i : Instr),
    decode s.params code = .instr i → i.wf s.params = true → (s.booted = true ∨ i = .reset) →
    (∀ a, s.input = .event a code :: rest → performer i = a → (a = .poll → s.tasks = []) →
      step s = exec i { s with input := rest }) ∧
    (s.input = .begin code :: rest → performer i = .poll → s.tasks = [] →
      (isOperation i = false → step s = exec i { s with input := rest }) ∧
      (∀ enc p k, i = .encode enc p → s.links[enc]? = some k →
        step s = .next { s with input := rest, tasks := [.reply (.encode enc p)] }) ∧
      (∀ l k, i = .decRun l → s.links[l]? = some k → step s = .next { s with input := rest, tasks := [.decRun l] }) ∧
      (i = .tick → step s = .next { s with input := rest, tasks := (List.range s.links.length).map .decRun }) ∧
      (∀ d k, i = .dispatch d.link d.off d.n → s.raised = some d → s.links[d.link]? = some k →
        step s = .next { s with input := rest, tasks := [.deliver] }) ∧
      (∀ d b bs, i = instrOfCommand (commandOf s.params b) → s.raised = some d → d.payload = b :: bs →
        step s = .next { s with
          input := rest
          raised := none
          tasks := (commandReplies s.params d (commandOf s.params b)).map .reply }))

/-- R246, R247, R267: an agent that does not hold the role is refused, and before RESET every event but RESET; the same for
the start of an operation, which is the polling agent's. -/
def Obligations.WrongAgentIsRefused : Prop :=
  ∀ (s : State) (a : Agent) (code : List Byte) (rest : List Input) (i : Instr),
    (s.input = .event a code :: rest ∨ (a = .poll ∧ s.input = .begin code :: rest)) →
    decode s.params code = .instr i → i.wf s.params = true → (a = .poll → s.tasks = []) →
    (s.booted = true → performer i ≠ a → step s = .refused (.roleViolation a)) ∧
    (s.booted = false → i ≠ .reset → step s = .refused .beforeReset)

/-- R60: an event of the polling agent waits until the operation the agent is inside is done; what happens is the next
event of that operation, and the entry stays. -/
def Obligations.BusyPollingAgentKeepsItsOrder : Prop :=
  ∀ (s : State) (code : List Byte) (rest : List Input) (x : Task) (xs : List Task),
    s.tasks = x :: xs → (s.input = .event .poll code :: rest ∨ s.input = .begin code :: rest ∨ s.input = []) →
    step s = runTask x { s with tasks := xs }

/-- R57, R246: no event of a receive interrupt moves a read cursor, changes a decoder, or touches any channel but the one
it produces for. -/
def Obligations.ProducersTouchOnlyTheirSide : Prop :=
  ∀ (s t : State) (i : Instr) (l : Nat), performer i = .rx l → exec i s = .next t →
    t.raised = s.raised ∧ (∀ j, t.dec? j = s.dec? j) ∧
      ∀ ch c, s.chan? ch = some c → ∃ c', t.chan? ch = some c' ∧ c'.rd = c.rd ∧ c'.consumed = c.consumed ∧
        (ch ≠ ⟨l, .inbound⟩ → c' = c)

/-- R57, R246: no event of a transmit path writes a slot or a write cursor, changes a decoder, or touches any channel but
the one it consumes. -/
def Obligations.TransmitPathsTouchOnlyTheirSide : Prop :=
  ∀ (s t : State) (i : Instr) (l : Nat), performer i = .tx l → exec i s = .next t →
    t.raised = s.raised ∧ (∀ j, t.dec? j = s.dec? j) ∧ SameSlots s t ∧
      ∀ ch c, s.chan? ch = some c → ∃ c', t.chan? ch = some c' ∧ c'.wr = c.wr ∧ c'.pushed = c.pushed ∧
        (ch ≠ ⟨l, .outbound⟩ → c' = c)

/-- R57, R25: no event of the polling agent, whatever the collaborator answers, writes an inbound slot or an inbound write
cursor, or moves an outbound read cursor. -/
def Obligations.PollingAgentKeepsItsRoles : Prop :=
  ∀ (s t : State) (i : Instr), performer i = .poll → exec i s = .next t →
    (∀ l c, s.chan? ⟨l, .inbound⟩ = some c →
      ∃ c', t.chan? ⟨l, .inbound⟩ = some c' ∧ c'.mem = c.mem ∧ c'.wr = c.wr ∧ c'.pushed = c.pushed) ∧
    ∀ l c, s.chan? ⟨l, .outbound⟩ = some c →
      ∃ c', t.chan? ⟨l, .outbound⟩ = some c' ∧ c'.rd = c.rd ∧ c'.consumed = c.consumed

/-- R262, R208: the parameters, the collaborator, the number of links and the capacities never change. -/
def Obligations.ParametersNeverChange : Prop :=
  ∀ s t : State, step s = .next t → t.params = s.params ∧ t.responder = s.responder ∧
    t.links.map (fun k => (k.inCh.cap, k.outCh.cap)) = s.links.map (fun k => (k.inCh.cap, k.outCh.cap))

/-- R33: the machine right after reset keeps the invariant. -/
def Obligations.ResetStateKeepsInvariant : Prop := State.reset.Inv ∧ State.reset.Ahead

/-- R33, R17, R25: every step, from every state that meets the invariant, leaves a state that meets it; and every step but
one that performs a raw STEPBACK on an inbound channel keeps the payload slots of the frames under way pushed. -/
def Obligations.StepKeepsInvariant : Prop :=
  ∀ s t : State, s.Inv → step s = .next t →
    t.Inv ∧
    (s.Ahead →
      (∀ code rest l, (s.input = .event .poll code :: rest ∨ s.input = .begin code :: rest) →
        decode s.params code ≠ .instr (.stepback ⟨l, .inbound⟩)) →
      t.Ahead)

/-! ### Codes -/

/-- The decoder reads back the code of every well-formed instruction, every operand at every value (codes: log 1; frame
bytes: R80, R85). Every instruction is well formed, whatever its link, slot index or count (R5, R9), but a FRAME of a payload
without a frame (R187) and a CMD row whose byte is another command's (R104; log 25 where identifiers coincide): so every event
can be an entry of a schedule (R60). -/
def Obligations.DecodeEncodeAgree : Prop :=
  ∀ (p : Params) (i : Instr),
    (i.wf p = true → decode p (encode p i) = .instr i) ∧
    (i.wf p = false ↔
      (∃ ch payload, i = .frame ch payload ∧ 255 < payload.length) ∨
      (i = .cmdAcknowledge ∧ p.ack = p.cmdGetAlive) ∨
      (i = .cmdStartConfig ∧ (p.cmdStartConfig = p.cmdGetAlive ∨ p.cmdStartConfig = p.ack)) ∨
      ∃ raw, i = .cmdUnknown raw ∧ (raw = p.cmdGetAlive ∨ raw = p.ack ∨ raw = p.cmdStartConfig))

/-- Every code the decoder accepts is the code of a well-formed instruction, the one it reads: no two codes of one
instruction. -/
def Obligations.AcceptedCodesAreCanonical : Prop :=
  ∀ (p : Params) (code : List Byte) (i : Instr), decode p code = .instr i → i.wf p = true ∧ encode p i = code

/-- A few codes written out by hand: the table's reference header, the source's example frame (R180) on `pc_in`, a PUSH, a
VIEW and a DISPATCH, and a PUSH on link 300 (R9 bounds no link number). -/
def Obligations.HandWrittenCodesDecode : Prop :=
  decode Params.reference [0x55, 0x4E, 0x45, 0x52, 0x80, 0x3A] = .instr (.frameReferenceHeader 0x80) ∧
  decode Params.reference [0x30, 0, 0, 0x55, 0x4E, 0x45, 0x52, 0x02, 0x3A, 0xF0, 0x0D, 0xC9] =
    .instr (.frame ChanId.pcIn [0xF0, 0x0D]) ∧
  decode Params.reference [0x01, 1, 1, 0x33] = .instr (.push ChanId.radioOut 0x33) ∧
  decode Params.reference [0x06, 0, 0, 255, 7, 5] = .instr (.view ChanId.pcIn 262 5) ∧
  decode Params.reference [0x19, 0, 6, 2] = .instr (.dispatch 0 6 2) ∧
  decode Params.reference [0x01, 255, 45, 1, 0x33] = .instr (.push ⟨300, .outbound⟩ 0x33)
end

