-- ==== Sys2Proof/Laws/State.lean ====
section
/-! SUPPORT. One lemma per field per update of the state, a channel, a decoder and a link, and what a lookup finds after
an update. -/
namespace Sys2Proof.Machine

section Channel
variable (c : Chan) (b : Byte) (bs : List Byte)

@[simp] theorem Chan.pushByte_cap : (c.pushByte b).cap = c.cap := rfl
@[simp] theorem Chan.pushByte_wr : (c.pushByte b).wr = nextSlot c.cap c.wr := rfl
@[simp] theorem Chan.pushByte_rd : (c.pushByte b).rd = c.rd := rfl
@[simp] theorem Chan.pushByte_mem : (c.pushByte b).mem = Memory.write c.mem c.wr b := rfl
@[simp] theorem Chan.pushByte_pushed : (c.pushByte b).pushed = c.pushed + 1 := rfl
@[simp] theorem Chan.pushByte_consumed : (c.pushByte b).consumed = c.consumed := rfl
@[simp] theorem Chan.pushByte_justRead : (c.pushByte b).justRead = c.justRead := rfl

@[simp] theorem Chan.consume_cap : c.consume.cap = c.cap := rfl
@[simp] theorem Chan.consume_wr : c.consume.wr = c.wr := rfl
@[simp] theorem Chan.consume_rd : c.consume.rd = nextSlot c.cap c.rd := rfl
@[simp] theorem Chan.consume_mem : c.consume.mem = c.mem := rfl
@[simp] theorem Chan.consume_pushed : c.consume.pushed = c.pushed := rfl
@[simp] theorem Chan.consume_consumed : c.consume.consumed = c.consumed + 1 := rfl
@[simp] theorem Chan.consume_justRead : c.consume.justRead = true := rfl
@[simp] theorem Chan.consume_slot (a : Nat) : c.consume.slot? a = c.slot? a := rfl

@[simp] theorem Chan.unconsume_cap : c.unconsume.cap = c.cap := rfl
@[simp] theorem Chan.unconsume_wr : c.unconsume.wr = c.wr := rfl
@[simp] theorem Chan.unconsume_rd : c.unconsume.rd = prevSlot c.cap c.rd := rfl
@[simp] theorem Chan.unconsume_mem : c.unconsume.mem = c.mem := rfl
@[simp] theorem Chan.unconsume_pushed : c.unconsume.pushed = c.pushed := rfl
@[simp] theorem Chan.unconsume_consumed : c.unconsume.consumed = c.consumed - 1 := rfl
@[simp] theorem Chan.unconsume_justRead : c.unconsume.justRead = false := rfl
@[simp] theorem Chan.unconsume_slot (a : Nat) : c.unconsume.slot? a = c.slot? a := rfl

@[simp] theorem Chan.look_cap : c.look.cap = c.cap := rfl
@[simp] theorem Chan.look_wr : c.look.wr = c.wr := rfl
@[simp] theorem Chan.look_rd : c.look.rd = c.rd := rfl
@[simp] theorem Chan.look_mem : c.look.mem = c.mem := rfl
@[simp] theorem Chan.look_pushed : c.look.pushed = c.pushed := rfl
@[simp] theorem Chan.look_consumed : c.look.consumed = c.consumed := rfl
@[simp] theorem Chan.look_justRead : c.look.justRead = false := rfl
@[simp] theorem Chan.look_slot (a : Nat) : c.look.slot? a = c.slot? a := rfl
@[simp] theorem Chan.look_hasData : c.look.hasData = c.hasData := rfl

@[simp] theorem Chan.block_cap : c.block.cap = c.cap := rfl
@[simp] theorem Chan.block_wr : c.block.wr = c.wr := rfl
@[simp] theorem Chan.block_rd : c.block.rd = c.rd := rfl
@[simp] theorem Chan.block_mem : c.block.mem = c.mem := rfl
@[simp] theorem Chan.block_pushed : c.block.pushed = c.pushed := rfl
@[simp] theorem Chan.block_consumed : c.block.consumed = c.consumed := rfl
@[simp] theorem Chan.block_justRead : c.block.justRead = false := rfl
@[simp] theorem Chan.block_look : c.look.block = c.block := rfl

@[simp] theorem Chan.pushBytes_nil : c.pushBytes [] = c := rfl
@[simp] theorem Chan.pushBytes_cons : c.pushBytes (b :: bs) = (c.pushByte b).pushBytes bs := rfl
@[simp] theorem Chan.pushBytes_append (bs' : List Byte) :
    c.pushBytes (bs ++ bs') = (c.pushBytes bs).pushBytes bs' := by
  simp [Chan.pushBytes]

@[simp] theorem Chan.pushBytes_cap : (c.pushBytes bs).cap = c.cap := by
  induction bs generalizing c with
  | nil => rfl
  | cons x xs ih => simp [ih]

@[simp] theorem Chan.pushBytes_rd : (c.pushBytes bs).rd = c.rd := by
  induction bs generalizing c with
  | nil => rfl
  | cons x xs ih => simp [ih]

@[simp] theorem Chan.pushBytes_pushed : (c.pushBytes bs).pushed = c.pushed + bs.length := by
  induction bs generalizing c with
  | nil => rfl
  | cons x xs ih => simp [ih]; omega

end Channel

section Decoder
variable (d : Dec)

@[simp] theorem Dec.resync_st : d.resync.st = .awaitMagic1 := rfl
@[simp] theorem Dec.resync_len : d.resync.len = d.len := rfl
@[simp] theorem Dec.resync_remaining : d.resync.remaining = d.remaining := rfl
@[simp] theorem Dec.resync_acc : d.resync.acc = d.acc := rfl
@[simp] theorem Dec.resync_startOff : d.resync.startOff = d.startOff := rfl
@[simp] theorem Dec.resync_lenSlot : d.resync.lenSlot = d.lenSlot := rfl
@[simp] theorem Dec.resync_taken : d.resync.taken = d.taken := rfl

@[simp] theorem Dec.block_st : d.block.st = d.st := rfl
@[simp] theorem Dec.block_len : d.block.len = d.len := rfl
@[simp] theorem Dec.block_remaining : d.block.remaining = d.remaining := rfl
@[simp] theorem Dec.block_acc : d.block.acc = d.acc := rfl
@[simp] theorem Dec.block_startOff : d.block.startOff = d.startOff := rfl
@[simp] theorem Dec.block_lenSlot : d.block.lenSlot = 0 := rfl
@[simp] theorem Dec.block_taken : d.block.taken = [] := rfl

end Decoder

section OneLink
variable (k : Link) (d : Dir) (c : Chan)

@[simp] theorem Link.setChan_dec : (k.setChan d c).dec = k.dec := by cases d <;> rfl
@[simp] theorem Link.setChan_chan : (k.setChan d c).chan d = c := by cases d <;> rfl
@[simp] theorem Link.chan_inbound : k.chan .inbound = k.inCh := rfl
@[simp] theorem Link.chan_outbound : k.chan .outbound = k.outCh := rfl
@[simp] theorem Link.setChan_inbound : k.setChan .inbound c = { k with inCh := c } := rfl
@[simp] theorem Link.setChan_outbound : k.setChan .outbound c = { k with outCh := c } := rfl

theorem Link.setChan_chan_ne {d e : Dir} (h : e ≠ d) : (k.setChan d c).chan e = k.chan e := by
  cases d <;> cases e <;> first | rfl | exact absurd rfl h

end OneLink

section Machine
variable (s : State) (l : Nat) (f : Link → Link) (ch : ChanId) (c : Chan) (x : Label) (o : Option Label)

@[simp] theorem State.modLink_params : (s.modLink l f).params = s.params := rfl
@[simp] theorem State.modLink_booted : (s.modLink l f).booted = s.booted := rfl
@[simp] theorem State.modLink_raised : (s.modLink l f).raised = s.raised := rfl
@[simp] theorem State.modLink_responder : (s.modLink l f).responder = s.responder := rfl
@[simp] theorem State.modLink_record : (s.modLink l f).record = s.record := rfl
@[simp] theorem State.modLink_tasks : (s.modLink l f).tasks = s.tasks := rfl
@[simp] theorem State.modLink_input : (s.modLink l f).input = s.input := rfl
@[simp] theorem State.modLink_trace : (s.modLink l f).trace = s.trace := rfl

@[simp] theorem State.modLink_length : (s.modLink l f).links.length = s.links.length := by simp [State.modLink]

theorem State.modLink_getElem? (j : Nat) :
    (s.modLink l f).links[j]? = if l = j then (s.links[j]?).map f else s.links[j]? := by
  simp only [State.modLink, List.getElem?_modify]
  split <;> simp_all

@[simp] theorem State.modLink_getElem?_self : (s.modLink l f).links[l]? = (s.links[l]?).map f := by
  simp [State.modLink_getElem?]

theorem State.modLink_getElem?_ne {j : Nat} (h : j ≠ l) : (s.modLink l f).links[j]? = s.links[j]? := by
  simp [State.modLink_getElem?, Ne.symm h]

@[simp] theorem State.setChan_params : (s.setChan ch c).params = s.params := rfl
@[simp] theorem State.setChan_booted : (s.setChan ch c).booted = s.booted := rfl
@[simp] theorem State.setChan_raised : (s.setChan ch c).raised = s.raised := rfl
@[simp] theorem State.setChan_responder : (s.setChan ch c).responder = s.responder := rfl
@[simp] theorem State.setChan_record : (s.setChan ch c).record = s.record := rfl
@[simp] theorem State.setChan_tasks : (s.setChan ch c).tasks = s.tasks := rfl
@[simp] theorem State.setChan_input : (s.setChan ch c).input = s.input := rfl
@[simp] theorem State.setChan_trace : (s.setChan ch c).trace = s.trace := rfl
@[simp] theorem State.setChan_length : (s.setChan ch c).links.length = s.links.length := by simp [State.setChan]

theorem State.setChan_getElem? (j : Nat) :
    (s.setChan ch c).links[j]? = if ch.link = j then (s.links[j]?).map (·.setChan ch.dir c) else s.links[j]? :=
  State.modLink_getElem? s ch.link _ j

/-- The channel written is the one read back. -/
theorem State.setChan_chan?_self : (s.setChan ch c).chan? ch = (s.chan? ch).map fun _ => c := by
  simp only [State.chan?, State.setChan_getElem?, if_pos]
  cases s.links[ch.link]? <;> simp

/-- No other channel changes (R121). -/
theorem State.setChan_chan?_ne {o : ChanId} (h : o ≠ ch) : (s.setChan ch c).chan? o = s.chan? o := by
  simp only [State.chan?, State.setChan_getElem?]
  by_cases hl : ch.link = o.link
  · have hd : o.dir ≠ ch.dir := fun hd => h (by cases o; cases ch; simp_all)
    rw [if_pos hl]
    cases s.links[o.link]? <;> simp [Link.setChan_chan_ne _ _ hd]
  · rw [if_neg hl]

@[simp] theorem State.setChan_dec? (l : Nat) : (s.setChan ch c).dec? l = s.dec? l := by
  simp only [State.dec?, State.setChan_getElem?]
  split <;> cases s.links[l]? <;> simp

@[simp] theorem State.note_params : (s.note x).params = s.params := rfl
@[simp] theorem State.note_booted : (s.note x).booted = s.booted := rfl
@[simp] theorem State.note_links : (s.note x).links = s.links := rfl
@[simp] theorem State.note_raised : (s.note x).raised = s.raised := rfl
@[simp] theorem State.note_responder : (s.note x).responder = s.responder := rfl
@[simp] theorem State.note_record : (s.note x).record = s.record := rfl
@[simp] theorem State.note_tasks : (s.note x).tasks = s.tasks := rfl
@[simp] theorem State.note_input : (s.note x).input = s.input := rfl
@[simp] theorem State.note_trace : (s.note x).trace = x :: s.trace := rfl
@[simp] theorem State.note_chan? : (s.note x).chan? ch = s.chan? ch := rfl
@[simp] theorem State.note_dec? (l : Nat) : (s.note x).dec? l = s.dec? l := rfl

@[simp] theorem State.noteOpt_params : (s.noteOpt o).params = s.params := by cases o <;> rfl
@[simp] theorem State.noteOpt_booted : (s.noteOpt o).booted = s.booted := by cases o <;> rfl
@[simp] theorem State.noteOpt_links : (s.noteOpt o).links = s.links := by cases o <;> rfl
@[simp] theorem State.noteOpt_raised : (s.noteOpt o).raised = s.raised := by cases o <;> rfl
@[simp] theorem State.noteOpt_responder : (s.noteOpt o).responder = s.responder := by cases o <;> rfl
@[simp] theorem State.noteOpt_record : (s.noteOpt o).record = s.record := by cases o <;> rfl
@[simp] theorem State.noteOpt_tasks : (s.noteOpt o).tasks = s.tasks := by cases o <;> rfl
@[simp] theorem State.noteOpt_input : (s.noteOpt o).input = s.input := by cases o <;> rfl
@[simp] theorem State.noteOpt_trace : (s.noteOpt o).trace = o.toList ++ s.trace := by cases o <;> rfl
@[simp] theorem State.noteOpt_chan? : (s.noteOpt o).chan? ch = s.chan? ch := by cases o <;> rfl
@[simp] theorem State.noteOpt_dec? (l : Nat) : (s.noteOpt o).dec? l = s.dec? l := by cases o <;> rfl

/-- A channel that is there stands in a link that is there. -/
theorem State.chan?_eq_some {s : State} {ch : ChanId} {c : Chan} :
    s.chan? ch = some c ↔ ∃ k, s.links[ch.link]? = some k ∧ k.chan ch.dir = c := by
  simp [State.chan?]

end Machine

end Sys2Proof.Machine
end

