-- ==== Sys2Proof/Laws/Memory.lean ====
section
/-! SUPPORT. Slots: a read after a write, and the canonical form, which every memory operation keeps. -/
namespace Sys2Proof.Machine

/-- The slot written holds the byte written. -/
@[simp] theorem Memory.read_write_self (m : List Host.Cell) (a : Nat) (b : Byte) :
    Memory.read (Memory.write m a b) a = some b := by
  induction m with
  | nil => simp [Memory.write, Memory.read]
  | cons x m ih =>
    obtain ⟨k, v⟩ := x
    simp only [Memory.write]
    split
    · simp [Memory.read]
    · split
      · simp [Memory.read]
      · rename_i h
        simp [Memory.read, h, ih]

/-- Every other slot is as before. -/
theorem Memory.read_write_ne (m : List Host.Cell) {a o : Nat} (b : Byte) (h : o ≠ a) :
    Memory.read (Memory.write m a b) o = Memory.read m o := by
  induction m with
  | nil => simp [Memory.write, Memory.read, h]
  | cons x m ih =>
    obtain ⟨k, v⟩ := x
    simp only [Memory.write]
    split
    · simp [Memory.read, h]
    · split
      · rename_i hk
        subst hk
        simp [Memory.read, h]
      · simp [Memory.read, ih]

theorem Memory.read_write (m : List Host.Cell) (a o : Nat) (b : Byte) :
    Memory.read (Memory.write m a b) o = if o = a then some b else Memory.read m o := by
  split
  · rename_i h; subst h; simp
  · rename_i h; exact Memory.read_write_ne m b h

/-- What a write lists is the written cell or was listed before. -/
theorem Memory.mem_write {m : List Host.Cell} {a : Nat} {b : Byte} {x : Host.Cell}
    (h : x ∈ Memory.write m a b) : x.1 = a ∨ x ∈ m := by
  induction m with
  | nil => simp [Memory.write] at h; exact .inl (by rw [h])
  | cons y m ih =>
    obtain ⟨k, v⟩ := y
    simp only [Memory.write] at h
    split at h
    · rcases List.mem_cons.1 h with h | h
      · exact .inl (by rw [h])
      · exact .inr h
    · split at h
      · rcases List.mem_cons.1 h with h | h
        · exact .inl (by rw [h])
        · exact .inr (List.mem_cons_of_mem _ h)
      · rcases List.mem_cons.1 h with h | h
        · exact .inr (h ▸ List.mem_cons_self)
        · exact (ih h).imp id (List.mem_cons_of_mem _)

/-- A write keeps the canonical form. -/
theorem Memory.wf_write {m : List Host.Cell} (h : Memory.wf m) (a : Nat) (b : Byte) :
    Memory.wf (Memory.write m a b) := by
  induction m with
  | nil => simp [Memory.wf, Memory.write]
  | cons x m ih =>
    obtain ⟨k, v⟩ := x
    have hk : ∀ y ∈ m, k < y.1 := (List.pairwise_cons.1 h).1
    have hm : Memory.wf m := (List.pairwise_cons.1 h).2
    simp only [Memory.write]
    split
    · rename_i hlt
      refine List.pairwise_cons.2 ⟨fun y hy => ?_, h⟩
      rcases List.mem_cons.1 hy with hy | hy
      · rw [hy]; exact hlt
      · exact Nat.lt_trans hlt (hk y hy)
    · split
      · rename_i heq
        exact List.pairwise_cons.2 ⟨fun y hy => heq ▸ hk y hy, hm⟩
      · rename_i hlt hne
        refine List.pairwise_cons.2 ⟨fun y hy => ?_, ih hm⟩
        rcases Memory.mem_write hy with hy | hy
        · show k < y.1
          omega
        · exact hk y hy

/-- The memory of a channel right after reset is canonical. -/
theorem Memory.wf_fresh (cap c0 : Nat) : Memory.wf (Chan.fresh cap c0).mem := List.Pairwise.nil

/-- Every event's channel operation keeps the canonical form. -/
theorem Chan.canonical_ops {c : Chan} (h : Memory.wf c.mem) (b : Byte) :
    Memory.wf (c.pushByte b).mem ∧ Memory.wf c.consume.mem ∧ Memory.wf c.unconsume.mem ∧ Memory.wf c.look.mem :=
  ⟨Memory.wf_write h _ _, h, h, h⟩

/-- A PUSH changes the slot at `wr` only. -/
theorem Chan.pushByte_slot (c : Chan) (b : Byte) (a : Nat) :
    (c.pushByte b).slot? a = if a = c.wr then some b else c.slot? a :=
  Memory.read_write c.mem c.wr a b

/-- `n` PUSHes change none but the slots they store to. -/
theorem Chan.pushBytes_slot_other (c : Chan) (bs : List Byte) (a : Nat) (hw : c.wr < c.cap)
    (h : ¬ c.Stores bs.length a) : (c.pushBytes bs).slot? a = c.slot? a := by
  induction bs generalizing c with
  | nil => rfl
  | cons b bs ih =>
    have hcap : 0 < c.cap := Nat.lt_of_le_of_lt (Nat.zero_le _) hw
    have hne : a ≠ c.wr := fun he => h ⟨0, by simp, by simp [he, Nat.mod_eq_of_lt hw]⟩
    rw [Chan.pushBytes_cons, ih]
    · rw [Chan.pushByte_slot, if_neg hne]
    · simp only [Chan.pushByte_wr, Chan.pushByte_cap, nextSlot]
      exact Nat.mod_lt _ hcap
    · rintro ⟨i, hi, he⟩
      refine h ⟨i + 1, by simpa using hi, ?_⟩
      simp only [Chan.pushByte_wr, Chan.pushByte_cap, nextSlot] at he
      rw [he, Nat.mod_add_mod]
      congr 1
      omega

end Sys2Proof.Machine
end

