-- ==== Sys2Proof/Laws/Ops.lean ====
section
/-! SUPPORT. What each shared operation can do: one lemma per operation that says exactly when it answers a next state and
which. -/
namespace Sys2Proof.Machine

@[simp] theorem andThen_next_left (s : State) (f : State → Result) : andThen (.next s) f = f s := rfl

/-- A sequence answers `t` exactly if its first part answers a state from which the second answers `t`. -/
theorem andThen_eq_next {r : Result} {f : State → Result} {t : State} :
    andThen r f = .next t ↔ ∃ s, r = .next s ∧ f s = .next t := by
  cases r <;> simp [andThen]

theorem withLink_eq_next {l : Nat} {s t : State} {f : Link → Result} :
    withLink l s f = .next t ↔ ∃ k, s.links[l]? = some k ∧ f k = .next t := by
  unfold withLink
  cases s.links[l]? <;> simp

theorem withLink_of_some {l : Nat} {s : State} {k : Link} (h : s.links[l]? = some k) (f : Link → Result) :
    withLink l s f = f k := by simp [withLink, h]

theorem withChan_eq_next {ch : ChanId} {s t : State} {f : Chan → Result} :
    withChan ch s f = .next t ↔ ∃ c, s.chan? ch = some c ∧ f c = .next t := by
  simp only [withChan, withLink_eq_next, State.chan?_eq_some]
  constructor
  · rintro ⟨k, hk, hf⟩; exact ⟨_, ⟨k, hk, rfl⟩, hf⟩
  · rintro ⟨_, ⟨k, hk, rfl⟩, hf⟩; exact ⟨k, hk, hf⟩

theorem withChan_of_some {ch : ChanId} {s : State} {c : Chan} (h : s.chan? ch = some c) (f : Chan → Result) :
    withChan ch s f = f c := by
  obtain ⟨k, hk, rfl⟩ := State.chan?_eq_some.1 h
  simp [withChan, withLink, hk]

/-- What a PUSH leaves (R110). -/
theorem pushEvent_of_some {ch : ChanId} {s : State} {c : Chan} (h : s.chan? ch = some c) (b : Byte) :
    pushEvent ch b s =
      .next ((s.setChan ch (c.pushByte b)).noteOpt (if c.atLimit then some (.overrun ch) else none)) := by
  simp [pushEvent, withChan_of_some h]

theorem pushEvent_eq_next {ch : ChanId} {b : Byte} {s t : State} :
    pushEvent ch b s = .next t ↔ ∃ c, s.chan? ch = some c ∧
      t = (s.setChan ch (c.pushByte b)).noteOpt (if c.atLimit then some (.overrun ch) else none) := by
  simp only [pushEvent, withChan_eq_next, Host.Outcome.next.injEq]
  exact ⟨fun ⟨c, h, e⟩ => ⟨c, h, e.symm⟩, fun ⟨c, h, e⟩ => ⟨c, h, e.symm⟩⟩

/-- POP's and PEEK's precondition and load: they go on exactly with the byte at `rd`, on a channel that has data. -/
theorem withOldest_eq_next {ch : ChanId} {c : Chan} {f : Byte → Result} {t : State} :
    withOldest ch c f = .next t ↔ c.rd ≠ c.wr ∧ ∃ b, c.slot? c.rd = some b ∧ f b = .next t := by
  unfold withOldest Chan.hasData
  by_cases h : c.rd = c.wr
  · simp [h]
  · cases hs : c.slot? c.rd <;> simp [h]

theorem withOldest_of_some {ch : ChanId} {c : Chan} {b : Byte} (h : c.rd ≠ c.wr) (hb : c.slot? c.rd = some b)
    (f : Byte → Result) : withOldest ch c f = f b := by
  simp [withOldest, Chan.hasData, h, hb]

/-- VIEW's checks and loads. -/
theorem withView_eq_next {ch : ChanId} {c : Chan} {off n : Nat} {f : List Byte → Result} {t : State} :
    withView ch c off n f = .next t ↔ n ≤ c.cap ∧ off < c.cap ∧ ∃ bs, c.readRun off n = .ok bs ∧ f bs = .next t := by
  unfold withView
  by_cases h1 : c.cap < n
  · simp [h1, Nat.not_le.2 h1]
  · by_cases h2 : c.cap ≤ off
    · simp [h1, h2, Nat.not_lt.2 h2]
    · cases hr : c.readRun off n <;> simp [h1, h2, Nat.not_lt.1 h1, Nat.not_le.1 h2]

/-- A run of loads answers exactly the bytes of its slots, in order (R53). -/
theorem Chan.readRun_eq_ok {c : Chan} {off n : Nat} {bs : List Byte} :
    c.readRun off n = .ok bs ↔ bs.length = n ∧ ∀ i, i < n → c.slot? ((off + i) % c.cap) = bs[i]? := by
  induction n generalizing off bs with
  | zero =>
    simp only [Chan.readRun, Except.ok.injEq, List.length_eq_zero_iff]
    exact ⟨fun h => ⟨h.symm, fun i hi => absurd hi (Nat.not_lt_zero i)⟩, fun h => h.1.symm⟩
  | succ n ih =>
    simp only [Chan.readRun]
    cases h0 : c.slot? (off % c.cap) with
    | none =>
      simp only [reduceCtorEq, false_iff, not_and]
      intro hl h
      have h' := h 0 (Nat.succ_pos n)
      rw [Nat.add_zero, h0] at h'
      have : bs[0]? ≠ none := by simp [hl]
      exact this h'.symm
    | some b =>
      cases hr : c.readRun (off + 1) n with
      | error a =>
        simp only [reduceCtorEq, false_iff, not_and]
        intro hl h
        have : c.readRun (off + 1) n = .ok bs.tail := by
          refine (ih (off := off + 1) (bs := bs.tail)).2 ⟨by simp [hl], fun i hi => ?_⟩
          have := h (i + 1) (Nat.succ_lt_succ hi)
          rw [show off + 1 + i = off + (i + 1) by omega, this]
          simp [List.getElem?_tail]
        rw [hr] at this
        cases this
      | ok cs =>
        obtain ⟨hl, hi⟩ := (ih (off := off + 1) (bs := cs)).1 hr
        simp only [Except.ok.injEq]
        constructor
        · rintro rfl
          refine ⟨by simp [hl], fun i hlt => ?_⟩
          cases i with
          | zero => simpa using h0
          | succ i =>
            have := hi i (Nat.lt_of_succ_lt_succ hlt)
            rw [show off + (i + 1) = off + 1 + i by omega, this]
            simp
        · rintro ⟨hl', h⟩
          cases bs with
          | nil => simp at hl'
          | cons x xs =>
            have hx := h 0 (Nat.succ_pos n)
            rw [Nat.add_zero, h0] at hx
            have hxs : cs = xs := by
              refine List.ext_getElem? fun i => ?_
              by_cases hlt : i < n
              · have h1 := hi i hlt
                have h2 := h (i + 1) (Nat.succ_lt_succ hlt)
                rw [show off + (i + 1) = off + 1 + i by omega] at h2
                rw [← h1, h2]
                simp
              · have hxl : xs.length = n := by simpa using hl'
                rw [List.getElem?_eq_none (by omega), List.getElem?_eq_none (by omega)]
            simp at hx
            rw [hx, hxs]

/-- A run of loads stops at the first slot without a value (R238). -/
theorem Chan.readRun_eq_error {c : Chan} {off n a : Nat} :
    c.readRun off n = .error a ↔ ∃ i, i < n ∧ a = (off + i) % c.cap ∧ c.slot? a = none ∧
      ∀ j, j < i → (c.slot? ((off + j) % c.cap)).isSome := by
  induction n generalizing off with
  | zero => simp [Chan.readRun]
  | succ n ih =>
    simp only [Chan.readRun]
    cases h0 : c.slot? (off % c.cap) with
    | none =>
      simp only [Except.error.injEq]
      constructor
      · rintro rfl
        exact ⟨0, Nat.succ_pos n, rfl, h0, fun j hj => absurd hj (Nat.not_lt_zero j)⟩
      · rintro ⟨i, hi, ha, hn, hs⟩
        cases i with
        | zero => exact ha.symm
        | succ i =>
          have := hs 0 (Nat.succ_pos i)
          simp [h0] at this
    | some b =>
      have key : (∃ i, i < n + 1 ∧ a = (off + i) % c.cap ∧ c.slot? a = none ∧
            ∀ j, j < i → (c.slot? ((off + j) % c.cap)).isSome) ↔
          ∃ i, i < n ∧ a = (off + 1 + i) % c.cap ∧ c.slot? a = none ∧
            ∀ j, j < i → (c.slot? ((off + 1 + j) % c.cap)).isSome := by
        constructor
        · rintro ⟨i, hi, ha, hn, hs⟩
          cases i with
          | zero => rw [ha, Nat.add_zero, h0] at hn; cases hn
          | succ i =>
            refine ⟨i, Nat.lt_of_succ_lt_succ hi, by rw [ha]; congr 1; omega, hn, fun j hj => ?_⟩
            have := hs (j + 1) (Nat.succ_lt_succ hj)
            rwa [show off + (j + 1) = off + 1 + j by omega] at this
        · rintro ⟨i, hi, ha, hn, hs⟩
          refine ⟨i + 1, Nat.succ_lt_succ hi, by rw [ha]; congr 1; omega, hn, fun j hj => ?_⟩
          cases j with
          | zero => simp [h0]
          | succ j =>
            have := hs j (Nat.lt_of_succ_lt_succ hj)
            rwa [show off + 1 + j = off + (j + 1) by omega] at this
      cases hr : c.readRun (off + 1) n with
      | error a' => rw [key, ← ih, hr]
      | ok cs =>
        rw [key, ← ih, hr]
        simp

end Sys2Proof.Machine
end

