-- ==== Sys2Proof/Laws/Invariant.lean ====
section
/-! SUPPORT. A channel's invariant and history under each of its operations, and what the visible bytes of a channel are
under the invariant. -/
namespace Sys2Proof.Machine

/-- Two numbers less than `n` apart that agree modulo `n` are the same. -/
theorem mod_inj_of_lt {a b n : Nat} (h : a % n = b % n) (hab : a ≤ b) (hb : b < a + n) : a = b := by
  obtain ⟨d, rfl⟩ := Nat.exists_eq_add_of_le hab
  have hn : 0 < n := by omega
  have hr : a % n < n := Nat.mod_lt _ hn
  rw [← Nat.mod_add_mod] at h
  rcases Nat.lt_or_ge (a % n + d) n with hlt | hge
  · rw [Nat.mod_eq_of_lt hlt] at h
    omega
  · have h2 : (a % n + d - n) % n = a % n + d - n := Nat.mod_eq_of_lt (by omega)
    rw [Nat.mod_eq_sub_mod hge, h2] at h
    omega

namespace Chan

theorem Wf.fresh {cap c0 : Nat} (h2 : 2 ≤ cap) (h0 : c0 < cap) : (Chan.fresh cap c0).Wf c0 where
  two_le := h2
  start_lt := h0
  wr_eq := (Nat.mod_eq_of_lt h0).symm
  rd_eq := (Nat.mod_eq_of_lt h0).symm
  consumed_le := Nat.le_refl _
  read_once := by simp [Chan.fresh]
  canonical := List.Pairwise.nil
  written := by simp [Chan.fresh, Chan.slot?, Memory.read]

variable {c0 : Nat} {c : Chan}

theorem Wf.cap_pos (h : c.Wf c0) : 0 < c.cap := Nat.lt_of_lt_of_le Nat.two_pos h.two_le

theorem Wf.wr_lt (h : c.Wf c0) : c.wr < c.cap := h.wr_eq ▸ Nat.mod_lt _ h.cap_pos

theorem Wf.rd_lt (h : c.Wf c0) : c.rd < c.cap := h.rd_eq ▸ Nat.mod_lt _ h.cap_pos

theorem Wf.push (h : c.Wf c0) (b : Byte) : (c.pushByte b).Wf c0 where
  two_le := h.two_le
  start_lt := h.start_lt
  wr_eq := by simp [nextSlot, h.wr_eq, Nat.add_assoc]
  rd_eq := h.rd_eq
  consumed_le := Nat.le_succ_of_le h.consumed_le
  read_once := h.read_once
  canonical := Memory.wf_write h.canonical _ _
  written := fun a => by
    rw [Chan.pushByte_slot]
    simp only [Chan.pushByte_pushed, Chan.pushByte_cap]
    by_cases ha : a = c.wr
    · rw [if_pos ha]
      exact ⟨fun _ => ⟨c.pushed, Nat.lt_succ_self _, by rw [ha, h.wr_eq]⟩, fun _ => rfl⟩
    · rw [if_neg ha, h.written a]
      constructor
      · rintro ⟨j, hj, he⟩
        exact ⟨j, Nat.lt_succ_of_lt hj, he⟩
      · rintro ⟨j, hj, he⟩
        rcases Nat.lt_succ_iff_lt_or_eq.1 hj with hj | hj
        · exact ⟨j, hj, he⟩
        · exact absurd (by rw [he, hj, h.wr_eq]) ha

theorem Wf.push_bytes (h : c.Wf c0) (bs : List Byte) : (c.pushBytes bs).Wf c0 := by
  induction bs generalizing c with
  | nil => exact h
  | cons b bs ih => exact ih (h.push b)

/-- On a channel with data something is unread: `R < W`. -/
theorem Wf.consumed_lt (h : c.Wf c0) (hd : c.rd ≠ c.wr) : c.consumed < c.pushed := by
  refine Nat.lt_of_le_of_ne h.consumed_le fun he => hd ?_
  rw [h.rd_eq, h.wr_eq, he]

theorem Wf.consumes (h : c.Wf c0) (hd : c.rd ≠ c.wr) : c.consume.Wf c0 where
  two_le := h.two_le
  start_lt := h.start_lt
  wr_eq := h.wr_eq
  rd_eq := by simp [nextSlot, h.rd_eq, Nat.add_assoc]
  consumed_le := h.consumed_lt hd
  read_once := fun _ => Nat.succ_le_succ (Nat.zero_le _)
  canonical := h.canonical
  written := h.written

theorem Wf.looks (h : c.Wf c0) : c.look.Wf c0 where
  two_le := h.two_le
  start_lt := h.start_lt
  wr_eq := h.wr_eq
  rd_eq := h.rd_eq
  consumed_le := h.consumed_le
  read_once := by simp
  canonical := h.canonical
  written := h.written

theorem prevSlot_mod {cap x : Nat} (hc : 0 < cap) (hx : 1 ≤ x) : prevSlot cap (x % cap) = (x - 1) % cap := by
  unfold prevSlot
  rw [show x % cap + cap - 1 = (cap - 1) + x % cap by omega, Nat.add_mod_mod,
    show cap - 1 + x = cap + (x - 1) by omega, Nat.add_mod_left]

theorem Wf.unconsumes (h : c.Wf c0) (hr : c.justRead = true) : c.unconsume.Wf c0 where
  two_le := h.two_le
  start_lt := h.start_lt
  wr_eq := h.wr_eq
  rd_eq := by
    have h1 := h.read_once hr
    simp only [Chan.unconsume_rd, Chan.unconsume_cap, Chan.unconsume_consumed, h.rd_eq]
    rw [prevSlot_mod h.cap_pos (by omega)]
    congr 1
    omega
  consumed_le := Nat.le_trans (Nat.sub_le _ _) h.consumed_le
  read_once := by simp
  canonical := h.canonical
  written := h.written

/-- The occupancy the hardware shows is the backlog modulo `C` (R17). -/
theorem Wf.occ_eq (h : c.Wf c0) : c.occ = (c.pushed - c.consumed) % c.cap := by
  have hc := h.cap_pos
  have h1 := Nat.div_add_mod (c0 + c.consumed) c.cap
  have hr := h.rd_lt
  have hle := h.consumed_le
  unfold Chan.occ
  rw [h.wr_eq, Nat.add_sub_assoc (Nat.le_of_lt hr), Nat.mod_add_mod]
  rw [h.rd_eq]
  have hm : (c0 + c.consumed) % c.cap < c.cap := Nat.mod_lt _ hc
  have : c0 + c.pushed + (c.cap - (c0 + c.consumed) % c.cap) =
      (c.pushed - c.consumed) + c.cap * ((c0 + c.consumed) / c.cap + 1) := by
    rw [Nat.mul_add, Nat.mul_one]
    omega
  rw [this, Nat.add_mul_mod_self_left]

/-- Data is shown exactly if `occ` is not 0 (R111, R120.5). -/
theorem Wf.occ_pos_iff (h : c.Wf c0) : 0 < c.occ ↔ c.rd ≠ c.wr := by
  have hw := h.wr_lt
  have hr := h.rd_lt
  unfold Chan.occ
  constructor
  · intro hp he
    rw [he, Nat.add_sub_cancel_left, Nat.mod_self] at hp
    exact absurd hp (Nat.lt_irrefl 0)
  · intro hne
    rcases Nat.lt_or_ge c.wr c.rd with hlt | hge
    · rw [Nat.mod_eq_of_lt (by omega)]
      omega
    · rw [show c.wr + c.cap - c.rd = (c.wr - c.rd) + c.cap by omega, Nat.add_mod_right, Nat.mod_eq_of_lt (by omega)]
      omega

/-- Every visible slot has a value (R25): POP, PEEK and DEC_STEP never read an unwritten one. -/
theorem Wf.visible_written (h : c.Wf c0) {i : Nat} (hi : i < c.occ) : (c.slot? ((c.rd + i) % c.cap)).isSome := by
  rw [h.occ_eq] at hi
  refine (h.written _).2 ⟨c.consumed + i, ?_, ?_⟩
  · have := Nat.mod_le (c.pushed - c.consumed) c.cap
    have := h.consumed_le
    omega
  · rw [h.rd_eq, Nat.mod_add_mod, Nat.add_assoc]

theorem Wf.oldest (h : c.Wf c0) (hd : c.rd ≠ c.wr) : ∃ b, c.slot? c.rd = some b := by
  have := h.visible_written (i := 0) (h.occ_pos_iff.2 hd)
  rw [Nat.add_zero, Nat.mod_eq_of_lt h.rd_lt] at this
  exact Option.isSome_iff_exists.1 this

theorem filterMap_range_spec {f : Nat → Option Byte} {n : Nat} (h : ∀ i, i < n → (f i).isSome) :
    ((List.range n).filterMap f).length = n ∧ ∀ i, i < n → f i = ((List.range n).filterMap f)[i]? := by
  induction n with
  | zero => simp
  | succ n ih =>
    obtain ⟨hl, hi⟩ := ih fun i hlt => h i (Nat.lt_succ_of_lt hlt)
    obtain ⟨b, hb⟩ := Option.isSome_iff_exists.1 (h n (Nat.lt_succ_self n))
    have e : (List.range (n + 1)).filterMap f = (List.range n).filterMap f ++ [b] := by
      simp [List.range_succ, List.filterMap_append, hb]
    rw [e]
    refine ⟨by simp [hl], fun i hlt => ?_⟩
    by_cases he : i = n
    · subst he
      rw [hb, List.getElem?_append_right (by omega), hl, Nat.sub_self]
      rfl
    · rw [List.getElem?_append_left (by omega)]
      exact hi i (by omega)

/-- The visible contents are `occ` bytes, the bytes of the slots from `rd` on (R37). -/
theorem Wf.contents_spec (h : c.Wf c0) :
    c.contents.length = c.occ ∧ ∀ i, i < c.occ → c.slot? ((c.rd + i) % c.cap) = c.contents[i]? :=
  filterMap_range_spec fun _ hi => h.visible_written hi

/-- A byte string is the visible contents if it has `occ` bytes and they stand in the slots from `rd` on. -/
theorem Wf.contents_eq (h : c.Wf c0) {bs : List Byte} (hl : bs.length = c.occ)
    (hi : ∀ i, i < c.occ → c.slot? ((c.rd + i) % c.cap) = bs[i]?) : c.contents = bs := by
  obtain ⟨hl', hi'⟩ := h.contents_spec
  refine List.ext_getElem? fun i => ?_
  by_cases hlt : i < c.occ
  · rw [← hi' i hlt, hi i hlt]
  · rw [List.getElem?_eq_none (by omega), List.getElem?_eq_none (by omega)]

theorem Holds.fresh (cap c0 : Nat) : (Chan.fresh cap c0).Holds c0 [] where
  length_eq := rfl
  slot_eq := fun j hj => absurd hj (Nat.not_lt_zero j)

/-- A PUSH appends to the history (R271). -/
theorem Holds.push {hist : List Byte} (h : c.Holds c0 hist) (hw : c.Wf c0) (b : Byte) :
    (c.pushByte b).Holds c0 (hist ++ [b]) where
  length_eq := by simp [h.length_eq]
  slot_eq := fun j hj hc => by
    simp only [Chan.pushByte_pushed, Chan.pushByte_cap] at hj hc ⊢
    rw [Chan.pushByte_slot, hw.wr_eq]
    by_cases he : j = c.pushed
    · subst he
      rw [if_pos rfl, ← h.length_eq]
      simp
    · have hlt : j < c.pushed := by omega
      rw [if_neg, h.slot_eq j hlt (by omega), List.getElem?_append_left (by rw [h.length_eq]; exact hlt)]
      intro hm
      exact he (by have := mod_inj_of_lt hm (by omega) (by omega); omega)

end Chan

end Sys2Proof.Machine
end

