-- ==== Sys2Proof/Laws/Answer.lean ====
section
/-! SUPPORT. What a sequence of PUSHes, an ENCODE and the collaborator's answer can do: the block's inbound stores,
cursors and decoders stay, outbound channels only receive bytes. -/
namespace Sys2Proof.Machine

/-! ### Sequences of PUSHes -/

theorem OnlyChannel.refl (ch : ChanId) (s : State) : OnlyChannel ch s s :=
  ⟨⟨rfl, rfl, rfl, rfl, rfl, rfl⟩, rfl, fun _ => rfl, fun _ _ => rfl⟩

theorem OnlyChannel.trans {ch : ChanId} {s t u : State} (h1 : OnlyChannel ch s t) (h2 : OnlyChannel ch t u) :
    OnlyChannel ch s u := by
  obtain ⟨⟨a1, a2, a3, a4, a5, a6⟩, a7, a8, a9⟩ := h1
  obtain ⟨⟨b1, b2, b3, b4, b5, b6⟩, b7, b8, b9⟩ := h2
  exact ⟨⟨b1.trans a1, b2.trans a2, b3.trans a3, b4.trans a4, b5.trans a5, b6.trans a6⟩, b7.trans a7,
    fun l => (b8 l).trans (a8 l), fun o ho => (b9 o ho).trans (a9 o ho)⟩

theorem OnlyChannel.setChan (s : State) (ch : ChanId) (c : Chan) : OnlyChannel ch s (s.setChan ch c) :=
  ⟨⟨rfl, rfl, rfl, rfl, rfl, rfl⟩, rfl, fun l => State.setChan_dec? s ch c l,
    fun _ h => State.setChan_chan?_ne s ch c h⟩

theorem OnlyChannel.note {ch : ChanId} {s t : State} (h : OnlyChannel ch s t) (x : Label) : OnlyChannel ch s (t.note x) :=
  h

theorem OnlyChannel.noteOpt {ch : ChanId} {s t : State} (h : OnlyChannel ch s t) (o : Option Label) :
    OnlyChannel ch s (t.noteOpt o) := by
  cases o <;> exact h

/-- One PUSH on a channel that is there (R110). -/
theorem pushEvent_spec {ch : ChanId} {s : State} {c : Chan} (h : s.chan? ch = some c) (b : Byte) :
    ∃ t, pushEvent ch b s = .next t ∧ t.chan? ch = some (c.pushByte b) ∧ OnlyChannel ch s t ∧
      t.trace = (if c.atLimit then [.overrun ch] else []) ++ s.trace :=
  ⟨_, pushEvent_of_some h b, by simp [State.setChan_chan?_self, h],
    (OnlyChannel.setChan s ch _).noteOpt _, by cases c.atLimit <;> simp⟩

/-- PUSHes in order on a channel that is there always answer, and change no other channel. -/
theorem pushAll_spec {ch : ChanId} (bs : List Byte) {s : State} {c : Chan} (h : s.chan? ch = some c) :
    ∃ t, pushAll ch bs s = .next t ∧ t.chan? ch = some (c.pushBytes bs) ∧ OnlyChannel ch s t := by
  induction bs generalizing s c with
  | nil => exact ⟨s, rfl, h, OnlyChannel.refl ch s⟩
  | cons b bs ih =>
    obtain ⟨t, ht, hc, ho, -⟩ := pushEvent_spec h b
    obtain ⟨u, hu, hcu, hou⟩ := ih hc
    exact ⟨u, by simp [pushAll, ht, hu], hcu, ho.trans hou⟩

/-- The rest of an ENCODE pushes what is left and then the running XOR (R180, R181). -/
theorem pushRun_spec {enc : Nat} (rest : List Byte) (cks : Byte) {s : State} {c : Chan}
    (h : s.chan? ⟨enc, .outbound⟩ = some c) :
    ∃ t, pushRun enc rest cks s = .next t ∧
      t.chan? ⟨enc, .outbound⟩ = some (c.pushBytes (rest ++ [cks ^^^ xorBytes rest])) ∧
      OnlyChannel ⟨enc, .outbound⟩ s t := by
  induction rest generalizing s c cks with
  | nil =>
    obtain ⟨t, ht, hc, ho, -⟩ := pushEvent_spec h cks
    exact ⟨t.note (.encodeDone enc), by simp [pushRun, ht], by simpa [xorBytes] using hc, ho⟩
  | cons b bs ih =>
    obtain ⟨t, ht, hc, ho, -⟩ := pushEvent_spec h b
    obtain ⟨u, hu, hcu, hou⟩ := ih (cks ^^^ b) hc
    exact ⟨u, by simp [pushRun, ht, hu], by simpa [xorBytes, BitVec.xor_assoc] using hcu, ho.trans hou⟩

/-- An ENCODE within `ENC_MAX` on a link that is there pushes exactly `frame(p)` (R187). -/
theorem encodeFrame_spec {enc : Nat} {p : List Byte} {s : State} {c : Chan}
    (h : s.chan? ⟨enc, .outbound⟩ = some c) (hp : p.length ≤ s.params.encMax) :
    ∃ t, encodeFrame enc p s = .next t ∧
      t.chan? ⟨enc, .outbound⟩ = some (c.pushBytes (frameBytes s.params p)) ∧ OnlyChannel ⟨enc, .outbound⟩ s t := by
  obtain ⟨k, hk, -⟩ := State.chan?_eq_some.1 h
  obtain ⟨t, ht, hc, ho⟩ := pushRun_spec (frameBody s.params p) 0 h
  exact ⟨t, by
    rw [encodeFrame, withLink_of_some hk, if_neg (Nat.not_lt.2 hp), ht], by simpa [frameBytes] using hc, ho⟩

/-- An ENCODE answers only within `ENC_MAX` and on a link that is there (R182). -/
theorem encodeFrame_next {enc : Nat} {p : List Byte} {s t : State} (h : encodeFrame enc p s = .next t) :
    p.length ≤ s.params.encMax ∧ ∃ c, s.chan? ⟨enc, .outbound⟩ = some c := by
  obtain ⟨k, hk, hf⟩ := withLink_eq_next.1 h
  refine ⟨?_, _, State.chan?_eq_some.2 ⟨k, hk, rfl⟩⟩
  by_cases hp : s.params.encMax < p.length
  · simp [hp] at hf
  · exact Nat.not_lt.1 hp

/-! ### The collaborator's answer -/

/-- What an answer can do to a link: its decoder stays, its inbound channel is at most looked at, its outbound channel
receives bytes. -/
def Link.Answered (k k' : Link) : Prop :=
  k'.dec = k.dec ∧ (k'.inCh = k.inCh ∨ k'.inCh = k.inCh.look) ∧ ∃ bs, k'.outCh = k.outCh.pushBytes bs

theorem Link.Answered.refl (k : Link) : k.Answered k := ⟨rfl, .inl rfl, [], rfl⟩

theorem Link.Answered.trans {a b c : Link} (h1 : a.Answered b) (h2 : b.Answered c) : a.Answered c := by
  obtain ⟨d1, i1, bs1, o1⟩ := h1
  obtain ⟨d2, i2, bs2, o2⟩ := h2
  refine ⟨d2.trans d1, ?_, bs1 ++ bs2, by rw [o2, o1, Chan.pushBytes_append]⟩
  rcases i1 with i1 | i1 <;> rcases i2 with i2 | i2 <;> rw [i2, i1] <;> first | exact .inl rfl | exact .inr rfl

/-- What an answer can do to the machine. -/
structure State.Answered (s t : State) : Prop where
  params_eq : t.params = s.params
  booted_eq : t.booted = s.booted
  tasks_eq : t.tasks = s.tasks
  input_eq : t.input = s.input
  raised_eq : t.raised = s.raised
  responder_eq : t.responder = s.responder
  trace_ext : ∃ xs, t.trace = xs ++ s.trace ∧ ∀ x ∈ xs, Label.OfAnswer x
  length_eq : t.links.length = s.links.length
  link : ∀ (l : Nat) (k : Link), s.links[l]? = some k → ∃ k', t.links[l]? = some k' ∧ k.Answered k'

theorem State.Answered.refl (s : State) : s.Answered s :=
  ⟨rfl, rfl, rfl, rfl, rfl, rfl, ⟨[], rfl, by simp⟩, rfl, fun _ k h => ⟨k, h, Link.Answered.refl k⟩⟩

theorem State.Answered.trans {s t u : State} (h1 : s.Answered t) (h2 : t.Answered u) : s.Answered u where
  params_eq := h2.params_eq.trans h1.params_eq
  booted_eq := h2.booted_eq.trans h1.booted_eq
  tasks_eq := h2.tasks_eq.trans h1.tasks_eq
  input_eq := h2.input_eq.trans h1.input_eq
  raised_eq := h2.raised_eq.trans h1.raised_eq
  responder_eq := h2.responder_eq.trans h1.responder_eq
  trace_ext := by
    obtain ⟨xs, hx, ax⟩ := h1.trace_ext
    obtain ⟨ys, hy, ay⟩ := h2.trace_ext
    refine ⟨ys ++ xs, by rw [hy, hx, List.append_assoc], fun x hm => ?_⟩
    exact (List.mem_append.1 hm).elim (ay x) (ax x)
  length_eq := h2.length_eq.trans h1.length_eq
  link := fun l k hk => by
    obtain ⟨k1, hk1, a1⟩ := h1.link l k hk
    obtain ⟨k2, hk2, a2⟩ := h2.link l k1 hk1
    exact ⟨k2, hk2, a1.trans a2⟩

/-- A PUSH on an outbound channel is such an answer. -/
theorem pushEvent_answered {enc : Nat} {b : Byte} {s t : State} (h : pushEvent ⟨enc, .outbound⟩ b s = .next t) :
    s.Answered t := by
  obtain ⟨c, hc, rfl⟩ := pushEvent_eq_next.1 h
  refine ⟨by simp, by simp, by simp, by simp, by simp, by simp,
    ⟨_, State.noteOpt_trace _ _, fun x hx => ?_⟩, by simp, fun l k hk => ?_⟩
  · split at hx
    · exact .inr ⟨enc, by simpa using hx⟩
    · simp at hx
  simp only [State.noteOpt_links, State.setChan_getElem?]
  by_cases hl : enc = l
  · subst hl
    obtain ⟨k', hk', rfl⟩ := State.chan?_eq_some.1 hc
    simp only at hk'
    rw [hk] at hk'
    cases hk'
    exact ⟨{ k with outCh := k.outCh.pushByte b }, by simp [hk], rfl, .inl rfl, [b], rfl⟩
  · exact ⟨k, by simp [hl, hk], Link.Answered.refl k⟩

theorem pushRun_answered {enc : Nat} {rest : List Byte} {cks : Byte} {s t : State}
    (h : pushRun enc rest cks s = .next t) : s.Answered t := by
  induction rest generalizing s cks with
  | nil =>
    obtain ⟨u, hu, ht⟩ := andThen_eq_next.1 h
    have := pushEvent_answered hu
    cases ht
    obtain ⟨xs, hx, ax⟩ := this.trace_ext
    exact ⟨this.params_eq, this.booted_eq, this.tasks_eq, this.input_eq, this.raised_eq, this.responder_eq,
      ⟨.encodeDone enc :: xs, by simp [hx], List.forall_mem_cons.2 ⟨.inl ⟨enc, rfl⟩, ax⟩⟩, this.length_eq, this.link⟩
  | cons b bs ih =>
    obtain ⟨u, hu, ht⟩ := andThen_eq_next.1 h
    exact (pushEvent_answered hu).trans (ih ht)

theorem encodeFrame_answered {enc : Nat} {p : List Byte} {s t : State} (h : encodeFrame enc p s = .next t) :
    s.Answered t := by
  obtain ⟨k, hk, hf⟩ := withLink_eq_next.1 h
  split at hf
  · cases hf
  · exact pushRun_answered hf

/-- A configuration record's copy looks at the inbound channel and writes the record (R212). -/
theorem copyRecord_answered {l off : Nat} {s t : State} (h : copyRecord l off s = .next t) : s.Answered t := by
  obtain ⟨c, hc, hf⟩ := withChan_eq_next.1 h
  obtain ⟨-, -, bs, -, ht⟩ := withView_eq_next.1 hf
  cases ht
  refine ⟨rfl, rfl, rfl, rfl, rfl, rfl, ⟨[], rfl, by simp⟩, by simp, fun j k hk => ?_⟩
  simp only [State.setChan_getElem?]
  by_cases hl : l = j
  · subst hl
    obtain ⟨k', hk', rfl⟩ := State.chan?_eq_some.1 hc
    simp only at hk'
    rw [hk] at hk'
    cases hk'
    exact ⟨{ k with inCh := k.inCh.look }, by simp [hk], rfl, .inr rfl, [], rfl⟩
  · exact ⟨k, by simp [hl, hk], Link.Answered.refl k⟩

theorem runReply_answered {r : Reply} {s t : State} (h : runReply r s = .next t) : s.Answered t := by
  cases r with
  | encode enc p => exact encodeFrame_answered h
  | copyRecord l off => exact copyRecord_answered h

theorem runReplies_answered {rs : List Reply} {s t : State} (h : runReplies rs s = .next t) : s.Answered t := by
  induction rs generalizing s with
  | nil => cases h; exact State.Answered.refl _
  | cons r rs ih =>
    obtain ⟨u, hu, ht⟩ := andThen_eq_next.1 h
    exact (runReply_answered hu).trans (ih ht)

/-- Delivering a dispatch leaves none standing and is otherwise an answer (R209). -/
theorem deliver_answered {s t : State} (h : deliver s = .next t) : ({ s with raised := none } : State).Answered t := by
  unfold deliver at h
  cases hr : s.raised with
  | none =>
    rw [hr] at h
    cases h
    have : ({ s with raised := none } : State) = s := by rw [← hr]
    rw [this]
    exact State.Answered.refl s
  | some d =>
    rw [hr] at h
    exact runReplies_answered h

/-- With no dispatch standing there is nothing to deliver. -/
theorem deliver_of_none {s : State} (h : s.raised = none) : deliver s = .next s := by simp [deliver, h]

/-- A collaborator that answers nothing (R208). -/
theorem deliver_of_silent {s : State} (h : s.Silent) : deliver s = .next { s with raised := none } := by
  unfold deliver
  cases hr : s.raised with
  | none => simp [← hr]
  | some d => simp [h d, runReplies]

/-! ### Collaborators that cannot fail -/

/-- The slots of an inbound channel, its cursors and its capacity are as before an answer. -/
theorem Link.Answered.inbound_eq {k k' : Link} (h : k.Answered k') :
    k'.inCh.cap = k.inCh.cap ∧ k'.inCh.rd = k.inCh.rd ∧ k'.inCh.wr = k.inCh.wr ∧ k'.inCh.mem = k.inCh.mem := by
  obtain ⟨-, h | h, -⟩ := h <;> rw [h] <;> exact ⟨rfl, rfl, rfl, rfl⟩

/-- What fits stays fitting through an answer. -/
theorem Reply.Fits.answered {s t : State} (h : s.Answered t) {r : Reply} (hr : r.Fits s) : r.Fits t := by
  cases r with
  | encode enc p => exact ⟨by rw [h.length_eq]; exact hr.1, by rw [h.params_eq]; exact hr.2⟩
  | copyRecord l off =>
    obtain ⟨k, hk, hc, hw⟩ := hr
    obtain ⟨k', hk', ha⟩ := h.link l k hk
    obtain ⟨e1, -, -, e4⟩ := ha.inbound_eq
    refine ⟨k', hk', by rw [h.params_eq, e1]; exact hc, fun a hlt => ?_⟩
    rw [Chan.slot?, e4]
    exact hw a (e1 ▸ hlt)

/-- A reply that fits answers, on a machine all of whose channels have slots. -/
theorem runReply_of_fits {s : State} {r : Reply} (h : r.Fits s)
    (hc : ∀ (l : Nat) (k : Link), s.links[l]? = some k → 0 < k.inCh.cap) : ∃ t, runReply r s = .next t := by
  cases r with
  | encode enc p =>
    obtain ⟨t, ht, -⟩ := encodeFrame_spec (enc := enc) (s := s)
      (State.chan?_eq_some.2 ⟨_, List.getElem?_eq_getElem h.1, rfl⟩) h.2
    exact ⟨t, ht⟩
  | copyRecord l off =>
    obtain ⟨k, hk, hsz, hw⟩ := h
    have hpos := hc l k hk
    have hrun : ∀ n off, ∃ bs, k.inCh.readRun off n = .ok bs := by
      intro n
      induction n with
      | zero => exact fun _ => ⟨[], rfl⟩
      | succ n ih =>
        intro off
        obtain ⟨b, hb⟩ := Option.isSome_iff_exists.1 (hw _ (Nat.mod_lt off hpos))
        obtain ⟨bs, hbs⟩ := ih (off + 1)
        exact ⟨b :: bs, by simp [Chan.readRun, hb, hbs]⟩
    obtain ⟨bs, hbs⟩ := hrun s.params.recordSize (nextSlot k.inCh.cap off)
    refine ⟨{ s.setChan ⟨l, .inbound⟩ k.inCh.look with record := bs }, ?_⟩
    show copyRecord l off s = _
    rw [copyRecord, withChan_of_some (State.chan?_eq_some.2 ⟨k, hk, rfl⟩)]
    exact withView_eq_next.2 ⟨hsz, Nat.mod_lt _ hpos, bs, hbs, rfl⟩

/-- Replies that fit answer. -/
theorem runReplies_of_fits {rs : List Reply} {s : State} (h : ∀ r ∈ rs, r.Fits s)
    (hc : ∀ (l : Nat) (k : Link), s.links[l]? = some k → 0 < k.inCh.cap) : ∃ t, runReplies rs s = .next t := by
  induction rs generalizing s with
  | nil => exact ⟨s, rfl⟩
  | cons r rs ih =>
    obtain ⟨u, hu⟩ := runReply_of_fits (h r List.mem_cons_self) hc
    have ha := runReply_answered hu
    obtain ⟨t, ht⟩ := ih (s := u) (fun q hq => (h q (List.mem_cons_of_mem _ hq)).answered ha) fun l k' hk' => by
      obtain ⟨k, hk⟩ : ∃ k, s.links[l]? = some k :=
        ⟨_, List.getElem?_eq_getElem (ha.length_eq ▸ (List.getElem?_eq_some_iff.1 hk').1)⟩
      obtain ⟨k2, hk2, ak⟩ := ha.link l k hk
      rw [hk'] at hk2
      cases hk2
      rw [ak.inbound_eq.1]
      exact hc l k hk
    exact ⟨t, andThen_eq_next.2 ⟨u, hu, ht⟩⟩

/-- A standing dispatch of a link that is there is answered by a collaborator whose replies all fit (R208, R209). -/
theorem deliver_of_responsive {s : State} (h : s.Responsive)
    (hr : ∀ d, s.raised = some d → d.link < s.links.length)
    (hc : ∀ (l : Nat) (k : Link), s.links[l]? = some k → 0 < k.inCh.cap) : ∃ t, deliver s = .next t := by
  unfold deliver
  cases hd : s.raised with
  | none => exact ⟨s, rfl⟩
  | some d =>
    exact runReplies_of_fits (fun r hm => by
      have := h d (hr d hd) r hm
      cases r <;> exact this) hc

/-- The reference responder's replies fit (R216). -/
theorem reference_responsive {s : State} (h : s.responder = .reference) (h2 : 2 ≤ s.params.encMax) : s.Responsive := by
  intro d hd r hr
  simp only [h, answerOf, referenceReplies] at hr
  split at hr
  · simp at hr
  · split at hr
    · rw [List.mem_singleton.1 hr]
      exact ⟨hd, h2⟩
    · simp at hr

/-- A command answers exactly where a dispatch with its command byte stands (R104, R210). -/
theorem withCommand_eq_next {c : Command} {s t : State} {f : List Reply → State → Result} :
    withCommand c s f = .next t ↔ ∃ d b rest, s.raised = some d ∧ d.payload = b :: rest ∧ commandOf s.params b = c ∧
      f (commandReplies s.params d c) { s with raised := none } = .next t := by
  unfold withCommand
  cases hr : s.raised with
  | none => simp
  | some d =>
    cases hp : d.payload with
    | nil => simp [hp]
    | cons b rest =>
      by_cases hc : commandOf s.params b = c
      · simp [hp, hc]
      · simp [hp, hc]

end Sys2Proof.Machine
end

