-- ==== Sys2Proof/Laws/Codes.lean ====
section
/-! SUPPORT. The operand forms of codes (log 1): what each reader accepts is exactly the code of what it reads. -/
namespace Sys2Proof

/-! ### Numbers -/

theorem numBytes_of_lt {n : Nat} (h : n < 255) : numBytes n = [BitVec.ofNat 8 n] := by
  simp [numBytes, Nat.div_eq_of_lt h, Nat.mod_eq_of_lt h]

theorem numBytes_add (n : Nat) : numBytes (n + 255) = 255 :: numBytes n := by
  simp [numBytes, Nat.add_div_right, List.replicate_succ]

/-- A number has a byte for each 255 in it and one more. -/
@[simp] theorem numBytes_length (n : Nat) : (numBytes n).length = n / 255 + 1 := by simp [numBytes]

/-- A number's code reads back, whatever follows it. -/
@[simp] theorem readNum_numBytes (n : Nat) (rest : List Byte) : readNum (numBytes n ++ rest) = some (n, rest) := by
  induction n using Nat.strongRecOn with
  | ind n ih =>
    rcases Nat.lt_or_ge n 255 with h | h
    · have hv : (BitVec.ofNat 8 n).toNat = n := Nat.mod_eq_of_lt (by omega)
      have hb : BitVec.ofNat 8 n ≠ 255 := fun e => by
        rw [e] at hv
        exact absurd hv (by simp; omega)
      rw [numBytes_of_lt h, List.singleton_append, readNum, if_neg hb, hv]
    · obtain ⟨m, rfl⟩ := Nat.exists_eq_add_of_le' h
      simp [numBytes_add, readNum, ih m (by omega)]

/-- What is read as a number is the number's code: no number has two codes. -/
theorem readNum_eq_some {bytes rest : List Byte} {n : Nat} :
    readNum bytes = some (n, rest) ↔ bytes = numBytes n ++ rest := by
  refine ⟨fun h => ?_, fun h => h ▸ readNum_numBytes n rest⟩
  induction bytes generalizing n with
  | nil => cases h
  | cons b bs ih =>
    by_cases hb : b = 255
    · subst hb
      obtain ⟨⟨m, r⟩, hm, he⟩ := Option.map_eq_some_iff.1 (by rwa [readNum, if_pos rfl] at h)
      cases he
      rw [numBytes_add, List.cons_append, ← ih hm]
    · simp only [readNum, if_neg hb, Option.some.injEq, Prod.mk.injEq] at h
      obtain ⟨rfl, rfl⟩ := h
      have hlt : b.toNat < 255 := by
        have := b.isLt
        have : b.toNat ≠ 255 := fun e => hb (BitVec.eq_of_toNat_eq e)
        omega
      simp [numBytes_of_lt hlt]

/-! ### Operand forms -/

theorem dirOfByte_eq_some {b : Byte} {d : Dir} : dirOfByte b = some d ↔ b = dirByte d := by
  unfold dirOfByte
  cases d <;> by_cases h0 : b = 0 <;> by_cases h1 : b = 1 <;> simp_all [dirByte]

section Readers
variable {op : Byte} {i : Instr} {bytes : List Byte}

theorem onNumber_eq_instr {k : Nat → List Byte → Decoded} :
    onNumber op k bytes = .instr i ↔ ∃ n rest, bytes = numBytes n ++ rest ∧ k n rest = .instr i := by
  unfold onNumber
  cases h : readNum bytes with
  | none =>
    simp only [reduceCtorEq, false_iff]
    rintro ⟨n, rest, rfl, -⟩
    simp at h
  | some x =>
    obtain ⟨n, rest⟩ := x
    rw [readNum_eq_some] at h
    subst h
    constructor
    · exact fun hk => ⟨n, rest, rfl, hk⟩
    · rintro ⟨m, r, he, hk⟩
      have := readNum_numBytes n rest
      rw [he, readNum_numBytes] at this
      cases this
      exact hk

theorem onlyNumber_eq_instr {k : Nat → Instr} : onlyNumber op k bytes = .instr i ↔ ∃ n, bytes = numBytes n ∧ k n = i := by
  simp only [onlyNumber, onNumber_eq_instr]
  constructor
  · rintro ⟨n, rest, rfl, h⟩
    split at h
    · subst rest
      exact ⟨n, List.append_nil _, by simpa using h⟩
    · cases h
  · rintro ⟨n, rfl, rfl⟩
    exact ⟨n, [], (List.append_nil _).symm, rfl⟩

theorem onlyByte_eq_instr {k : Byte → Instr} : onlyByte op k bytes = .instr i ↔ ∃ b, bytes = [b] ∧ k b = i := by
  rcases bytes with _ | ⟨b, _ | ⟨c, bs⟩⟩ <;> simp [onlyByte]

theorem noOperand_eq_instr {j : Instr} : noOperand op j bytes = .instr i ↔ bytes = [] ∧ j = i := by
  cases bytes <;> simp [noOperand]

theorem onDirection_eq_instr {k : Dir → List Byte → Decoded} :
    onDirection op k bytes = .instr i ↔ ∃ d rest, bytes = dirByte d :: rest ∧ k d rest = .instr i := by
  cases bytes with
  | nil => simp [onDirection]
  | cons b rest =>
    simp only [onDirection, List.cons.injEq]
    cases h : dirOfByte b with
    | none =>
      simp only [reduceCtorEq, false_iff]
      rintro ⟨d, r, ⟨hb, -⟩, -⟩
      simp [dirOfByte_eq_some.2 hb] at h
    | some d =>
      constructor
      · exact fun hk => ⟨d, rest, ⟨dirOfByte_eq_some.1 h, rfl⟩, hk⟩
      · rintro ⟨e, r, ⟨hb, rfl⟩, hk⟩
        rw [dirOfByte_eq_some.2 hb] at h
        cases h
        exact hk

theorem onChannel_eq_instr {k : ChanId → List Byte → Decoded} :
    onChannel op k bytes = .instr i ↔ ∃ ch rest, bytes = chanBytes ch ++ rest ∧ k ch rest = .instr i := by
  simp only [onChannel, onNumber_eq_instr, onDirection_eq_instr]
  constructor
  · rintro ⟨l, -, rfl, d, rest, rfl, h⟩
    exact ⟨⟨l, d⟩, rest, by simp [chanBytes], h⟩
  · rintro ⟨⟨l, d⟩, rest, rfl, h⟩
    exact ⟨l, dirByte d :: rest, by simp [chanBytes], d, rest, rfl, h⟩

theorem onlyChannel_eq_instr {k : ChanId → Instr} :
    onlyChannel op k bytes = .instr i ↔ ∃ ch, bytes = chanBytes ch ∧ k ch = i := by
  simp only [onlyChannel, onChannel_eq_instr]
  constructor
  · rintro ⟨ch, rest, rfl, h⟩
    split at h
    · subst rest
      exact ⟨ch, List.append_nil _, by simpa using h⟩
    · cases h
  · rintro ⟨ch, rfl, rfl⟩
    exact ⟨ch, [], (List.append_nil _).symm, rfl⟩

end Readers

end Sys2Proof
end

