-- ==== Sys2Proof/Laws/Decoder.lean ====
section
/-! SUPPORT. What one DEC_STEP can do (spec/41_frame_decoder.md R140, R152). -/
namespace Sys2Proof.Machine

/-- A link after its decoder has reacted to a byte. -/
def Link.reacted (k : Link) (r : Reaction) : Link :=
  { k with inCh := if r.consume then k.inCh.consume else k.inCh.look, dec := r.dec }

section Settle
variable (l : Nat) (r : Reaction) (s : State)

@[simp] theorem settle_params : (settle l r s).params = s.params := by simp [settle]
@[simp] theorem settle_booted : (settle l r s).booted = s.booted := by simp [settle]
@[simp] theorem settle_raised : (settle l r s).raised = s.raised := by simp [settle]
@[simp] theorem settle_responder : (settle l r s).responder = s.responder := by simp [settle]
@[simp] theorem settle_record : (settle l r s).record = s.record := by simp [settle]
@[simp] theorem settle_tasks : (settle l r s).tasks = s.tasks := by simp [settle]
@[simp] theorem settle_input : (settle l r s).input = s.input := by simp [settle]
@[simp] theorem settle_trace : (settle l r s).trace = r.label.toList ++ s.trace := by simp [settle]
@[simp] theorem settle_links : (settle l r s).links = s.links.modify l (·.reacted r) := by
  simp [settle, State.modLink]
  rfl
@[simp] theorem settle_length : (settle l r s).links.length = s.links.length := by simp

theorem settle_self {k : Link} (h : s.links[l]? = some k) : (settle l r s).links[l]? = some (k.reacted r) := by
  simp [h]

theorem settle_ne {j : Nat} (h : j ≠ l) : (settle l r s).links[j]? = s.links[j]? := by
  simp [Ne.symm h]

end Settle

/-- The label and the output of a raised dispatch (R150). -/
def State.raise (s : State) (d : Dispatch) : State := ({ s with raised := some d } : State).note (.dispatched d)

section Raise
variable (s : State) (d : Dispatch)

@[simp] theorem State.raise_params : (s.raise d).params = s.params := rfl
@[simp] theorem State.raise_booted : (s.raise d).booted = s.booted := rfl
@[simp] theorem State.raise_links : (s.raise d).links = s.links := rfl
@[simp] theorem State.raise_raised : (s.raise d).raised = some d := rfl
@[simp] theorem State.raise_responder : (s.raise d).responder = s.responder := rfl
@[simp] theorem State.raise_record : (s.raise d).record = s.record := rfl
@[simp] theorem State.raise_tasks : (s.raise d).tasks = s.tasks := rfl
@[simp] theorem State.raise_input : (s.raise d).input = s.input := rfl
@[simp] theorem State.raise_trace : (s.raise d).trace = .dispatched d :: s.trace := rfl

end Raise

theorem raiseDispatch_eq_next {l : Nat} {c : Chan} {d : Dec} {s t : State} :
    raiseDispatch l c d s = .next t ↔
      ∃ bs, c.readRun d.startOff d.len.toNat = .ok bs ∧ t = s.raise ⟨l, d.startOff, d.len, bs⟩ := by
  unfold raiseDispatch
  cases c.readRun d.startOff d.len.toNat with
  | error a => simp
  | ok bs => simp [State.raise, eq_comm]

/-- What a DEC_STEP by one sub-case can do: with the oldest unread byte of `s`, and any dispatch that stood answered
(`u`), it settles the table's reaction, and a checksum match also raises the dispatch. -/
theorem decCase_eq_next {w : SubCase} {l : Nat} {s t : State} :
    decCase w l s = .next t ↔ ∃ k b u, s.links[l]? = some k ∧ k.inCh.rd ≠ k.inCh.wr ∧
      k.inCh.slot? k.inCh.rd = some b ∧ deliver s = .next u ∧
      (let r := react w s.params l k.inCh.cap k.inCh.rd k.dec b
      (r.dispatch = false ∧ t = settle l r u) ∨
        (r.dispatch = true ∧ ∃ bs, k.inCh.readRun r.dec.startOff r.dec.len.toNat = .ok bs ∧
          t = (settle l r u).raise ⟨l, r.dec.startOff, r.dec.len, bs⟩)) := by
  simp only [decCase, withLink_eq_next, withOldest_eq_next, andThen_eq_next]
  constructor
  · rintro ⟨k, hk, hne, b, hb, u, hu, ht⟩
    refine ⟨k, b, u, hk, hne, hb, hu, ?_⟩
    split at ht
    · exact .inr ⟨by assumption, raiseDispatch_eq_next.1 ht⟩
    · cases ht
      exact .inl ⟨by simp_all, rfl⟩
  · rintro ⟨k, b, u, hk, hne, hb, hu, h⟩
    refine ⟨k, hk, hne, b, hb, u, hu, ?_⟩
    rcases h with ⟨hd, rfl⟩ | ⟨hd, h⟩
    · simp [hd]
    · rw [if_pos hd]
      exact raiseDispatch_eq_next.2 h

theorem decStepOn_of_some {l : Nat} {s : State} {k : Link} (h : s.links[l]? = some k) :
    decStepOn l s = decCase k.dec.subCase l s := withLink_of_some h _

theorem decStepOn_eq_next {l : Nat} {s t : State} :
    decStepOn l s = .next t ↔ ∃ k, s.links[l]? = some k ∧ decCase k.dec.subCase l s = .next t := withLink_eq_next

theorem selectedCase_eq_next {w : SubCase} {l : Nat} {s t : State} :
    selectedCase w l s = .next t ↔ ∃ k, s.links[l]? = some k ∧ k.dec.subCase = w ∧ decCase w l s = .next t := by
  simp only [selectedCase, withLink_eq_next]
  constructor
  · rintro ⟨k, hk, h⟩
    split at h
    · exact ⟨k, hk, by assumption, h⟩
    · cases h
  · rintro ⟨k, hk, hw, h⟩
    exact ⟨k, hk, by rw [if_pos hw, h]⟩

/-- A sub-case that answers is the DEC_STEP of that state. -/
theorem selectedCase_step {w : SubCase} {l : Nat} {s t : State} (h : selectedCase w l s = .next t) :
    decStepOn l s = .next t := by
  obtain ⟨k, hk, rfl, ht⟩ := selectedCase_eq_next.1 h
  exact decStepOn_eq_next.2 ⟨k, hk, ht⟩

/-- A dispatch is raised by the checksum case only, which consumes its byte and keeps `start_off` and `len` (R149). -/
theorem react_dispatch {w : SubCase} {p : Params} {l cap rd : Nat} {d : Dec} {b : Byte}
    (h : (react w p l cap rd d b).dispatch = true) :
    w = .checksum ∧ b = d.acc ∧ react w p l cap rd d b = ⟨d.resync, true, none, true⟩ := by
  cases w <;> simp only [react, reactMagic1, reactMagic2, reactMagic3, reactMagic4, reactReadLength, reactReadToken,
    reactPayload, reactChecksum] at h ⊢ <;> (try split at h) <;> simp_all

/-- The XOR of a byte string continued. -/
theorem xorBytes_append (as bs : List Byte) : xorBytes (as ++ bs) = xorBytes as ^^^ xorBytes bs := by
  induction as with
  | nil => simp [xorBytes]
  | cons a as ih => simp [xorBytes, ih, BitVec.xor_assoc]

/-- In AWAIT_MAGIC_1 to READ_LENGTH nothing is asked of a decoder but that `start_off` is a slot. -/
theorem Dec.Wf.of_early {p : Params} {cap : Nat} {d : Dec} (h : d.startOff < cap) (h1 : d.st ≠ .readToken)
    (h2 : d.st ≠ .readPayload) : d.Wf p cap where
  start_lt := h
  remaining_le := fun h' => absurd h' h2
  taken_length := fun h' => absurd h' h2
  acc_eq := fun h' => absurd h' h2
  lenSlot_lt := fun h' => h'.elim (absurd · h1) (absurd · h2)
  start_eq := fun h' => h'.elim (absurd · h1) (absurd · h2)

theorem Dec.Wf.fresh {p : Params} {cap : Nat} (h : 0 < cap) : Dec.fresh.Wf p cap := .of_early h (by simp [Dec.fresh]) (by simp [Dec.fresh])

theorem Link.Wf.fresh {p : Params} {capIn capOut : Nat} (hi : 2 ≤ capIn) (ho : 2 ≤ capOut) (h1 : p.c0 < capIn)
    (h2 : p.c0 < capOut) : (Link.fresh capIn capOut p.c0).Wf p :=
  ⟨Chan.Wf.fresh hi h1, Dec.Wf.fresh (Nat.lt_of_lt_of_le Nat.two_pos hi), Chan.Wf.fresh ho h2⟩

/-- A reaction keeps the decoder's invariant (R33). -/
theorem react_wf {p : Params} {l cap rd : Nat} {d : Dec} {b : Byte} (hc : rd < cap) (h : d.Wf p cap) :
    (react d.subCase p l cap rd d b).dec.Wf p cap := by
  have hs := h.start_lt
  have hm : (rd + 2) % cap < cap := Nat.mod_lt _ (Nat.lt_of_le_of_lt (Nat.zero_le _) hc)
  have hre : d.resync.Wf p cap := .of_early hs (by simp) (by simp)
  unfold Dec.subCase
  cases hst : d.st with
  | awaitMagic1 => simp only [react, reactMagic1]; split <;> exact .of_early hs (by simp) (by simp)
  | awaitMagic2 => simp only [react, reactMagic2]; split <;> exact .of_early hs (by simp) (by simp)
  | awaitMagic3 => simp only [react, reactMagic3]; split <;> exact .of_early hs (by simp) (by simp)
  | awaitMagic4 => simp only [react, reactMagic4]; split <;> exact .of_early hs (by simp) (by simp)
  | readLength => exact ⟨hm, by simp [react, reactReadLength], by simp [react, reactReadLength],
      by simp [react, reactReadLength], fun _ => hc, fun _ => rfl⟩
  | readToken =>
    simp only [react, reactReadToken]
    split
    · refine ⟨hs, fun _ => Nat.le_refl _, fun _ => by simp, fun _ => ?_, fun _ => h.lenSlot_lt (.inl hst),
        fun _ => h.start_eq (.inl hst)⟩
      simp [xorBytes, Magic.bytes, BitVec.xor_assoc]
    · exact hre
  | readPayload =>
    by_cases hr : d.remaining = 0
    · simp only [hr, if_pos, react, reactChecksum]
      split <;> exact hre
    · have h1 := h.remaining_le hst
      have h2 : d.remaining.toNat ≠ 0 := fun h0 => hr (BitVec.eq_of_toNat_eq h0)
      have h3 : (d.remaining - 1).toNat = d.remaining.toNat - 1 := by
        have := d.remaining.isLt
        rw [BitVec.toNat_sub, show (1 : Byte).toNat = 1 from rfl]
        omega
      have h4 := h.taken_length hst
      simp only [hr, react, reactPayload]
      refine ⟨hs, fun _ => ?_, fun _ => ?_, fun _ => ?_, fun _ => h.lenSlot_lt (.inr hst),
        fun _ => h.start_eq (.inr hst)⟩
      · show (d.remaining - 1).toNat ≤ d.len.toNat
        omega
      · show (d.taken ++ [b]).length = d.len.toNat - (d.remaining - 1).toNat
        simp only [List.length_append, List.length_singleton]
        omega
      · show d.acc ^^^ b = xorBytes (p.magic.bytes ++ [d.len, p.token] ++ (d.taken ++ [b]))
        rw [h.acc_eq hst, ← List.append_assoc, xorBytes_append _ [b]]
        simp [xorBytes]

/-- Before a frame's length is matched nothing is asked. -/
theorem Dec.Ahead.of_early {c0 : Nat} {c : Chan} {d : Dec} (h1 : d.st ≠ .readToken) (h2 : d.st ≠ .readPayload) :
    d.Ahead c0 c := ⟨fun h => absurd h h1, fun h => absurd h h2⟩

/-- A reaction keeps a frame's payload behind the read cursor (R33.4). -/
theorem react_ahead {p : Params} {l : Nat} {d : Dec} {b : Byte} {c : Chan} (hw : c.Wf p.c0) (h : d.Ahead p.c0 c) :
    let r := react d.subCase p l c.cap c.rd d b
    r.dec.Ahead p.c0 (if r.consume then c.consume else c.look) := by
  have hre : ∀ c', d.resync.Ahead p.c0 c' := fun _ => .of_early (by simp) (by simp)
  unfold Dec.subCase
  cases hst : d.st with
  | awaitMagic1 => simp only [react, reactMagic1]; split <;> exact .of_early (by simp) (by simp)
  | awaitMagic2 => simp only [react, reactMagic2]; split <;> exact .of_early (by simp) (by simp)
  | awaitMagic3 => simp only [react, reactMagic3]; split <;> exact .of_early (by simp) (by simp)
  | awaitMagic4 => simp only [react, reactMagic4]; split <;> exact .of_early (by simp) (by simp)
  | readLength =>
    refine ⟨fun _ => ⟨c.consumed, ?_, Nat.le_refl _⟩, by simp [react, reactReadLength]⟩
    show (c.rd + 2) % c.cap = _
    rw [hw.rd_eq, Nat.mod_add_mod]
    rfl
  | readToken =>
    obtain ⟨j, h1, h2⟩ := h.token hst
    simp only [react, reactReadToken]
    split
    · exact ⟨by simp, fun _ => ⟨j, h1, Nat.succ_le_succ h2⟩⟩
    · exact hre _
  | readPayload =>
    obtain ⟨j, h1, h2⟩ := h.payload hst
    by_cases hr : d.remaining = 0
    · simp only [hr, if_pos, react, reactChecksum]
      split <;> exact hre _
    · simp only [hr, react, reactPayload]
      refine ⟨by simp [hst], fun _ => ⟨j, h1, ?_⟩⟩
      show j + 2 + (d.taken ++ [b]).length ≤ c.consumed + 1
      rw [List.length_append]
      exact Nat.succ_le_succ h2

/-- What any DEC_STEP leaves: with any dispatch that stood answered (`u`), every other link, everything around the links,
and of its own link the outbound channel. -/
theorem decStepOn_spec {l : Nat} {s t : State} (h : decStepOn l s = .next t) :
    ∃ k b u, s.links[l]? = some k ∧ k.inCh.rd ≠ k.inCh.wr ∧ k.inCh.slot? k.inCh.rd = some b ∧ deliver s = .next u ∧
      u.raised = none ∧
      (let r := react k.dec.subCase s.params l k.inCh.cap k.inCh.rd k.dec b
      t.links = u.links.modify l (·.reacted r) ∧ t.params = s.params ∧ t.booted = s.booted ∧
        t.responder = s.responder ∧ t.record = u.record ∧ t.tasks = s.tasks ∧ t.input = s.input ∧
        ((r.dispatch = false ∧ t.raised = none ∧ t.trace = r.label.toList ++ u.trace) ∨
          (r.dispatch = true ∧ ∃ bs, k.inCh.readRun k.dec.startOff k.dec.len.toNat = .ok bs ∧
            t.raised = some ⟨l, k.dec.startOff, k.dec.len, bs⟩ ∧
            t.trace = .dispatched ⟨l, k.dec.startOff, k.dec.len, bs⟩ :: u.trace))) := by
  obtain ⟨k, hk, hc⟩ := decStepOn_eq_next.1 h
  obtain ⟨k', b, u, hk', hne, hb, hu, hr⟩ := decCase_eq_next.1 hc
  rw [hk] at hk'
  cases hk'
  have a := deliver_answered hu
  have e : u.raised = none := a.raised_eq
  refine ⟨k, b, u, hk, hne, hb, hu, e, ?_⟩
  rcases hr with ⟨hd, rfl⟩ | ⟨hd, bs, hbs, rfl⟩
  · exact ⟨by simp, by simp [a.params_eq], by simp [a.booted_eq], by simp [a.responder_eq], by simp,
      by simp [a.tasks_eq], by simp [a.input_eq], .inl ⟨hd, by simp [e], by simp⟩⟩
  · obtain ⟨-, -, he⟩ := react_dispatch hd
    refine ⟨by simp, by simp [a.params_eq], by simp [a.booted_eq], by simp [a.responder_eq], by simp,
      by simp [a.tasks_eq], by simp [a.input_eq], .inr ⟨hd, bs, ?_, ?_, ?_⟩⟩
    · rw [he] at hbs
      exact hbs
    · rw [he]
      rfl
    · rw [he]
      simp

/-- With no dispatch waiting, the state before a DEC_STEP's reaction is the state before the DEC_STEP. -/
theorem decStepOn_of_quiet {l : Nat} {s : State} {k : Link} {b : Byte} (h : Examines s l k b) :
    decStepOn l s =
      (let r := react k.dec.subCase s.params l k.inCh.cap k.inCh.rd k.dec b
      if r.dispatch then raiseDispatch l k.inCh r.dec (settle l r s) else .next (settle l r s)) := by
  obtain ⟨hr, hk, hne, hb⟩ := h
  rw [decStepOn_of_some hk, decCase, withLink_of_some hk, withOldest_of_some hne hb, deliver_of_none hr]
  rfl

end Sys2Proof.Machine
end

