-- ==== Sys2Proof/Laws/PerInstr.lean ====
section
/-! SUPPORT. Statements for all instructions, one lemma per constructor. `CodeLength`: an instruction's code has exactly
the bytes its fields need (log 1; a number operand one byte for each 255 in it and one more); a FRAME's holds the `7 + N`
bytes of its frame (spec/30_encoding.md R97) and the header row's the six of the table. -/
namespace Sys2Proof.Laws.CodeLength

/-- The number of bytes of a number operand. -/
def numLength (n : Nat) : Nat := n / 255 + 1

/-- The number of bytes of a code. -/
def bytesOf : Instr → Nat
  | .push ch _ => 3 + numLength ch.link
  | .hasData ch => 2 + numLength ch.link
  | .pop ch => 2 + numLength ch.link
  | .peek ch => 2 + numLength ch.link
  | .stepback ch => 2 + numLength ch.link
  | .view ch off n => 2 + numLength ch.link + numLength off + numLength n
  | .decStep d => 1 + numLength d
  | .decAwaitMagic1 d => 1 + numLength d
  | .decAwaitMagic2 d => 1 + numLength d
  | .decAwaitMagic3 d => 1 + numLength d
  | .decAwaitMagic4 d => 1 + numLength d
  | .decReadLength d => 1 + numLength d
  | .decReadToken d => 1 + numLength d
  | .decPayload d => 1 + numLength d
  | .decChecksum d => 1 + numLength d
  | .dispatch d off _ => 2 + numLength d + numLength off
  | .decRun d => 1 + numLength d
  | .encode e p => 1 + numLength e + p.length
  | .feedPc _ => 2
  | .feedRadio _ => 2
  | .tick => 1
  | .reset => 1
  | .frame ch p => 2 + numLength ch.link + (7 + p.length)
  | .frameReferenceHeader _ => 6
  | .cmdGetAlive => 2
  | .cmdAcknowledge => 2
  | .cmdStartConfig => 2
  | .cmdUnknown _ => 2

/-- A code is its opcode byte and its operands. -/
theorem encode_length (p : Params) (i : Instr) : (Sys2Proof.encode p i).length = (operandBytes p i).length + 1 := rfl

theorem chanBytes_length (ch : ChanId) : (chanBytes ch).length = numLength ch.link + 1 := by
  simp [chanBytes, numLength]

/-- The statement about one instruction. -/
def Statement (i : Instr) : Prop := ∀ p : Params, (encode p i).length = bytesOf i

/-- An instruction whose only operand is a number. -/
theorem of_number {i : Instr} {d : Nat} (h : ∀ p, operandBytes p i = numBytes d) (hb : bytesOf i = 1 + numLength d) :
    Statement i := fun p => by
  rw [encode_length, h, numBytes_length, hb, numLength]; omega

/-- An instruction whose only operand is a channel. -/
theorem of_channel {i : Instr} {ch : ChanId} (h : ∀ p, operandBytes p i = chanBytes ch)
    (hb : bytesOf i = 2 + numLength ch.link) : Statement i := fun p => by
  rw [encode_length, h, chanBytes_length, hb]; omega

theorem push (ch : ChanId) (b : Byte) : Statement (.push ch b) := fun _ => by
  simp [encode_length, operandBytes, bytesOf, chanBytes_length, numLength]; omega
theorem hasData (ch : ChanId) : Statement (.hasData ch) := of_channel (fun _ => rfl) rfl
theorem pop (ch : ChanId) : Statement (.pop ch) := of_channel (fun _ => rfl) rfl
theorem peek (ch : ChanId) : Statement (.peek ch) := of_channel (fun _ => rfl) rfl
theorem stepback (ch : ChanId) : Statement (.stepback ch) := of_channel (fun _ => rfl) rfl
theorem view (ch : ChanId) (off n : Nat) : Statement (.view ch off n) := fun _ => by
  simp [encode_length, operandBytes, bytesOf, chanBytes_length, numLength]; omega
theorem decStep (d : Nat) : Statement (.decStep d) := of_number (fun _ => rfl) rfl
theorem decAwaitMagic1 (d : Nat) : Statement (.decAwaitMagic1 d) := of_number (fun _ => rfl) rfl
theorem decAwaitMagic2 (d : Nat) : Statement (.decAwaitMagic2 d) := of_number (fun _ => rfl) rfl
theorem decAwaitMagic3 (d : Nat) : Statement (.decAwaitMagic3 d) := of_number (fun _ => rfl) rfl
theorem decAwaitMagic4 (d : Nat) : Statement (.decAwaitMagic4 d) := of_number (fun _ => rfl) rfl
theorem decReadLength (d : Nat) : Statement (.decReadLength d) := of_number (fun _ => rfl) rfl
theorem decReadToken (d : Nat) : Statement (.decReadToken d) := of_number (fun _ => rfl) rfl
theorem decPayload (d : Nat) : Statement (.decPayload d) := of_number (fun _ => rfl) rfl
theorem decChecksum (d : Nat) : Statement (.decChecksum d) := of_number (fun _ => rfl) rfl
theorem dispatch (d off : Nat) (n : Byte) : Statement (.dispatch d off n) := fun _ => by
  simp [encode_length, operandBytes, bytesOf, numLength]; omega
theorem decRun (d : Nat) : Statement (.decRun d) := of_number (fun _ => rfl) rfl
theorem encode (e : Nat) (p : List Byte) : Statement (.encode e p) := fun _ => by
  simp [encode_length, operandBytes, bytesOf, numLength]; omega
theorem feedPc (b : Byte) : Statement (.feedPc b) := fun _ => rfl
theorem feedRadio (b : Byte) : Statement (.feedRadio b) := fun _ => rfl
theorem tick : Statement .tick := fun _ => rfl
theorem reset : Statement .reset := fun _ => rfl
theorem frame (ch : ChanId) (p : List Byte) : Statement (.frame ch p) := fun _ => by
  simp [encode_length, operandBytes, bytesOf, chanBytes_length, frameBytes, frameBody, Magic.bytes]; omega
theorem frameReferenceHeader (n : Byte) : Statement (.frameReferenceHeader n) := fun _ => rfl
theorem cmdGetAlive : Statement .cmdGetAlive := fun _ => rfl
theorem cmdAcknowledge : Statement .cmdAcknowledge := fun _ => rfl
theorem cmdStartConfig : Statement .cmdStartConfig := fun _ => rfl
theorem cmdUnknown (raw : Byte) : Statement (.cmdUnknown raw) := fun _ => rfl

end Sys2Proof.Laws.CodeLength
end

