-- ==== Sys2Proof/Laws/Step.lean ====
section
/-! SUPPORT. What one step can do: it takes one entry of the schedule, or one event of the operation the polling agent
is inside. -/
namespace Sys2Proof.Machine

/-- An event's code runs exactly if it decodes to an instruction its agent may perform (R246, R267). -/
theorem runCode_eq_next {a : Agent} {code : List Byte} {s t : State} {run : Instr → State → Result} :
    runCode a code s run = .next t ↔
      ∃ i, decode s.params code = .instr i ∧ admission a i s = none ∧ run i s = .next t := by
  unfold runCode
  cases decode s.params code with
  | rejected e => simp
  | instr i => cases ha : admission a i s <;> simp [ha]

/-- Admission: the instruction is well formed, RESET has happened or is the instruction, and the agent is the one that
performs it. -/
theorem admission_eq_none {a : Agent} {i : Instr} {s : State} :
    admission a i s = none ↔ i.wf s.params = true ∧ (s.booted = true ∨ i = .reset) ∧ performer i = a := by
  unfold admission
  by_cases h1 : i.wf s.params = false
  · simp [h1]
  · by_cases h2 : s.booted = false ∧ i ≠ .reset
    · simp [h1, h2]
    · by_cases h3 : performer i = a
      · rw [if_neg h1, if_neg h2, if_pos h3]
        refine ⟨fun _ => ⟨by simpa using h1, ?_, h3⟩, fun _ => rfl⟩
        by_cases hb : s.booted = true
        · exact .inl hb
        · exact .inr (Decidable.byContradiction fun hi => h2 ⟨by simpa using hb, hi⟩)
      · simp [h1, h2, h3]

/-- The polling agent's next event, if it is inside an operation. -/
theorem pollNext_of_cons {s : State} {x : Task} {ts : List Task} (h : s.tasks = x :: ts) :
    pollNext s = runTask x { s with tasks := ts } := by simp [pollNext, h]

theorem pollNext_of_nil {s : State} (h : s.tasks = []) : pollNext s = .next s := by simp [pollNext, h]

/-- Every step that answers is one of these: nothing is left to do; the polling agent does the next event of its
operation, the schedule's entry taken or waiting; the entry's event happens whole; the polling agent enters the entry's
operation. -/
theorem step_cases {s t : State} (h : step s = .next t) :
    pollNext s = .next t ∨
      (∃ rest, s.input = .poll :: rest ∧ pollNext { s with input := rest } = .next t) ∨
      (∃ a code rest i, s.input = .event a code :: rest ∧ decode s.params code = .instr i ∧
        admission a i { s with input := rest } = none ∧ exec i { s with input := rest } = .next t) ∨
      (∃ code rest i, s.input = .begin code :: rest ∧ decode s.params code = .instr i ∧
        admission .poll i { s with input := rest } = none ∧ beginOperation i { s with input := rest } = .next t) := by
  unfold step runNext at h
  split at h
  · exact .inl h
  · rename_i rest hi
    exact .inr (.inl ⟨rest, hi, h⟩)
  · rename_i a code rest hi
    split at h
    · exact .inl h
    · obtain ⟨i, hd, ha, he⟩ := runCode_eq_next.1 h
      exact .inr (.inr (.inl ⟨a, code, rest, i, hi, hd, ha, he⟩))
  · rename_i code rest hi
    split at h
    · exact .inl h
    · obtain ⟨i, hd, ha, he⟩ := runCode_eq_next.1 h
      exact .inr (.inr (.inr ⟨code, rest, i, hi, hd, ha, he⟩))

end Sys2Proof.Machine
end

