-- ==== Sys2Proof/Tests/Slice0.lean ====
section
/-! SUPPORT. The model's own tests: ill-formed terms are refused, codes written out by hand decode, single steps of the
vectors of spec/95_test_vectors.md, and for every obligation with hypotheses a state and operands that meet them
together. -/
namespace Sys2Proof.Tests
open Sys2Proof Sys2Proof.Machine

/-! ### Helpers -/

/-- Parameters with a value for everything the source leaves open, so that tests compute. -/
def testParams : Params where
  magic := ⟨0x55, 0x4E, 0x45, 0x52⟩
  token := 0x3A
  encMax := 255
  c0 := 0
  ack := 0x0D
  cmdGetAlive := 0xF0
  cmdStartConfig := 0x20
  recordSize := 3
  unknownMarker := 0xEE
  unknownMarkerFirst := true

/-- A channel of `cap` slots with these bytes pushed after RESET. -/
def chanOf (cap : Nat) (bs : List Byte) : Chan := (Chan.fresh cap 0).pushBytes bs

/-- A channel from which as many bytes have been consumed. -/
def drained (n : Nat) (c : Chan) : Chan := n.repeat Chan.consume c

/-- A decoder's registers, its two ghosts (log 26) left at 0. -/
def decOf (st : DecState) (len remaining acc : Byte) (startOff : Nat) : Dec :=
  ⟨st, len, remaining, acc, startOff, 0, []⟩

/-- A machine with these links. -/
def machine (r : Responder) (links : List Link) : State := { State.resetWith testParams [] r with links := links }

/-- Two links whose channels have `cap` slots: the PC link's inbound channel and decoder given, all else as RESET left
it. -/
def pcLink (cap : Nat) (c : Chan) (d : Dec) : State :=
  machine .reference [⟨c, d, Chan.fresh cap 0⟩, Link.fresh cap cap 0]

/-- What a test reads of the state after an event that answered one. -/
def after {α : Type} (r : Result) (f : State → α) : Option α :=
  match r with
  | .next s => some (f s)
  | .fault _ => none
  | .refused _ => none

/-- The fault an event ended in. -/
def faultOf (r : Result) : Option Fault :=
  match r with
  | .next _ => none
  | .fault x => some x
  | .refused _ => none

/-- The refusal an event ended in. -/
def refusalOf (r : Result) : Option Refusal :=
  match r with
  | .next _ => none
  | .fault _ => none
  | .refused x => some x

/-- The cursors of a channel. -/
def cursors (ch : ChanId) (s : State) : Option (Nat × Nat) := (s.chan? ch).map fun c => (c.wr, c.rd)

/-- The visible bytes of a channel. -/
def bytesOf (ch : ChanId) (s : State) : Option (List Byte) := (s.chan? ch).map Chan.contents

/-- The registers of a link's decoder. -/
def regsOf (l : Nat) (s : State) : Option Dec := (s.dec? l).map Dec.block

/-- V-F4, the source's example frame. -/
def frameF4 : List Byte := [0x55, 0x4E, 0x45, 0x52, 0x02, 0x3A, 0xF0, 0x0D, 0xC9]

/-! ### WellFormed: an ill-formed term for each check -/

theorem test_wf_frame_refused : Instr.wf testParams (.frame ChanId.pcIn (List.replicate 256 0)) = false := by
  rw [Instr.wf, List.length_replicate]
  decide

theorem test_wf_commands_refused :
    Instr.wf { testParams with ack := 0xF0 } .cmdAcknowledge = false ∧
    Instr.wf { testParams with cmdStartConfig := 0xF0 } .cmdStartConfig = false ∧
    Instr.wf { testParams with cmdStartConfig := 0x0D } .cmdStartConfig = false ∧
    Instr.wf testParams (.cmdUnknown 0xF0) = false ∧ Instr.wf testParams (.cmdUnknown 0x0D) = false ∧
    Instr.wf testParams (.cmdUnknown 0x20) = false := by decide

/-! ### Codes written out by hand (the codes of log 1; the bytes of FRAME, FRAME.reference_header and CMD from the rows of
spec/opcode_table.json and vectors V-F2 and V-F4) -/

theorem test_decode_ring_channel :
    decode testParams [0x01, 0, 0, 0x11] = .instr (.push ChanId.pcIn 0x11) ∧
    decode testParams [0x02, 1, 0] = .instr (.hasData ChanId.radioIn) ∧
    decode testParams [0x03, 0, 1] = .instr (.pop ChanId.pcOut) ∧
    decode testParams [0x04, 1, 1] = .instr (.peek ChanId.radioOut) ∧
    decode testParams [0x05, 0, 0] = .instr (.stepback ChanId.pcIn) ∧
    decode testParams [0x06, 0, 0, 255, 7, 5] = .instr (.view ChanId.pcIn 262 5) := by decide

theorem test_decode_decoder :
    decode testParams [0x10, 1] = .instr (.decStep 1) ∧ decode testParams [0x11, 0] = .instr (.decAwaitMagic1 0) ∧
    decode testParams [0x12, 0] = .instr (.decAwaitMagic2 0) ∧ decode testParams [0x13, 0] = .instr (.decAwaitMagic3 0) ∧
    decode testParams [0x14, 0] = .instr (.decAwaitMagic4 0) ∧ decode testParams [0x15, 0] = .instr (.decReadLength 0) ∧
    decode testParams [0x16, 0] = .instr (.decReadToken 0) ∧ decode testParams [0x17, 0] = .instr (.decPayload 0) ∧
    decode testParams [0x18, 0] = .instr (.decChecksum 0) ∧
    decode testParams [0x19, 0, 6, 2] = .instr (.dispatch 0 6 2) ∧
    decode testParams [0x1A, 1] = .instr (.decRun 1) := by decide

theorem test_decode_encoder_and_links :
    decode testParams [0x20, 0, 0xF0, 0x0D] = .instr (.encode 0 [0xF0, 0x0D]) ∧
    decode testParams [0x28, 0x55] = .instr (.feedPc 0x55) ∧ decode testParams [0x29, 0x4F] = .instr (.feedRadio 0x4F) ∧
    decode testParams [0x2A] = .instr .tick ∧ decode testParams [0x2B] = .instr .reset := by decide

theorem test_decode_frames :
    decode testParams [0x30, 1, 1, 0x55, 0x4E, 0x45, 0x52, 0x01, 0x3A, 0xF0, 0xC7] =
      .instr (.frame ChanId.radioOut [0xF0]) ∧
    decode testParams [0x55, 0x4E, 0x45, 0x52, 0x02, 0x3A] = .instr (.frameReferenceHeader 2) := by decide

theorem test_decode_commands :
    decode testParams [0x40, 0xF0] = .instr .cmdGetAlive ∧ decode testParams [0x40, 0x0D] = .instr .cmdAcknowledge ∧
    decode testParams [0x40, 0x20] = .instr .cmdStartConfig ∧
    decode testParams [0x40, 0x77] = .instr (.cmdUnknown 0x77) := by decide

/-- Links, slot indices and counts on both sides of a multiple of 255. -/
theorem test_decode_numbers :
    decode testParams [0x10, 254] = .instr (.decStep 254) ∧ decode testParams [0x10, 255, 0] = .instr (.decStep 255) ∧
    decode testParams [0x01, 255, 45, 1, 0x11] = .instr (.push ⟨300, .outbound⟩ 0x11) ∧
    decode testParams [0x19, 255, 1, 255, 255, 0, 9] = .instr (.dispatch 256 510 9) ∧
    decode testParams [0x10, 255] = .rejected (.wrongLength 0x10) := by decide

/-- Codes of no row are rejected by name. -/
theorem test_decode_rejects :
    decode testParams [] = .rejected .empty ∧ decode testParams [0x00] = .rejected (.unknownOpcode 0) ∧
    decode testParams [0x01, 0, 2, 0] = .rejected (.badDirection 2) ∧
    decode testParams [0x2A, 0] = .rejected (.wrongLength 0x2A) ∧
    decode testParams [0x30, 0, 0, 0x54, 0x4E, 0x45, 0x52, 0x00, 0x3A, 0x36] = .rejected .badMagic ∧
    decode testParams [0x30, 0, 0, 0x55, 0x4E, 0x45, 0x52, 0x00, 0x3B, 0x36] = .rejected .badToken ∧
    decode testParams [0x30, 0, 0, 0x55, 0x4E, 0x45, 0x52, 0x01, 0x3A, 0x36] = .rejected .badLength ∧
    decode testParams [0x30, 0, 0, 0x55, 0x4E, 0x45, 0x52, 0x00, 0x3A, 0x35] = .rejected .badChecksum ∧
    decode testParams [0x55, 0x4E, 0x45, 0x52, 0x02, 0x3B] = .rejected .badHeader := by decide

/-- The table's one row with bits: 48 bits, the first byte most significant, `match` 0x554E4552003A. -/
theorem test_table_word_header : decodeTableWord 48 0x554E4552003A = some (.frameReferenceHeader 0) := by decide

/-- Placed for the next step, that row runs as the first event after reset: six bytes on `pc_in`. -/
theorem test_table_word_runs :
    after (step (State.reset.withFetchWord 48 0x554E4552073A)) (bytesOf ChanId.pcIn) =
      some (some [0x55, 0x4E, 0x45, 0x52, 0x07, 0x3A]) := by decide

/-! ### Frames (part B1) -/

/-- V-F1, V-F3, V-F7, V-F10. -/
theorem test_frames_checksum :
    frameBytes testParams [] = [0x55, 0x4E, 0x45, 0x52, 0x00, 0x3A, 0x36] ∧
    frameBytes testParams [0x0D] = [0x55, 0x4E, 0x45, 0x52, 0x01, 0x3A, 0x0D, 0x3A] ∧
    frameBytes testParams [0x36] = [0x55, 0x4E, 0x45, 0x52, 0x01, 0x3A, 0x36, 0x01] ∧
    frameBytes testParams [0x55, 0x4E, 0x45, 0x52, 0x3A] =
      [0x55, 0x4E, 0x45, 0x52, 0x05, 0x3A, 0x55, 0x4E, 0x45, 0x52, 0x3A, 0x05] := by decide

/-- V-F15: another magic. -/
theorem test_frame_other_magic :
    frameBytes { testParams with magic := ⟨0x41, 0x41, 0x58, 0x58⟩ } [0xF0, 0x0D] =
      [0x41, 0x41, 0x58, 0x58, 0x02, 0x3A, 0xF0, 0x0D, 0xC5] := by decide

/-! ### RingChannel (part B2) -/

/-- The channel of V-R15: `wr=7 rd=5`. -/
def chanR15 : Chan := drained 5 (chanOf 8 [1, 2, 3, 4, 5, 0x11, 0x22])

/-- The channel of V-R11: `wr=2 rd=3`, seven bytes shown. -/
def chanR11 : Chan :=
  (drained 3 (chanOf 8 [0x11, 0x22, 0x33])).pushBytes [0x44, 0x55, 0x66, 0x77, 0x88, 0x99, 0xAA]

/-- V-R15: the write cursor wraps. -/
theorem test_push_wraps :
    after (exec (.push ChanId.pcIn 0x33) (pcLink 8 chanR15 Dec.fresh))
      (fun t => (cursors ChanId.pcIn t, t.slot? ChanId.pcIn 7, t.trace)) = some (some (0, 5), some 0x33, []) := by decide

/-- V-R12: the overrun PUSH empties the channel and is labelled. -/
theorem test_push_overrun :
    after (exec (.push ChanId.pcIn 0xBB) (pcLink 8 chanR11 Dec.fresh))
      (fun t => (cursors ChanId.pcIn t, bytesOf ChanId.pcIn t, t.trace)) =
      some (some (3, 3), some [], [.overrun ChanId.pcIn]) := by decide

/-- V-R18 and V-R8. -/
theorem test_has_data :
    after (exec (.hasData ChanId.pcIn) (pcLink 8 chanR11 Dec.fresh)) State.trace = some [.hasData ChanId.pcIn true] ∧
    after (exec (.hasData ChanId.pcIn) (pcLink 8 (Chan.fresh 8 0) Dec.fresh)) State.trace =
      some [.hasData ChanId.pcIn false] := by decide

/-- V-R16: the read cursor wraps. -/
theorem test_pop_wraps :
    after (exec (.pop ChanId.pcIn)
        (pcLink 8 ((drained 7 (chanOf 8 [0, 1, 2, 3, 4, 5, 6])).pushBytes [0x5A, 8, 9]) Dec.fresh))
      (fun t => (cursors ChanId.pcIn t, t.trace)) = some (some (2, 0), [.popped ChanId.pcIn 0x5A]) := by decide

/-- V-X1, V-X2. -/
theorem test_pop_peek_empty :
    faultOf (exec (.pop ChanId.pcIn) (pcLink 8 (drained 3 (chanOf 8 [1, 2, 3])) Dec.fresh)) =
      some (.popEmpty ChanId.pcIn) ∧
    faultOf (exec (.peek ChanId.pcOut) (pcLink 8 (Chan.fresh 8 0) Dec.fresh)) = some (.popEmpty ChanId.pcOut) := by
  decide

/-- V-R4. -/
theorem test_peek :
    after (exec (.peek ChanId.pcIn) (pcLink 8 (chanOf 8 [0x11, 0x22, 0x33]) Dec.fresh))
      (fun t => (cursors ChanId.pcIn t, t.trace)) = some (some (3, 0), [.peeked ChanId.pcIn 0x11]) := by decide

/-- V-R17: `rd` steps back from 0 to 7. -/
theorem test_stepback_wraps :
    after (exec (.stepback ChanId.pcIn)
        (pcLink 8 (drained 1 ((drained 7 (chanOf 8 [0, 1, 2, 3, 4, 5, 6])).pushBytes [7, 8, 9])) Dec.fresh))
      (cursors ChanId.pcIn) = some (some (2, 7)) := by decide

/-- V-X7: as first consumer event after RESET. -/
theorem test_stepback_refused :
    refusalOf (exec (.stepback ChanId.pcIn) (pcLink 8 (chanOf 8 [1]) Dec.fresh)) =
      some (.strayStepback ChanId.pcIn) := by decide

/-- V-R9, V-R10: two chunks, and one that ends at the physical end. -/
theorem test_view_wraps :
    after (exec (.view ChanId.pcIn 3 6) (pcLink 8 chanR11 Dec.fresh)) State.trace =
      some [.viewed ChanId.pcIn 3 [0x44, 0x55, 0x66, 0x77, 0x88, 0x99]] ∧
    after (exec (.view ChanId.pcIn 5 3) (pcLink 8 chanR11 Dec.fresh)) State.trace =
      some [.viewed ChanId.pcIn 5 [0x66, 0x77, 0x88]] := by decide

/-- V-R19, V-R20, V-R21. -/
theorem test_view_faults :
    faultOf (exec (.view ChanId.pcIn 0 2) (pcLink 8 (chanOf 8 [0x11]) Dec.fresh)) =
      some (.readUnwritten ChanId.pcIn 1) ∧
    faultOf (exec (.view ChanId.pcIn 0 9) (pcLink 8 (chanOf 8 [0x11]) Dec.fresh)) = some (.viewTooLong ChanId.pcIn 9) ∧
    after (exec (.view ChanId.pcIn 5 0) (pcLink 8 (chanOf 8 [0x11]) Dec.fresh)) State.trace =
      some [.viewed ChanId.pcIn 5 []] := by decide

/-! ### Decoder (part B3; the rows of V-D1 by step number) -/

/-- The inbound channel of V-D1 with `n` of its nine bytes consumed. -/
def chanD1 (n : Nat) : Chan := drained n (chanOf 16 frameF4)

/-- The first byte of V-D1, and V-D2a. -/
theorem test_dec_await_magic_1 :
    after (exec (.decAwaitMagic1 0) (pcLink 16 (chanD1 0) Dec.fresh))
      (fun t => (cursors ChanId.pcIn t, (t.dec? 0).map Dec.st)) = some (some (9, 1), some .awaitMagic2) ∧
    after (exec (.decStep 0) (pcLink 16 (chanOf 16 [0x00]) Dec.fresh))
      (fun t => (cursors ChanId.pcIn t, (t.dec? 0).map Dec.st, t.trace)) =
      some (some (1, 1), some .awaitMagic1, [.magicMismatch 0 1 0]) := by decide

/-- V-D2b: the mismatching byte is kept. -/
theorem test_dec_await_magic_2 :
    after (exec (.decAwaitMagic2 0) (pcLink 16 (drained 1 (chanOf 16 [0x55, 0x00])) (decOf .awaitMagic2 0 0 0 0)))
      (fun t => (cursors ChanId.pcIn t, (t.dec? 0).map Dec.st, t.trace)) =
      some (some (2, 1), some .awaitMagic1, [.magicMismatch 0 2 0]) := by decide

/-- V-D2c. -/
theorem test_dec_await_magic_3 :
    after (exec (.decAwaitMagic3 0)
        (pcLink 16 (drained 2 (chanOf 16 [0x55, 0x4E, 0x55])) (decOf .awaitMagic3 0 0 0 0)))
      (fun t => (cursors ChanId.pcIn t, (t.dec? 0).map Dec.st, t.trace)) =
      some (some (3, 2), some .awaitMagic1, [.magicMismatch 0 3 0x55]) := by decide

/-- Step 4 of V-D1. -/
theorem test_dec_await_magic_4 :
    after (exec (.decAwaitMagic4 0) (pcLink 16 (chanD1 3) (decOf .awaitMagic4 0 0 0 0)))
      (fun t => (cursors ChanId.pcIn t, (t.dec? 0).map Dec.st)) = some (some (9, 4), some .readLength) := by decide

/-- Step 5 of V-D1, and the length byte in slot 12 of P4, so that `start_off` is 14. -/
theorem test_dec_read_length :
    after (exec (.decReadLength 0) (pcLink 16 (chanD1 4) (decOf .readLength 0 0 0 0))) (regsOf 0) =
      some (some (decOf .readToken 2 0 0 6)) ∧
    after (exec (.decReadLength 0)
        (pcLink 16 ((drained 12 (chanOf 16 (List.replicate 12 0xEE))).pushBytes [0x05]) (decOf .readLength 0 0 0 0)))
      (regsOf 0) = some (some (decOf .readToken 5 0 0 14)) := by decide

/-- Step 6 of V-D1, and V-D3. -/
theorem test_dec_read_token :
    after (exec (.decReadToken 0) (pcLink 16 (chanD1 5) (decOf .readToken 2 0 0 6))) (regsOf 0) =
      some (some (decOf .readPayload 2 2 0x34 6)) ∧
    after (exec (.decReadToken 0)
        (pcLink 16 (drained 5 (chanOf 16 [0x55, 0x4E, 0x45, 0x52, 2, 0x3B])) (decOf .readToken 2 0 0 6)))
      (fun t => (cursors ChanId.pcIn t, regsOf 0 t, t.trace)) =
      some (some (6, 5), some (decOf .awaitMagic1 2 0 0 6), [.tokenMismatch 0 0x3B]) := by decide

/-- Steps 7 and 8 of V-D1. -/
theorem test_dec_payload :
    after (exec (.decPayload 0) (pcLink 16 (chanD1 6) (decOf .readPayload 2 2 0x34 6))) (regsOf 0) =
      some (some (decOf .readPayload 2 1 0xC4 6)) ∧
    after (exec (.decPayload 0) (pcLink 16 (chanD1 7) (decOf .readPayload 2 1 0xC4 6))) (regsOf 0) =
      some (some (decOf .readPayload 2 0 0xC9 6)) := by decide

/-- Step 9 of V-D1. -/
theorem test_dec_checksum_dispatches :
    after (exec (.decChecksum 0) (pcLink 16 (chanD1 8) (decOf .readPayload 2 0 0xC9 6)))
      (fun t => (cursors ChanId.pcIn t, regsOf 0 t, t.raised)) =
      some (some (9, 9), some (decOf .awaitMagic1 2 0 0xC9 6), some ⟨0, 6, 2, [0xF0, 0x0D]⟩) := by decide

/-- V-D12: the checksum of a decoder that leaves the last payload byte out is rejected. -/
theorem test_dec_checksum_drops :
    after (exec (.decChecksum 0)
        (pcLink 16 (drained 8 (chanOf 16 [0x55, 0x4E, 0x45, 0x52, 2, 0x3A, 0xF0, 0x0D, 0xC4]))
          (decOf .readPayload 2 0 0xC9 6)))
      (fun t => (cursors ChanId.pcIn t, t.raised, t.trace)) =
      some (some (9, 9), none, [.checksumMismatch 0 0xC9 0xC4]) := by decide

/-- V-X3. -/
theorem test_dec_step_empty :
    faultOf (exec (.decStep 0) (pcLink 16 (Chan.fresh 16 0) Dec.fresh)) = some (.popEmpty ChanId.pcIn) := by decide

/-- V-D13: at `C = 2` the frame is accepted and its payload view has decayed. -/
theorem test_dec_checksum_decayed_view :
    after (exec (.decStep 0) (pcLink 2 (drained 8 (chanOf 2 frameF4)) (decOf .readPayload 2 0 0xC9 0))) State.raised =
      some (some ⟨0, 0, 2, [0xC9, 0x0D]⟩) := by decide

/-- V-D6 and V-D3b. -/
theorem test_dec_run :
    after (exec (.decRun 0) (pcLink 16 (chanOf 16 [0x55, 0x4E, 0x45, 0x52, 0x00, 0x3A, 0x36]) Dec.fresh))
      (fun t => (cursors ChanId.pcIn t, regsOf 0 t, t.trace)) =
      some (some (7, 7), some (decOf .awaitMagic1 0 0 0x36 6), [.dispatched ⟨0, 6, 0, []⟩]) ∧
    after (exec (.decRun 0) (pcLink 16 (chanOf 16 [0x55, 0x4E, 0x45, 0x52, 0x55, 0x55, 0x4E]) Dec.fresh))
      (fun t => (cursors ChanId.pcIn t, (t.dec? 0).map Dec.st, t.trace)) =
      some (some (7, 7), some .awaitMagic3, [.tokenMismatch 0 0x55]) := by decide

/-- A2: the reference responder's answer to the example's dispatch. -/
theorem test_dispatch_answered :
    after (exec (.dispatch 0 6 2) { pcLink 16 (chanD1 9) Dec.fresh with raised := some ⟨0, 6, 2, [0xF0, 0x0D]⟩ })
      (fun t => (bytesOf ChanId.pcOut t, t.raised)) = some (some frameF4, none) := by decide

/-! ### Encoder (part B4), links (part B5), RESET -/

/-- V-E6: the eighth PUSH overruns, the ninth shows alone. -/
theorem test_encode_overruns :
    after (exec (.encode 0 [0xF0, 0x0D]) (pcLink 8 (Chan.fresh 8 0) Dec.fresh))
      (fun t => (cursors ChanId.pcOut t, bytesOf ChanId.pcOut t, t.trace)) =
      some (some (1, 0), some [0xC9], [.encodeDone 0, .overrun ChanId.pcOut]) := by decide

/-- V-E7, with the `ENC_MAX = 43` of R8. -/
theorem test_encode_too_long :
    faultOf (exec (.encode 0 (List.replicate 44 0))
      { pcLink 8 (Chan.fresh 8 0) Dec.fresh with params := { testParams with encMax := 43 } }) =
      some (.encodeTooLong 44) := by decide

/-- V-L1, V-L2. -/
theorem test_feeds :
    after (exec (.feedPc 0x55) (pcLink 16 (Chan.fresh 16 0) Dec.fresh))
      (fun t => (bytesOf ChanId.pcIn t, cursors ChanId.radioIn t)) = some (some [0x55], some (0, 0)) ∧
    after (exec (.feedRadio 0x4F) (pcLink 16 (Chan.fresh 16 0) Dec.fresh))
      (fun t => (bytesOf ChanId.radioIn t, cursors ChanId.pcIn t)) = some (some [0x4F], some (0, 0)) := by decide

/-- V-L4. -/
theorem test_tick :
    after (exec .tick (pcLink 16 (chanD1 0) Dec.fresh))
      (fun t => (cursors ChanId.pcIn t, bytesOf ChanId.pcOut t, bytesOf ChanId.radioOut t)) =
      some (some (9, 9), some frameF4, some []) := by decide

/-- V-R1 and V-X8. -/
theorem test_reset :
    after (exec .reset (pcLink 8 chanR11 (decOf .readToken 1 2 3 4))) State.links =
      some [Link.fresh 8 8 0, Link.fresh 8 8 0] ∧
    refusalOf (exec .reset (pcLink 1 (Chan.fresh 8 0) Dec.fresh)) = some .badConfig := by decide

/-- V-F2 on `radio_in`; and the header row. -/
theorem test_frame :
    after (exec (.frame ChanId.radioIn [0xF0]) (pcLink 16 (Chan.fresh 16 0) Dec.fresh)) (bytesOf ChanId.radioIn) =
      some (some [0x55, 0x4E, 0x45, 0x52, 0x01, 0x3A, 0xF0, 0xC7]) ∧
    after (exec (.frameReferenceHeader 0x80) (pcLink 16 (Chan.fresh 16 0) Dec.fresh)) (bytesOf ChanId.pcIn) =
      some (some [0x55, 0x4E, 0x45, 0x52, 0x80, 0x3A]) := by decide

/-- A machine on whose PC link a frame with this payload has just been dispatched from slot 6. -/
def dispatched (p : List Byte) : State :=
  { pcLink 16 (drained (7 + p.length) (chanOf 16 (frameBytes testParams p))) Dec.fresh with
    raised := some ⟨0, 6, BitVec.ofNat 8 p.length, p⟩ }

/-- R211, with V-F4 and V-F5 as the answers. -/
theorem test_cmd_echo :
    after (exec .cmdGetAlive (dispatched [0xF0])) (bytesOf ChanId.pcOut) = some (some frameF4) ∧
    after (exec .cmdAcknowledge (dispatched [0x0D, 0x77])) (bytesOf ChanId.pcOut) =
      some (some [0x55, 0x4E, 0x45, 0x52, 0x02, 0x3A, 0x0D, 0x0D, 0x34]) := by decide

/-- R212: the record is the three slots after the command byte. -/
theorem test_cmd_start_config :
    after (exec .cmdStartConfig (dispatched [0x20, 0xA1, 0xA2, 0xA3]))
      (fun t => (t.record, (bytesOf ChanId.pcOut t).map List.length)) = some ([0xA1, 0xA2, 0xA3], some 9) := by decide

/-- R213: nine bytes, of which the seventh is the marker (the eighth is the free value, so the test does not read
it). -/
theorem test_cmd_unknown :
    after (exec (.cmdUnknown 0x77) (dispatched [0x77]))
      (fun t => (t.slot? ChanId.pcOut 4, t.slot? ChanId.pcOut 6, cursors ChanId.pcOut t)) =
      some (some 0x02, some 0xEE, some (9, 0)) := by decide

/-! ### Witnesses: for each obligation with hypotheses, a state and operands that meet them together -/

theorem chanOf_wf {cap : Nat} (h : 2 ≤ cap) (bs : List Byte) : (chanOf cap bs).Wf 0 :=
  (Chan.Wf.fresh h (by omega)).push_bytes bs

theorem holds_push_bytes {hist : List Byte} {c : Chan} (bs : List Byte) (hw : c.Wf 0) (h : c.Holds 0 hist) :
    (c.pushBytes bs).Holds 0 (hist ++ bs) := by
  induction bs generalizing hist c with
  | nil => rw [List.append_nil]; exact h
  | cons b bs ih =>
    have := ih (hw.push b) (h.push hw b)
    rwa [List.append_assoc] at this

theorem chanOf_holds {cap : Nat} (h : 2 ≤ cap) (bs : List Byte) : (chanOf cap bs).Holds 0 bs :=
  holds_push_bytes bs (Chan.Wf.fresh h (by omega)) (Chan.Holds.fresh cap 0)

theorem both_links {P : Link → Prop} {a b : Link} (ha : P a) (hb : P b) :
    ∀ (l : Nat) (k : Link), [a, b][l]? = some k → P k := by
  intro l k h
  match l with
  | 0 => cases h; exact ha
  | 1 => cases h; exact hb
  | n + 2 => simp at h

/-- A machine with a collaborator that answers nothing, these bytes on `pc_in`, and this schedule. -/
def quiet (cap : Nat) (bs : List Byte) (input : List Input) : State :=
  { machine (.table []) [⟨chanOf cap bs, Dec.fresh, Chan.fresh cap 0⟩, Link.fresh cap cap 0] with input := input }

theorem quiet_inv {cap : Nat} (h : 2 ≤ cap) (bs : List Byte) (input : List Input) : (quiet cap bs input).Inv where
  encMax_le := Nat.le_refl 255
  links_wf := both_links
    ⟨chanOf_wf h bs, .fresh (by simp [chanOf, Chan.fresh]; omega), Chan.Wf.fresh h (Nat.lt_of_lt_of_le Nat.two_pos h)⟩
    (.fresh h h (Nat.lt_of_lt_of_le Nat.two_pos h) (Nat.lt_of_lt_of_le Nat.two_pos h))
  raised_wf := by simp [quiet, machine, State.resetWith]

theorem quiet_responsive (cap : Nat) (bs : List Byte) (input : List Input) : (quiet cap bs input).Responsive := by
  intro d _ r hr
  exact absurd hr List.not_mem_nil

theorem quiet_ahead (cap : Nat) (bs : List Byte) (input : List Input) : (quiet cap bs input).Ahead :=
  both_links (.of_early (by simp [Dec.fresh]) (by simp [Dec.fresh]))
    (.of_early (by simp [Link.fresh, Dec.fresh]) (by simp [Link.fresh, Dec.fresh]))

/-- O1, O2, at the last slot. -/
theorem test_witness_push :
    (pcLink 8 chanR15 Dec.fresh).chan? ChanId.pcIn = some chanR15 ∧ chanR15.wr = 7 ∧
    (pcLink 8 chanR15 Dec.fresh).chan? ChanId.radioIn = some (Chan.fresh 8 0) := by decide

/-- HAS_DATA, POP, PEEK: data shown, the read cursor at the last slot; PopThenStepbackIsPeek and both sides of
EmptyChannelFaults. -/
theorem test_witness_reads :
    let c := (drained 7 (chanOf 8 [0, 1, 2, 3, 4, 5, 6])).pushBytes [0x5A, 8]
    (pcLink 8 c Dec.fresh).chan? ChanId.pcIn = some c ∧ c.rd < c.cap ∧ c.rd = 7 ∧ c.rd ≠ c.wr ∧
      c.slot? c.rd = some 0x5A ∧
      (pcLink 8 (Chan.fresh 8 0) Dec.fresh).chan? ChanId.pcIn = some (Chan.fresh 8 0) ∧
      (Chan.fresh 8 0).rd = (Chan.fresh 8 0).wr ∧ ChanId.pcIn.dir = .inbound := by decide

/-- EmptyChannelFaults: an empty channel under each state of the decoder, with bytes remaining and with none. -/
theorem test_witness_empty :
    ∀ st ∈ [DecState.awaitMagic1, .awaitMagic2, .awaitMagic3, .awaitMagic4, .readLength, .readToken, .readPayload],
      ∀ rem ∈ [(0 : Byte), 1],
        let k : Link := ⟨chanR15.consume.consume, decOf st 1 rem 0 0, Chan.fresh 8 0⟩
        (machine .reference [k]).chan? ⟨0, .inbound⟩ = some k.inCh ∧ k.inCh.rd = k.inCh.wr ∧
          (machine .reference [k]).links[0]? = some k ∧ k.dec.st = st ∧ k.dec.remaining = rem := by decide

/-- StepbackUnconsumes: straight after a read from the last slot and from slot 0, and after none. -/
theorem test_witness_stepback :
    (drained 8 (chanOf 8 [0, 1, 2, 3, 4, 5, 6, 7])).rd = 0 ∧
    (drained 8 (chanOf 8 [0, 1, 2, 3, 4, 5, 6, 7])).justRead = true ∧
    (drained 1 (chanOf 8 [0, 1])).rd = 1 ∧ (drained 1 (chanOf 8 [0, 1])).justRead = true ∧
    (chanOf 8 [0, 1]).justRead = false ∧
    (pcLink 8 (drained 1 (chanOf 8 [0, 1])) Dec.fresh).chan? ChanId.pcIn = some (drained 1 (chanOf 8 [0, 1])) := by decide

/-- ViewReadsSlotsModuloCapacity: the largest offset and count with every slot written; one byte too many; an unwritten
slot after a written one. -/
theorem test_witness_view :
    (pcLink 2 (chanOf 2 [7, 9]) Dec.fresh).chan? ChanId.pcIn = some (chanOf 2 [7, 9]) ∧ 1 < (chanOf 2 [7, 9]).cap ∧
    (∀ i, i < 2 → (chanOf 2 [7, 9]).slot? ((1 + i) % (chanOf 2 [7, 9]).cap) = [(9 : Byte), 7][i]?) ∧
    (chanOf 2 [7, 9]).cap < 3 ∧
    (chanOf 8 [1]).slot? ((0 + 1) % (chanOf 8 [1]).cap) = none ∧
    (∀ j, j < 1 → ((chanOf 8 [1]).slot? ((0 + j) % (chanOf 8 [1]).cap)).isSome) := by decide

/-- ViewIsTwoChunkCopy: V-R10, two slots before the end and one after; and three that end at it. -/
theorem test_witness_two_chunks :
    (pcLink 8 chanR11 Dec.fresh).chan? ChanId.pcIn = some chanR11 ∧ 6 < chanR11.cap ∧ 3 ≤ chanR11.cap ∧
    chanR11.cap < 6 + 3 ∧ [(0x77 : Byte), 0x88].length = chanR11.cap - 6 ∧
    (∀ i, i < chanR11.cap - 6 → chanR11.slot? (6 + i) = [(0x77 : Byte), 0x88][i]?) ∧
    [(0x99 : Byte)].length = 6 + 3 - chanR11.cap ∧
    (∀ i, i < 6 + 3 - chanR11.cap → chanR11.slot? i = [(0x99 : Byte)][i]?) ∧
    5 + 3 ≤ chanR11.cap ∧ (∀ i, i < 3 → chanR11.slot? (5 + i) = [(0x66 : Byte), 0x77, 0x88][i]?) := by decide

/-- PushAppendsOrEmptiesContents (both branches), PopTakesFirstOfContents, OverrunThenPopFaults, PushAndPopCommute. -/
theorem test_witness_contents :
    (chanOf 3 [1]).Wf 0 ∧ (chanOf 3 [1, 2]).Wf 0 ∧ (chanOf 4 [1, 2]).Wf 0 ∧
    (pcLink 3 (chanOf 3 [1, 2]) Dec.fresh).chan? ChanId.pcIn = some (chanOf 3 [1, 2]) ∧
    (pcLink 3 (chanOf 3 [1]) Dec.fresh).chan? ChanId.pcIn = some (chanOf 3 [1]) ∧
    (pcLink 4 (chanOf 4 [1, 2]) Dec.fresh).chan? ChanId.pcIn = some (chanOf 4 [1, 2]) ∧
    (chanOf 3 [1, 2]).occ + 1 = (chanOf 3 [1, 2]).cap ∧ (chanOf 3 [1]).occ + 1 ≠ (chanOf 3 [1]).cap ∧
    (chanOf 3 [1, 2]).contents = 1 :: [2] ∧ 0 < (chanOf 4 [1, 2]).occ ∧ (chanOf 4 [1, 2]).occ + 1 < (chanOf 4 [1, 2]).cap :=
  ⟨chanOf_wf (by decide) _, chanOf_wf (by decide) _, chanOf_wf (by decide) _, by decide⟩

/-- ContentsAreTheLatestPushes, with an overrun behind it, and EventsExtendOrKeepHistory, one event of each kind that it
names. -/
theorem test_witness_history :
    (chanOf 2 [1, 2, 3]).Wf 0 ∧ (chanOf 2 [1, 2, 3]).Holds 0 [1, 2, 3] ∧
    (pcLink 2 (chanOf 2 [1, 2, 3]) Dec.fresh).chan? ChanId.pcIn = some (chanOf 2 [1, 2, 3]) ∧
    (∀ i ∈ [Instr.push ChanId.pcIn 4, .hasData ChanId.pcIn, .pop ChanId.pcIn, .peek ChanId.pcIn, .view ChanId.pcIn 1 2,
        .decStep 0, .decAwaitMagic1 0, .decRun 0],
      (after (exec i (pcLink 2 (chanOf 2 [1, 2, 3]) Dec.fresh)) id).isSome = true) :=
  ⟨chanOf_wf (by decide) _, chanOf_holds (by decide) _, by decide⟩

/-- PopReturnsThePushedByte, at the largest backlog without an overrun, and RecordFollowsTheConsumer. -/
theorem test_witness_fifo :
    (chanOf 3 [1, 2]).Wf 0 ∧ (chanOf 3 [1, 2]).Holds 0 [1, 2] ∧
    (pcLink 3 (chanOf 3 [1, 2]) Dec.fresh).chan? ChanId.pcIn = some (chanOf 3 [1, 2]) ∧
    (chanOf 3 [1, 2]).pushed + 1 = (chanOf 3 [1, 2]).consumed + (chanOf 3 [1, 2]).cap ∧
    (∀ i ∈ [Instr.push ChanId.pcIn 4, .hasData ChanId.pcIn, .pop ChanId.pcIn, .peek ChanId.pcIn, .decStep 0,
        .decAwaitMagic1 0, .view ChanId.pcIn 0 2],
      (after (exec i (pcLink 3 (chanOf 3 [1, 2]) Dec.fresh)) (fun t => (t.chan? ChanId.pcIn).isSome)) = some true) :=
  ⟨chanOf_wf (by decide) _, chanOf_holds (by decide) _, by decide⟩

/-- EventsExtendOrKeepHistory and RecordFollowsTheConsumer for STEPBACK, after a read. -/
theorem test_witness_history_stepback :
    (chanOf 4 [1, 2]).consume.Wf 0 ∧ (chanOf 4 [1, 2]).consume.Holds 0 [1, 2] ∧
    (pcLink 4 (chanOf 4 [1, 2]).consume Dec.fresh).chan? ChanId.pcIn = some (chanOf 4 [1, 2]).consume ∧
    (after (exec (.stepback ChanId.pcIn) (pcLink 4 (chanOf 4 [1, 2]).consume Dec.fresh)) id).isSome = true :=
  ⟨(chanOf_wf (by decide) _).consumes (by decide),
    ⟨(chanOf_holds (by decide) _).length_eq, (chanOf_holds (by decide) _).slot_eq⟩, by decide⟩

/-- PushedByteStaysForCapacityPushes: byte 1 of three, and as many further PUSHes as leave its slot alone. -/
theorem test_witness_decay :
    (chanOf 4 [1, 2, 3]).Wf 0 ∧ (pcLink 4 (chanOf 4 [1, 2, 3]) Dec.fresh).chan? ChanId.pcIn = some (chanOf 4 [1, 2, 3]) ∧
    (∃ t, pushAll ChanId.pcIn [4, 5] (pcLink 4 (chanOf 4 [1, 2, 3]) Dec.fresh) = .next t) ∧
    1 < (chanOf 4 [1, 2, 3]).pushed ∧ (chanOf 4 [1, 2, 3]).pushed + [(4 : Byte), 5].length = 1 + (chanOf 4 [1, 2, 3]).cap :=
  ⟨chanOf_wf (by decide) _, by decide, ⟨_, rfl⟩, by decide⟩

/-- The link of a decoder that is about to examine `b`, at the last slot. -/
def examining (d : Dec) (b : Byte) : Link :=
  ⟨(drained 7 (chanOf 8 [0, 1, 2, 3, 4, 5, 6])).pushBytes [b], d, Chan.fresh 8 0⟩

/-- AwaitMagic1..4, ReadLength, ReadToken, Payload, Checksum, NoByteIsExaminedThrice: what `Examines` asks, with a byte
that matches and one that does not. -/
theorem test_witness_dec_step :
    ∀ b ∈ [(0x55 : Byte), 0x4E, 0x45, 0x52, 0x3A, 0x00],
      ∀ st ∈ [DecState.awaitMagic1, .awaitMagic2, .awaitMagic3, .awaitMagic4, .readLength, .readToken, .readPayload],
        let k := examining (decOf st 1 1 0 0) b
        (machine .reference [k]).raised = none ∧
          (machine .reference [k]).links[0]? = some k ∧ k.inCh.rd ≠ k.inCh.wr ∧ k.inCh.slot? k.inCh.rd = some b ∧
          k.dec.st = st ∧ 0 < k.dec.remaining.toNat ∧
          (after (exec (.decStep 0) (machine .reference [k])) (fun t => (t.links[0]?).isSome)) = some true := by decide

/-- RecordFollowsTheConsumer: the ghosts after the length byte, the token and a payload byte, at the last slot. -/
theorem test_witness_ghosts :
    (∀ x ∈ [(DecState.readLength, (9 : Byte), 7, ([] : List Byte)), (.readToken, 0x3A, 0, []), (.readPayload, 5, 0, [5])],
      after (exec (.decStep 0) (machine .reference [examining (decOf x.1 1 1 0 0) x.2.1]))
        (fun t => (t.dec? 0).map fun d => (d.lenSlot, d.taken)) = some (some x.2.2)) := by decide

/-- ChecksumByteDispatchesOrDrops: a match with a payload of 255 bytes is too long for a test; here one of two whose
slots are read from the last slot on, and a mismatch. RaisedDispatchIsTheFrame. -/
theorem test_witness_checksum :
    let k := examining (decOf .readPayload 2 0 0xC9 6) 0xC9
    (machine .reference [k]).raised = none ∧
      (machine .reference [k]).links[0]? = some k ∧ k.inCh.rd ≠ k.inCh.wr ∧ k.inCh.slot? k.inCh.rd = some 0xC9 ∧
      k.dec.st = .readPayload ∧ k.dec.remaining = 0 ∧ (0xC9 : Byte) = k.dec.acc ∧ (0xC8 : Byte) ≠ k.dec.acc ∧
      (examining k.dec 0xC8).inCh.slot? k.inCh.rd = some 0xC8 ∧
      [(6 : Byte), 0xC9].length = k.dec.len.toNat ∧
      (∀ i, i < k.dec.len.toNat → k.inCh.slot? ((k.dec.startOff + i) % k.inCh.cap) = [(6 : Byte), 0xC9][i]?) ∧
      after (exec (.decStep 0) (machine .reference [k])) State.raised = some (some ⟨0, 6, 2, [6, 0xC9]⟩) := by decide

/-- UnselectedCaseIsRefused: a state that selects none of each case but its own. -/
theorem test_witness_unselected :
    (pcLink 8 (chanOf 8 [1]) Dec.fresh).links[0]? = some ⟨chanOf 8 [1], Dec.fresh, Chan.fresh 8 0⟩ ∧
    (decOf .readPayload 0 0 0 0).st ≠ .awaitMagic1 ∧ Dec.fresh.st ≠ .awaitMagic2 ∧ Dec.fresh.st ≠ .awaitMagic3 ∧
    Dec.fresh.st ≠ .awaitMagic4 ∧ Dec.fresh.st ≠ .readLength ∧ Dec.fresh.st ≠ .readToken ∧
    ¬ (Dec.fresh.st = .readPayload ∧ Dec.fresh.remaining ≠ 0) ∧
    ¬ (Dec.fresh.st = .readPayload ∧ Dec.fresh.remaining = 0) := by decide

/-- DecRunDrainsTheChannel, TickDrainsEveryLink with a silent collaborator: `pc_in` with every slot written (two junk bytes
to read), `radio_in` empty. -/
theorem test_witness_drain :
    (quiet 2 [1, 2, 3] []).Inv ∧ (quiet 2 [1, 2, 3] []).Responsive ∧ (quiet 2 [1, 2, 3] []).Silent ∧
    (quiet 2 [1, 2, 3] []).links[0]? = some ⟨chanOf 2 [1, 2, 3], Dec.fresh, Chan.fresh 2 0⟩ ∧
    (∀ (l : Nat) (k : Link), (quiet 2 [1, 2, 3] []).links[l]? = some k → k.Drainable 0) :=
  ⟨quiet_inv (by decide) _ _, quiet_responsive _ _ _, fun _ => rfl, by decide,
    both_links (.inr (.inl (fun a ha => by
      have : a < 2 := ha
      revert a
      decide))) (.inl (by decide))⟩

/-- The same with the reference responder, and a frame on a channel most of whose slots RESET left unwritten. -/
theorem test_witness_drain_answered :
    let s := { quiet 16 frameF4 [] with responder := .reference }
    s.Inv ∧ s.Responsive ∧ (∀ (l : Nat) (k : Link), s.links[l]? = some k → k.Drainable 0) ∧
      ¬ (chanOf 16 frameF4).AllWritten :=
  ⟨⟨Nat.le_refl 255, (quiet_inv (by decide) frameF4 []).links_wf, by simp [quiet, machine, State.resetWith]⟩,
    reference_responsive rfl (by decide), fun l k hk => .inr (.inr (quiet_ahead 16 frameF4 [] l k hk)),
    fun h => absurd (h 9 (by decide)) (by decide)⟩

/-- FrameRoundTrip, the longest frame that a channel of 16 slots shows whole. -/
theorem test_witness_round_trip :
    let p : List Byte := [1, 2, 3, 4, 5, 6, 7, 8]
    let s := quiet 16 (frameBytes testParams p) []
    s.Inv ∧ s.Responsive ∧ s.Silent ∧ s.raised = none ∧
      s.links[0]? = some ⟨chanOf 16 (frameBytes testParams p), Dec.fresh, Chan.fresh 16 0⟩ ∧
      Dec.fresh.st = .awaitMagic1 ∧ p.length ≤ 255 ∧
      (chanOf 16 (frameBytes testParams p)).contents = frameBytes testParams p :=
  ⟨quiet_inv (by decide) _ _, quiet_responsive _ _ _, fun _ => rfl, by decide⟩

/-- ReferenceResponderAnswers (no command byte, a known one, another), CommandsEchoWithAck, DispatchKeepsTheInboundSide. -/
theorem test_witness_answers :
    (∀ p ∈ [[], [(0xF0 : Byte)], [0x0D, 1], [0x77]],
      (dispatched p).raised = some ⟨0, 6, BitVec.ofNat 8 p.length, p⟩ ∧ (dispatched p).responder = .reference ∧
      ((dispatched p).links[0]?).isSome = true ∧ 2 ≤ (dispatched p).params.encMax ∧
      (after (exec (.dispatch 0 6 (BitVec.ofNat 8 p.length)) (dispatched p)) id).isSome = true) ∧
    testParams.ack ≠ testParams.cmdGetAlive ∧ (0x77 : Byte) ≠ testParams.cmdGetAlive ∧ (0x77 : Byte) ≠ testParams.ack ∧
    (pcLink 16 (Chan.fresh 16 0) Dec.fresh).raised = none ∧
    ((pcLink 16 (Chan.fresh 16 0) Dec.fresh).links[0]?).isSome = true := by decide

/-- ReferenceResponderAnswers, a collaborator by its values: the dispatch's first row stands between two others; and no
row is the dispatch's. The ENCODE of the first goes out on the radio link. -/
theorem test_witness_table :
    let before : List Answer := [⟨0, 1, [0x78], [⟨0, [1]⟩]⟩]
    let after' : List Answer := [⟨0, 1, [0x77], [⟨0, [2]⟩]⟩]
    let s := { dispatched [0x77] with responder := .table (before ++ ⟨0, 1, [0x77], [⟨1, [0x0D]⟩]⟩ :: after') }
    s.raised = some ⟨0, 6, 1, [0x77]⟩ ∧ (s.links[0]?).isSome = true ∧
      (∀ a ∈ before, (a.link, a.n, a.payload) ≠ (0, 1, [0x77])) ∧
      after (exec (.dispatch 0 6 1) s) (fun t => (bytesOf ChanId.pcOut t, bytesOf ChanId.radioOut t)) =
        some (some [], some [0x55, 0x4E, 0x45, 0x52, 0x01, 0x3A, 0x0D, 0x3A]) := by decide

/-- WaitingDispatchIsAnsweredFirst: a dispatch of the PC link waits while its decoder has a byte to examine; the DEC_STEP
sends the answer and then examines the byte. -/
theorem test_witness_waiting :
    let s := { pcLink 16 ((chanD1 9).pushBytes [0x55]) Dec.fresh with raised := some ⟨0, 6, 2, [0xF0, 0x0D]⟩ }
    (after (exec (.dispatch 0 6 2) s) id).isSome = true ∧
      after (exec (.decStep 0) s) (fun t => (bytesOf ChanId.pcOut t, (regsOf 0 t).map Dec.st, t.raised)) =
        some (some frameF4, some .awaitMagic2, none) := by decide

/-- StartConfigCopiesTheRecord: a record as large as the channel, read from the last slot on. -/
theorem test_witness_start_config :
    let s := { pcLink 3 (chanOf 3 [5, 6, 0x20]) Dec.fresh with raised := some ⟨0, 1, 1, [0x20]⟩ }
    s.raised = some ⟨0, 1, 1, testParams.cmdStartConfig :: []⟩ ∧ s.params = testParams ∧
      s.links[0]? = some ⟨chanOf 3 [5, 6, 0x20], Dec.fresh, Chan.fresh 3 0⟩ ∧
      testParams.cmdStartConfig ≠ testParams.cmdGetAlive ∧ testParams.cmdStartConfig ≠ testParams.ack ∧
      2 ≤ testParams.encMax ∧ 0 < (chanOf 3 [5, 6, 0x20]).cap ∧ testParams.recordSize ≤ (chanOf 3 [5, 6, 0x20]).cap ∧
      [(0x20 : Byte), 5, 6].length = testParams.recordSize ∧
      (∀ i, i < testParams.recordSize →
        (chanOf 3 [5, 6, 0x20]).slot? ((1 + 1 + i) % (chanOf 3 [5, 6, 0x20]).cap) = [(0x20 : Byte), 5, 6][i]?) := by decide

/-- UnknownCommandAnswersWithMarker, the marker first and last. -/
theorem test_witness_unknown :
    (∀ f ∈ [true, false],
      let s := { dispatched [0x77] with params := { testParams with unknownMarkerFirst := f } }
      s.raised = some ⟨0, 6, 1, [0x77]⟩ ∧ (s.links[0]?).isSome = true ∧ 2 ≤ s.params.encMax ∧
        (0x77 : Byte) ≠ s.params.cmdGetAlive ∧ (0x77 : Byte) ≠ s.params.ack ∧ (0x77 : Byte) ≠ s.params.cmdStartConfig) := by
  decide

/-- EncodePushesTheFrame at the largest payload `ENC_MAX` allows, LongPayloadFaults one byte above, FramePushesItsBytes:
outbound, `wr` at the last slot. -/
theorem test_witness_encode :
    let s := { pcLink 8 chanR15 Dec.fresh with params := { testParams with encMax := 2 } }
    s.chan? ChanId.pcOut = some (Chan.fresh 8 0) ∧ [(1 : Byte), 2].length ≤ s.params.encMax ∧ s.params.encMax ≤ 255 ∧
      (Chan.fresh 8 0).wr < (Chan.fresh 8 0).cap ∧ s.links[0]? = some ⟨chanR15, Dec.fresh, Chan.fresh 8 0⟩ ∧
      s.params.encMax < [(1 : Byte), 2, 3].length ∧ s.chan? ChanId.pcIn = some chanR15 ∧ chanR15.wr = 7 ∧
      chanR15.wr < chanR15.cap ∧ [(1 : Byte), 2].length ≤ 255 := by decide

/-- StepwiseEncodeIsEncode: an ENCODE to run, and a TICK to begin. -/
theorem test_witness_stepwise :
    (let s := { quiet 8 [] [] with tasks := [.reply (.encode 0 [1, 2])] }
    s.input = [] ∧ s.tasks = [.reply (.encode 0 [1, 2])] ∧ (s.links[0]?).isSome = true ∧
      [(1 : Byte), 2].length ≤ s.params.encMax) ∧
    (let s := quiet 8 [1] [.begin [0x2A]]
    s.Inv ∧ s.booted = true ∧ s.tasks = [] ∧ s.input = [.begin [0x2A]] ∧ decode s.params [0x2A] = .instr .tick ∧
      Instr.tick.wf s.params = true ∧ performer .tick = .poll) :=
  ⟨by decide, quiet_inv (by decide) _ _, by decide⟩

/-- TickIsPcThenRadio, ResetEmptiesTheBlock (the smallest channel), ResetIsRefused (inside an operation; one slot),
MissingLinkIsRefused. -/
theorem test_witness_reset :
    (quiet 2 [1, 2, 3] []).links.length = 2 ∧ (quiet 2 [1, 2, 3] []).tasks = [] ∧
    (quiet 2 [1, 2, 3] []).params.encMax ≤ 255 ∧
    (∀ (l : Nat) (k : Link), (quiet 2 [1, 2, 3] []).links[l]? = some k → ∀ d : Dir,
      2 ≤ (k.chan d).cap ∧ (quiet 2 [1, 2, 3] []).params.c0 < (k.chan d).cap) ∧
    ({ quiet 2 [] [] with tasks := [.deliver] } : State).tasks ≠ [] ∧
    (quiet 1 [] []).links[1]? = some (Link.fresh 1 1 0) ∧ ((Link.fresh 1 1 0).chan .outbound).cap < 2 ∧
    (quiet 2 [] []).links[2]? = none ∧ (machine .reference []).links[ChanId.pcIn.link]? = none ∧
    (machine .reference [Link.fresh 2 2 0]).links[ChanId.radioIn.link]? = none :=
  ⟨by decide, by decide, by decide, both_links (by intro d; cases d <;> decide) (by intro d; cases d <;> decide),
    by decide⟩

/-- StepRunsDecodedInstruction (an interrupt's event and the polling agent's own), WrongAgentIsRefused (another agent, and
before RESET), BusyPollingAgentKeepsItsOrder. -/
theorem test_witness_step :
    decode testParams [0x28, 0x55] = .instr (.feedPc 0x55) ∧ (Instr.feedPc 0x55).wf testParams = true ∧
    performer (.feedPc 0x55) = .rx 0 ∧ performer (.feedPc 0x55) ≠ .poll ∧
    (quiet 8 [] [.event (.rx 0) [0x28, 0x55]]).input = .event (.rx 0) [0x28, 0x55] :: [] ∧
    (quiet 8 [] [.event .poll [0x28, 0x55]]).booted = true ∧ (quiet 8 [] [.event .poll [0x28, 0x55]]).tasks = [] ∧
    ({ quiet 8 [] [.event .platform [0x2B]] with booted := false } : State).booted = false ∧
    decode testParams [0x2B] = .instr .reset ∧ performer .reset = .platform ∧ Instr.feedPc 0x55 ≠ .reset ∧
    ({ quiet 8 [] [.begin [0x2A]] with tasks := [.decRun 0] } : State).tasks = .decRun 0 :: [] := by decide

/-- StepRunsDecodedInstruction and WrongAgentIsRefused for the start of an operation: one event, an ENCODE, a DEC_RUN, a
TICK, a DISPATCH and a command, and an event that is not the polling agent's. -/
theorem test_witness_begin :
    (∀ x ∈ [([(0x10 : Byte), 0], Instr.decStep 0), ([0x20, 0, 7], .encode 0 [7]), ([0x1A, 0], .decRun 0), ([0x2A], .tick),
        ([0x19, 0, 6, 1], .dispatch 0 6 1), ([0x40, 0xF0], .cmdGetAlive)],
      let s := { dispatched [0xF0] with input := [.begin x.1] }
      decode s.params x.1 = .instr x.2 ∧ x.2.wf s.params = true ∧ s.booted = true ∧ s.input = .begin x.1 :: [] ∧
        performer x.2 = .poll ∧ s.tasks = [] ∧ (s.links[0]?).isSome = true ∧ s.raised = some ⟨0, 6, 1, [0xF0]⟩) ∧
    isOperation (.decStep 0) = false ∧ Instr.cmdGetAlive = instrOfCommand (commandOf testParams 0xF0) ∧
    (quiet 8 [] [.begin [0x28, 0x55]]).input = .begin [0x28, 0x55] :: [] := by decide

/-- `enc_done` of R38: the event that pushes the checksum byte, also where it overruns (V-E6 and a channel of nine slots),
and no other. -/
theorem test_enc_done :
    (∀ cap ∈ [8, 9, 16], after (exec (.encode 0 [0xF0, 0x0D]) (pcLink cap (Chan.fresh cap 0) Dec.fresh))
      (State.portEncDone (pcLink cap (Chan.fresh cap 0) Dec.fresh) · 0) = some true) ∧
    after (exec (.push ChanId.pcOut 1) { quiet 8 [] [] with trace := [.encodeDone 0] })
      (State.portEncDone { quiet 8 [] [] with trace := [.encodeDone 0] } · 0) = some false := by decide

/-- ProducersTouchOnlyTheirSide, TransmitPathsTouchOnlyTheirSide, PollingAgentKeepsItsRoles: an event of each agent that
answers a next state. -/
theorem test_witness_agents :
    performer (.frame ChanId.radioIn [1]) = .rx 1 ∧ performer (.pop ChanId.pcOut) = .tx 0 ∧
    performer (.encode 0 [1]) = .poll ∧
    (after (exec (.frame ChanId.radioIn [1]) (quiet 8 [] [])) id).isSome = true ∧
    (after (exec (.pop ChanId.pcOut) (machine .reference [⟨Chan.fresh 8 0, Dec.fresh, chanOf 8 [1]⟩])) id).isSome = true ∧
    (after (exec (.encode 0 [1]) (quiet 8 [] [])) id).isSome = true := by decide

/-- StepKeepsInvariant, ParametersNeverChange: a step that consumes a byte. -/
theorem test_witness_invariant :
    (quiet 8 [1] [.event .poll [0x10, 0]]).Inv ∧ (quiet 8 [1] [.event .poll [0x10, 0]]).Ahead ∧
    (∀ code rest l, (quiet 8 [1] [.event .poll [0x10, 0]]).input = .event .poll code :: rest →
      decode testParams code ≠ .instr (.stepback ⟨l, .inbound⟩)) ∧
    (after (step (quiet 8 [1] [.event .poll [0x10, 0]])) (cursors ChanId.pcIn)) = some (some (1, 1)) :=
  ⟨quiet_inv (by decide) _ _, quiet_ahead _ _ _, fun code rest l h => by
    have : code = [0x10, 0] := by simpa [quiet] using (congrArg List.head? h).symm
    rw [this, show decode testParams [0x10, 0] = .instr (.decStep 0) from rfl]
    simp, by decide⟩

/-- DecodeEncodeAgree and AcceptedCodesAreCanonical, operands above one byte; and an ill-formed term of each kind. -/
theorem test_witness_codes :
    (Instr.view ⟨300, .outbound⟩ 510 254).wf testParams = true ∧
    encode testParams (.view ⟨300, .outbound⟩ 510 254) = [6, 255, 45, 1, 255, 255, 0, 254] ∧
    decode testParams [6, 255, 45, 1, 255, 255, 0, 254] = .instr (.view ⟨300, .outbound⟩ 510 254) ∧
    (Instr.frame ChanId.pcIn (List.replicate 256 0)).wf testParams = false ∧
    Instr.cmdAcknowledge.wf { testParams with ack := 0xF0 } = false :=
  ⟨by decide, by decide, by decide, test_wf_frame_refused, by decide⟩

end Sys2Proof.Tests
end

section
/-! SUPPORT and PROOF. A missing link (log 18): each operation resolves its link operand before it does anything else. -/
namespace Sys2Proof.Machine

/-- Each row of DEC_STEP is the whole step or one named sub-case of it (R140). -/
theorem exec_decStepRows {l : Nat} {i : Instr} (hi : i ∈ decStepRows l) :
    exec i = decStepOn l ∨ ∃ w, exec i = selectedCase w l := by
  simp only [decStepRows, List.mem_cons, List.not_mem_nil, or_false] at hi
  obtain rfl | rfl | rfl | rfl | rfl | rfl | rfl | rfl | rfl := hi
  · exact .inl rfl
  all_goals exact .inr ⟨_, rfl⟩

section MissingLink
variable {s : State}

theorem withLink_of_none {l : Nat} (h : s.links[l]? = none) (f : Link → Result) :
    withLink l s f = .refused (.noSuchLink l) := by simp [withLink, h]

theorem withChan_of_none {ch : ChanId} (h : s.links[ch.link]? = none) (f : Chan → Result) :
    withChan ch s f = .refused (.noSuchLink ch.link) := withLink_of_none h _

theorem pushEvent_of_none {ch : ChanId} (h : s.links[ch.link]? = none) (b : Byte) :
    pushEvent ch b s = .refused (.noSuchLink ch.link) := withChan_of_none h _

theorem exec_decStepRows_of_none {l : Nat} {i : Instr} (h : s.links[l]? = none) (hi : i ∈ decStepRows l) :
    exec i s = .refused (.noSuchLink l) := by
  obtain hstep | ⟨w, hcase⟩ := exec_decStepRows hi
  · rw [hstep]
    exact withLink_of_none h _
  · rw [hcase]
    exact withLink_of_none h _

end MissingLink

/-- Settles O48: the operand of every event is resolved by `withLink` or `withChan`, which refuse a missing link. -/
theorem missingLinkIsRefused : Obligations.MissingLinkIsRefused := by
  intro s l h
  refine ⟨fun d b off n p => ?channelAndEncoder, fun i hi => exec_decStepRows_of_none h hi, ?decRun,
    fun off n => ?dispatch, ?pcLink, ?radioLink⟩
  case channelAndEncoder =>
    have refusesChannel (f : Chan → Result) : withChan ⟨l, d⟩ s f = .refused (.noSuchLink l) := withChan_of_none h f
    simp only [exec, execPush, pushEvent, execHasData, execPop, execPeek, execStepback, execView, execFrame, execEncode,
      encodeFrame, refusesChannel, withLink_of_none h, and_self]
  case decRun => exact withLink_of_none h _
  case dispatch => exact withLink_of_none h _
  case pcLink =>
    rintro rfl b
    exact ⟨pushEvent_of_none h b, by simp only [exec, execFrameReferenceHeader, withChan_of_none h]⟩
  case radioLink =>
    rintro rfl b
    exact pushEvent_of_none h b

end Sys2Proof.Machine
end

section
/-! SUPPORT and PROOF. What the slots of a channel keep through a sequence of PUSHes (R36, R275). -/
namespace Sys2Proof.Machine

/-- No PUSH before push number `j + C` stores to the slot of push number `j`. -/
theorem Chan.Wf.not_stores {c0 : Nat} {c : Chan} (hw : c.Wf c0) {n j : Nat} (hj : j < c.pushed)
    (hn : c.pushed + n ≤ j + c.cap) : ¬ c.Stores n ((c0 + j) % c.cap) := by
  rintro ⟨i, hi, he⟩
  rw [hw.wr_eq, Nat.mod_add_mod] at he
  have : c0 + j = c0 + c.pushed + i := mod_inj_of_lt he (by omega) (by omega)
  omega

/-- Settles O19: the slots that the further PUSHes store to are those of the push numbers from `W` on, and the first of
these that shares its slot with push number `j` is `j + C`. -/
theorem pushedByteStaysForCapacityPushes : Obligations.PushedByteStaysForCapacityPushes := by
  intro s t ch c bs j hc hw hpush hj hn
  obtain ⟨t', ht', htc, -⟩ := pushAll_spec bs hc
  obtain rfl : t' = t := by simpa [hpush] using ht'.symm
  simp only [State.slot?, htc, hc, Option.bind_some]
  exact Chan.pushBytes_slot_other c bs _ hw.wr_lt (hw.not_stores hj hn)

end Sys2Proof.Machine
end

section
/-! SUPPORT. The two invariants of a run, `State.Inv` (R33) and `State.Ahead` (R33.4), under each change of the state: what
leaves the links alone, one channel replaced, a RESET, the collaborator's answer, a decoder's reaction. -/
namespace Sys2Proof.Machine

/-- From a state that meets the invariant, `t` meets it too, and keeps every frame's payload bytes behind the read
cursor. -/
def State.Keeps (s t : State) : Prop := s.Inv → t.Inv ∧ (s.Ahead → t.Ahead)

theorem State.Keeps.refl (s : State) : s.Keeps s := fun h => ⟨h, id⟩

theorem State.Keeps.trans {s t u : State} (h1 : s.Keeps t) (h2 : t.Keeps u) : s.Keeps u := fun hs =>
  have ⟨ht, aheadT⟩ := h1 hs
  have ⟨hu, aheadU⟩ := h2 ht
  ⟨hu, aheadU ∘ aheadT⟩

/-! ### From links to the machine -/

section Linkwise
variable {s t : State}

/-- A dispatch that stands still names a slot when no capacity has changed. -/
theorem Dispatch.Wf.of_links {d : Dispatch} (hd : d.Wf s) (hlen : t.links.length = s.links.length)
    (hl : ∀ (l : Nat) (k k' : Link), s.links[l]? = some k → t.links[l]? = some k' → k'.inCh.cap = k.inCh.cap) :
    d.Wf t := by
  obtain ⟨⟨k, hk, hoff⟩, hn⟩ := hd
  have hlt : d.link < t.links.length := hlen ▸ (List.getElem?_eq_some_iff.1 hk).1
  have hk' := List.getElem?_eq_getElem hlt
  exact ⟨⟨_, hk', by rw [hl _ _ _ hk hk']; exact hoff⟩, hn⟩

/-- Every link of the later state was a link before. -/
theorem link_before (hlen : t.links.length = s.links.length) {l : Nat} {k' : Link} (hk' : t.links[l]? = some k') :
    ∃ k, s.links[l]? = some k :=
  ⟨_, List.getElem?_eq_getElem (hlen ▸ (List.getElem?_eq_some_iff.1 hk').1)⟩

/-- The invariant holds again when each link meets it again, no capacity has changed and no dispatch is new. -/
theorem State.Inv.of_links (hs : s.Inv) (hp : t.params = s.params)
    (hr : ∀ d, t.raised = some d → s.raised = some d) (hlen : t.links.length = s.links.length)
    (hl : ∀ (l : Nat) (k k' : Link), s.links[l]? = some k → t.links[l]? = some k' →
      k'.inCh.cap = k.inCh.cap ∧ k'.Wf s.params) : t.Inv where
  encMax_le := hp ▸ hs.encMax_le
  links_wf := fun l k' hk' => by
    obtain ⟨k, hk⟩ := link_before hlen hk'
    exact hp ▸ (hl l k k' hk hk').2
  raised_wf := fun d hd => (hs.raised_wf d (hr d hd)).of_links hlen fun l k k' hk hk' => (hl l k k' hk hk').1

/-- What a change of one link keeps. -/
structure Link.Keeps (p : Params) (k k' : Link) : Prop where
  cap_eq : k'.inCh.cap = k.inCh.cap
  wf : k.Wf p → k'.Wf p
  ahead : k.Wf p → k.dec.Ahead p.c0 k.inCh → k'.dec.Ahead p.c0 k'.inCh

theorem Link.Keeps.refl (p : Params) (k : Link) : k.Keeps p k := ⟨rfl, id, fun _ => id⟩

theorem State.Keeps.of_links (hp : t.params = s.params) (hr : ∀ d, t.raised = some d → s.raised = some d)
    (hlen : t.links.length = s.links.length)
    (hl : ∀ (l : Nat) (k k' : Link), s.links[l]? = some k → t.links[l]? = some k' → k.Keeps s.params k') :
    s.Keeps t := fun hs => by
  refine ⟨hs.of_links hp hr hlen fun l k k' hk hk' => ?_, fun ha l k' hk' => ?_⟩
  · have keeps := hl l k k' hk hk'
    exact ⟨keeps.cap_eq, keeps.wf (hs.links_wf l k hk)⟩
  · obtain ⟨k, hk⟩ := link_before hlen hk'
    exact hp ▸ (hl l k k' hk hk').ahead (hs.links_wf l k hk) (ha l k hk)

/-- Both invariants speak of the parameters, the links and the standing dispatch only. -/
theorem State.Keeps.of_same_links (hp : t.params = s.params) (hl : t.links = s.links)
    (hr : ∀ d, t.raised = some d → s.raised = some d) : s.Keeps t :=
  .of_links hp hr (by rw [hl]) fun l k k' hk hk' => by
    obtain rfl : k = k' := by simpa [hl, hk] using hk'
    exact .refl _ k

end Linkwise

section Updates
variable (s : State)

theorem State.keeps_note (x : Label) : s.Keeps (s.note x) := .of_same_links rfl rfl fun _ => id

theorem State.keeps_noteOpt (o : Option Label) : s.Keeps (s.noteOpt o) :=
  .of_same_links (by simp) (by simp) (by simp)

theorem State.keeps_tasks (ts : List Task) : s.Keeps { s with tasks := ts } := .of_same_links rfl rfl fun _ => id

theorem State.keeps_input (xs : List Input) : s.Keeps { s with input := xs } := .of_same_links rfl rfl fun _ => id

theorem State.keeps_unraised : s.Keeps { s with raised := none } := .of_same_links rfl rfl fun _ => nofun

/-- A change of one link. -/
theorem State.keeps_modLink {l : Nat} {f : Link → Link}
    (hf : ∀ k, s.links[l]? = some k → k.Keeps s.params (f k)) : s.Keeps (s.modLink l f) :=
  .of_links rfl (fun _ => id) (by simp) fun j k k' hk hk' => by
    rw [State.modLink_getElem?, hk] at hk'
    split at hk'
    · rename_i hl
      obtain rfl : f k = k' := by simpa using hk'
      exact hf k (hl ▸ hk)
    · obtain rfl : k = k' := by simpa using hk'
      exact .refl _ k

end Updates

/-! ### One channel replaced -/

section OneChannel
variable {c c' : Chan}

/-- Bytes behind the read cursor stay behind it when the consumer does not go back. -/
theorem Dec.Ahead.mono {c0 : Nat} {d : Dec} (h : d.Ahead c0 c) (hcap : c'.cap = c.cap)
    (hle : c.consumed ≤ c'.consumed) : d.Ahead c0 c' where
  token := fun hst => by
    obtain ⟨j, hoff, hj⟩ := h.token hst
    exact ⟨j, hcap ▸ hoff, Nat.le_trans hj hle⟩
  payload := fun hst => by
    obtain ⟨j, hoff, hj⟩ := h.payload hst
    exact ⟨j, hcap ▸ hoff, Nat.le_trans hj hle⟩

theorem Link.setChan_inCh_cap {k : Link} {d : Dir} (hcap : c'.cap = (k.chan d).cap) :
    (k.setChan d c').inCh.cap = k.inCh.cap := by
  cases d
  · exact hcap
  · rfl

theorem Link.Wf.setChan {p : Params} {k : Link} {d : Dir} (h : k.Wf p) (hcap : c'.cap = (k.chan d).cap)
    (hw : c'.Wf p.c0) : (k.setChan d c').Wf p := by
  cases d with
  | inbound => exact ⟨hw, (show c'.cap = k.inCh.cap from hcap) ▸ h.decoder, h.outbound⟩
  | outbound => exact ⟨h.inbound, h.decoder, hw⟩

theorem Link.Wf.chan {p : Params} {k : Link} (h : k.Wf p) (d : Dir) : (k.chan d).Wf p.c0 := by
  cases d
  · exact h.inbound
  · exact h.outbound

theorem Link.keeps_setChan {p : Params} {k : Link} {d : Dir} (hcap : c'.cap = (k.chan d).cap)
    (hw : (k.chan d).Wf p.c0 → c'.Wf p.c0) (hle : d = .inbound → k.inCh.consumed ≤ c'.consumed) :
    k.Keeps p (k.setChan d c') where
  cap_eq := Link.setChan_inCh_cap hcap
  wf := fun hk => hk.setChan hcap (hw (hk.chan d))
  ahead := fun _ ha => by
    cases d with
    | inbound => exact ha.mono hcap (hle rfl)
    | outbound => exact ha

variable {s : State} {ch : ChanId}

/-- A channel replaced by one of its capacity that meets the invariant and, on an inbound channel, has consumed no
less. -/
theorem State.keeps_setChan (hc : s.chan? ch = some c) (hcap : c'.cap = c.cap)
    (hw : c.Wf s.params.c0 → c'.Wf s.params.c0) (hle : ch.dir = .inbound → c.consumed ≤ c'.consumed) :
    s.Keeps (s.setChan ch c') := s.keeps_modLink fun k hk => by
  obtain ⟨k', hk', rfl⟩ := State.chan?_eq_some.1 hc
  obtain rfl : k = k' := by simpa [hk] using hk'
  exact Link.keeps_setChan hcap hw fun hd => by simpa [hd] using hle hd

theorem State.keeps_pushByte (hc : s.chan? ch = some c) (b : Byte) : s.Keeps (s.setChan ch (c.pushByte b)) :=
  State.keeps_setChan hc rfl (fun hw => hw.push b) fun _ => Nat.le_refl _

theorem State.keeps_look (hc : s.chan? ch = some c) : s.Keeps (s.setChan ch c.look) :=
  State.keeps_setChan hc rfl Chan.Wf.looks fun _ => Nat.le_refl _

theorem State.keeps_consume (hc : s.chan? ch = some c) (hd : c.rd ≠ c.wr) : s.Keeps (s.setChan ch c.consume) :=
  State.keeps_setChan hc rfl (·.consumes hd) fun _ => Nat.le_succ _

/-- A STEPBACK keeps the first invariant on every channel. -/
theorem State.Inv.unconsume (hs : s.Inv) (hc : s.chan? ch = some c) (hr : c.justRead = true) :
    (s.setChan ch c.unconsume).Inv :=
  hs.of_links rfl (fun _ => id) (by simp) fun l k k' hk hk' => by
    rw [State.setChan_getElem?, hk] at hk'
    have hkw := hs.links_wf l k hk
    split at hk'
    · rename_i hl
      subst hl
      obtain rfl : k.setChan ch.dir c.unconsume = k' := by simpa using hk'
      obtain rfl : k.chan ch.dir = c := by simpa [State.chan?, hk] using hc
      exact ⟨Link.setChan_inCh_cap rfl, hkw.setChan rfl ((hkw.chan _).unconsumes hr)⟩
    · obtain rfl : k = k' := by simpa using hk'
      exact ⟨rfl, hkw⟩

end OneChannel

/-! ### Right after RESET -/

/-- A machine whose links are all right after RESET, of an accepted configuration (R237, R260), meets both invariants. -/
theorem State.inv_and_ahead_of_fresh {t : State} (he : t.params.encMax ≤ 255) (hr : t.raised = none)
    (hl : ∀ k ∈ t.links, ∃ capIn capOut, k = Link.fresh capIn capOut t.params.c0 ∧ 2 ≤ capIn ∧ t.params.c0 < capIn ∧
      2 ≤ capOut ∧ t.params.c0 < capOut) : t.Inv ∧ t.Ahead := by
  refine ⟨⟨he, fun l k hk => ?_, fun d hd => by simp [hr] at hd⟩, fun l k hk => ?_⟩
  · obtain ⟨capIn, capOut, rfl, hi, hci, ho, hco⟩ := hl k (List.mem_of_getElem? hk)
    exact .fresh hi ho hci hco
  · obtain ⟨capIn, capOut, rfl, -⟩ := hl k (List.mem_of_getElem? hk)
    exact .of_early (by simp [Link.fresh, Dec.fresh]) (by simp [Link.fresh, Dec.fresh])

/-- Settles O56: `State.reset` is two links right after RESET, in the reference configuration. -/
theorem resetStateKeepsInvariant : Obligations.ResetStateKeepsInvariant := by
  refine State.inv_and_ahead_of_fresh (by decide) rfl fun k hk => ?_
  obtain ⟨c, hc, rfl⟩ := List.mem_map.1 hk
  obtain rfl := List.eq_of_mem_replicate hc
  exact ⟨_, _, rfl, by decide⟩

/-! ### The collaborator's answer -/

theorem Link.Answered.keeps {p : Params} {k k' : Link} (h : k.Answered k') : k.Keeps p k' := by
  obtain ⟨hdec, hin, bs, hout⟩ := h
  have hcap : k'.inCh.cap = k.inCh.cap := by rcases hin with hin | hin <;> simp [hin]
  refine ⟨hcap, fun hk => ⟨?_, by rw [hdec, hcap]; exact hk.decoder, hout ▸ hk.outbound.push_bytes bs⟩, fun _ ha => ?_⟩
  · rcases hin with hin | hin
    · exact hin ▸ hk.inbound
    · exact hin ▸ hk.inbound.looks
  · rw [hdec]
    exact ha.mono hcap (by rcases hin with hin | hin <;> simp [hin])

theorem State.Answered.keeps {s t : State} (h : s.Answered t) : s.Keeps t :=
  .of_links h.params_eq (by simp [h.raised_eq]) h.length_eq fun l k k' hk hk' => by
    obtain ⟨k2, hk2, ha⟩ := h.link l k hk
    obtain rfl : k2 = k' := by simpa [hk2] using hk'
    exact ha.keeps

theorem deliver_keeps {s t : State} (h : deliver s = .next t) : s.Keeps t :=
  s.keeps_unraised.trans (deliver_answered h).keeps

/-! ### A decoder's reaction -/

section Reaction
variable {p : Params} {l : Nat} {b : Byte} {k : Link}

@[simp] theorem Link.reacted_cap (r : Reaction) : (k.reacted r).inCh.cap = k.inCh.cap := by
  unfold Link.reacted
  cases r.consume <;> rfl

/-- A link with data keeps both invariants when its decoder reacts to a byte (R33, R152). -/
theorem Link.keeps_reacted (hd : k.inCh.rd ≠ k.inCh.wr) :
    k.Keeps p (k.reacted (react k.dec.subCase p l k.inCh.cap k.inCh.rd k.dec b)) where
  cap_eq := Link.reacted_cap _
  wf := fun hk => by
    refine ⟨?_, ?_, hk.outbound⟩
    · show Chan.Wf p.c0 (if _ then _ else _)
      split
      · exact hk.inbound.consumes hd
      · exact hk.inbound.looks
    · rw [Link.reacted_cap]
      exact react_wf hk.inbound.rd_lt hk.decoder
  ahead := fun hk ha => react_ahead hk.inbound ha

end Reaction

/-- A raised dispatch that names a slot and has its length keeps the invariant. -/
theorem State.keeps_raise {s : State} {d : Dispatch} (h : s.Inv → d.Wf s) : s.Keeps (s.raise d) := fun hs =>
  have hd := h hs
  ⟨⟨hs.encMax_le, hs.links_wf, fun _ h' => Option.some.inj h' ▸ ⟨hd.start_lt, hd.length_eq⟩⟩, id⟩

/-- A DEC_STEP, whatever its sub-case: the answer to a dispatch that stood leaves the link's decoder and inbound cursors, so
the reaction is the one of the link that it leaves (R140, R209). -/
theorem decStepOn_keeps {l : Nat} {s t : State} (h : decStepOn l s = .next t) : s.Keeps t := by
  obtain ⟨k, hk, hcase⟩ := decStepOn_eq_next.1 h
  obtain ⟨k', b, u, hk', hd, hb, hu, ht⟩ := decCase_eq_next.1 hcase
  obtain rfl : k = k' := by simpa [hk] using hk'
  have answered := deliver_answered hu
  obtain ⟨ku, hku, aku⟩ := answered.link l k hk
  obtain ⟨hcap, hrd, hwr, -⟩ := aku.inbound_eq
  have hdec : ku.dec = k.dec := aku.1
  have hparams : u.params = s.params := answered.params_eq
  rw [← hcap, ← hrd, ← hdec, ← hparams] at ht
  generalize hr : react ku.dec.subCase u.params l ku.inCh.cap ku.inCh.rd ku.dec b = r at ht
  have settled : u.Keeps (settle l r u) := by
    refine (u.keeps_modLink fun k2 hk2 => ?_).trans (State.keeps_noteOpt _ _)
    obtain rfl : ku = k2 := by simpa [hku] using hk2
    exact hr ▸ Link.keeps_reacted (by rw [hrd, hwr]; exact hd)
  refine (deliver_keeps hu).trans (settled.trans ?_)
  rcases ht with ⟨-, rfl⟩ | ⟨-, bs, hbs, rfl⟩
  · exact .refl _
  · refine State.keeps_raise fun hinv => ?_
    have hself : (settle l r u).links[l]? = some (ku.reacted r) := settle_self l r u hku
    exact ⟨⟨_, hself, (hinv.links_wf l _ hself).decoder.start_lt⟩, (Chan.readRun_eq_ok.1 hbs).1⟩

end Sys2Proof.Machine
end

section
/-! SUPPORT and PROOF. Both invariants along every event, every task and every step (R33). -/
namespace Sys2Proof.Machine
variable {s t : State}

/-! ### Operations -/

theorem pushEvent_keeps {ch : ChanId} {b : Byte} (h : pushEvent ch b s = .next t) : s.Keeps t := by
  obtain ⟨c, hc, rfl⟩ := pushEvent_eq_next.1 h
  exact (State.keeps_pushByte hc b).trans (State.keeps_noteOpt _ _)

theorem pushAll_keeps {ch : ChanId} {bs : List Byte} (h : pushAll ch bs s = .next t) : s.Keeps t := by
  induction bs generalizing s with
  | nil => cases h; exact .refl _
  | cons b bs ih =>
    obtain ⟨u, hu, ht⟩ := andThen_eq_next.1 h
    exact (pushEvent_keeps hu).trans (ih ht)

theorem decRunLoop_keeps {fuel l : Nat} (h : decRunLoop fuel l s = .next t) : s.Keeps t := by
  induction fuel generalizing s with
  | zero => cases h; exact .refl _
  | succ fuel ih =>
    obtain ⟨u, hu, hturn⟩ := andThen_eq_next.1 h
    obtain ⟨k, hk, hturn⟩ := withLink_eq_next.1 hturn
    refine (deliver_keeps hu).trans ?_
    split at hturn
    · obtain ⟨v, hv, ht⟩ := andThen_eq_next.1 hturn
      exact (decStepOn_keeps hv).trans (ih ht)
    · cases hturn
      exact State.keeps_look (State.chan?_eq_some.2 ⟨k, hk, rfl⟩)

theorem decRunAlone_keeps {l : Nat} (h : decRunAlone l s = .next t) : s.Keeps t := by
  obtain ⟨k, -, hrun⟩ := withLink_eq_next.1 h
  exact decRunLoop_keeps hrun

theorem decRunEach_keeps {ls : List Nat} (h : decRunEach ls s = .next t) : s.Keeps t := by
  induction ls generalizing s with
  | nil => cases h; exact .refl _
  | cons l ls ih =>
    obtain ⟨u, hu, ht⟩ := andThen_eq_next.1 h
    exact (decRunAlone_keeps hu).trans (ih ht)

/-- A DISPATCH event goes on only where its dispatch stands. -/
theorem withRaised_next {dec off : Nat} {n : Byte} {r : Result} (h : withRaised dec off n s r = .next t) :
    r = .next t := by
  obtain ⟨-, -, h⟩ := withLink_eq_next.1 h
  split at h
  · cases h
  · split at h
    · exact h
    · cases h

theorem commandEvent_keeps {c : Command} (h : commandEvent c s = .next t) : s.Keeps t := by
  obtain ⟨d, b, rest, -, -, -, hrun⟩ := withCommand_eq_next.1 h
  exact s.keeps_unraised.trans (runReplies_answered hrun).keeps

/-- RESET puts fresh links in the place of all (R260), whatever was there. -/
theorem execReset_keeps (h : execReset s = .next t) : s.Keeps t := fun hs => by
  suffices fresh : t.Inv ∧ t.Ahead from fresh.imp id fun ha _ => ha
  unfold execReset at h
  split at h
  · cases h
  · split at h
    · rename_i hok
      cases h
      refine State.inv_and_ahead_of_fresh hs.encMax_le rfl fun k' hk' => ?_
      obtain ⟨k, hk, rfl⟩ := List.mem_map.1 hk'
      simp only [State.configOk, Chan.configOk, Bool.and_eq_true, decide_eq_true_eq, List.all_eq_true] at hok
      obtain ⟨⟨hi, hci⟩, ho, hco⟩ := hok.2 k hk
      exact ⟨_, _, rfl, hi, hci, ho, hco⟩
    · cases h

theorem execHasData_keeps {ch : ChanId} (h : execHasData ch s = .next t) : s.Keeps t := by
  obtain ⟨c, hc, ht⟩ := withChan_eq_next.1 h
  cases ht
  exact (State.keeps_look hc).trans (State.keeps_note _ _)

theorem execPop_keeps {ch : ChanId} (h : execPop ch s = .next t) : s.Keeps t := by
  obtain ⟨c, hc, hread⟩ := withChan_eq_next.1 h
  obtain ⟨hd, b, -, ht⟩ := withOldest_eq_next.1 hread
  cases ht
  exact (State.keeps_consume hc hd).trans (State.keeps_note _ _)

theorem execPeek_keeps {ch : ChanId} (h : execPeek ch s = .next t) : s.Keeps t := by
  obtain ⟨c, hc, hread⟩ := withChan_eq_next.1 h
  obtain ⟨-, b, -, ht⟩ := withOldest_eq_next.1 hread
  cases ht
  exact (State.keeps_look hc).trans (State.keeps_note _ _)

theorem execView_keeps {ch : ChanId} {off n : Nat} (h : execView ch off n s = .next t) : s.Keeps t := by
  obtain ⟨c, hc, hview⟩ := withChan_eq_next.1 h
  obtain ⟨-, -, bs, -, ht⟩ := withView_eq_next.1 hview
  cases ht
  exact (State.keeps_look hc).trans (State.keeps_note _ _)

theorem execFrame_keeps {ch : ChanId} {p : List Byte} (h : execFrame ch p s = .next t) : s.Keeps t := by
  obtain ⟨-, -, hpush⟩ := withChan_eq_next.1 h
  split at hpush
  · cases hpush
  · exact pushAll_keeps hpush

theorem execFrameReferenceHeader_keeps {n : Byte} (h : execFrameReferenceHeader n s = .next t) : s.Keeps t := by
  obtain ⟨-, -, hpush⟩ := withChan_eq_next.1 h
  exact pushAll_keeps hpush

theorem execStepback_eq_next {ch : ChanId} :
    execStepback ch s = .next t ↔ ∃ c, s.chan? ch = some c ∧ c.justRead = true ∧ t = s.setChan ch c.unconsume := by
  simp only [execStepback, withChan_eq_next]
  refine exists_congr fun c => and_congr_right fun _ => ?_
  by_cases hr : c.justRead = true
  · simp [hr, eq_comm]
  · simp [hr]

/-! ### Every event -/

/-- Every event but a raw STEPBACK on an inbound channel keeps both invariants. -/
theorem exec_keeps {i : Instr} (hi : ∀ l, i ≠ .stepback ⟨l, .inbound⟩) (h : exec i s = .next t) : s.Keeps t := by
  cases i with
  | push | feedPc | feedRadio => exact pushEvent_keeps h
  | hasData => exact execHasData_keeps h
  | pop => exact execPop_keeps h
  | peek => exact execPeek_keeps h
  | stepback ch =>
    obtain ⟨c, hc, hr, rfl⟩ := execStepback_eq_next.1 h
    exact State.keeps_setChan hc rfl (·.unconsumes hr) fun hd => absurd (by cases ch; cases hd; rfl) (hi ch.link)
  | view => exact execView_keeps h
  | decStep => exact decStepOn_keeps h
  | decAwaitMagic1 | decAwaitMagic2 | decAwaitMagic3 | decAwaitMagic4 | decReadLength | decReadToken | decPayload
  | decChecksum => exact decStepOn_keeps (selectedCase_step h)
  | dispatch => exact deliver_keeps (withRaised_next h)
  | decRun => exact decRunAlone_keeps h
  | encode => exact (encodeFrame_answered h).keeps
  | tick => exact decRunEach_keeps h
  | reset => exact execReset_keeps h
  | frame => exact execFrame_keeps h
  | frameReferenceHeader => exact execFrameReferenceHeader_keeps h
  | cmdGetAlive | cmdAcknowledge | cmdStartConfig | cmdUnknown => exact commandEvent_keeps h

/-- Every event keeps the first invariant. -/
theorem exec_inv {i : Instr} (hs : s.Inv) (h : exec i s = .next t) : t.Inv := by
  by_cases hi : ∃ l, i = .stepback ⟨l, .inbound⟩
  · obtain ⟨l, rfl⟩ := hi
    obtain ⟨c, hc, hr, rfl⟩ := execStepback_eq_next.1 h
    exact hs.unconsume hc hr
  · exact (exec_keeps (not_exists.1 hi) h hs).1

/-! ### Operations event by event -/

theorem pushNext_keeps {enc : Nat} {rest : List Byte} {cks : Byte} (h : pushNext enc rest cks s = .next t) :
    s.Keeps t := by
  cases rest with
  | nil => exact (pushRun_answered h).keeps
  | cons x xs =>
    obtain ⟨u, hu, ht⟩ := andThen_eq_next.1 h
    cases ht
    exact (pushEvent_keeps hu).trans (State.keeps_tasks _ _)

theorem encodeNext_keeps {enc : Nat} {p : List Byte} (h : encodeNext enc p s = .next t) : s.Keeps t := by
  obtain ⟨k, -, hpush⟩ := withLink_eq_next.1 h
  split at hpush
  · cases hpush
  · exact pushNext_keeps hpush

theorem deliverNext_keeps (h : deliverNext s = .next t) : s.Keeps t := by
  unfold deliverNext at h
  split at h
  · cases h
    exact .refl _
  · cases h
    exact s.keeps_unraised.trans (State.keeps_tasks _ _)

theorem decRunNext_keeps {l : Nat} (h : decRunNext l s = .next t) : s.Keeps t := by
  unfold decRunNext at h
  split at h
  · exact (s.keeps_tasks _).trans (deliverNext_keeps h)
  · obtain ⟨k, hk, hturn⟩ := withLink_eq_next.1 h
    split at hturn
    · obtain ⟨u, hu, ht⟩ := andThen_eq_next.1 hturn
      cases ht
      exact (decStepOn_keeps hu).trans (State.keeps_tasks _ _)
    · cases hturn
      exact State.keeps_look (State.chan?_eq_some.2 ⟨k, hk, rfl⟩)

theorem runTask_keeps {x : Task} (h : runTask x s = .next t) : s.Keeps t := by
  cases x with
  | reply r =>
    cases r with
    | encode enc p => exact encodeNext_keeps h
    | copyRecord l off => exact (copyRecord_answered h).keeps
  | pushing enc rest cks => exact pushNext_keeps h
  | decRun l => exact decRunNext_keeps h
  | deliver => exact deliverNext_keeps h

theorem pollNext_keeps (h : pollNext s = .next t) : s.Keeps t := by
  cases hts : s.tasks with
  | nil =>
    rw [pollNext_of_nil hts] at h
    cases h
    exact .refl _
  | cons x ts =>
    rw [pollNext_of_cons hts] at h
    exact (s.keeps_tasks ts).trans (runTask_keeps h)

theorem withCommand_queueReplies_keeps {c : Command} (h : withCommand c s queueReplies = .next t) : s.Keeps t := by
  obtain ⟨d, b, rest, -, -, -, hq⟩ := withCommand_eq_next.1 h
  cases hq
  exact s.keeps_unraised.trans (State.keeps_tasks _ _)

/-- An operation's start queues its tasks; any other instruction is performed at once. -/
theorem beginOperation_eq_exec_or_keeps {i : Instr} (h : beginOperation i s = .next t) :
    exec i s = .next t ∨ s.Keeps t := by
  cases i with
  | encode | decRun =>
    obtain ⟨-, -, ht⟩ := withLink_eq_next.1 h
    cases ht
    exact .inr (s.keeps_tasks _)
  | tick =>
    cases h
    exact .inr (s.keeps_tasks _)
  | dispatch =>
    cases withRaised_next h
    exact .inr (s.keeps_tasks _)
  | cmdGetAlive | cmdAcknowledge | cmdStartConfig | cmdUnknown => exact .inr (withCommand_queueReplies_keeps h)
  | _ => exact .inl h

/-! ### Every step -/

/-- A step keeps both invariants, or it performs the instruction of an entry of the schedule, which its agent may
perform. -/
theorem step_keeps_or_exec (h : step s = .next t) :
    s.Keeps t ∨ ∃ a code rest i, (s.input = .event a code :: rest ∨ (a = .poll ∧ s.input = .begin code :: rest)) ∧
      decode s.params code = .instr i ∧ performer i = a ∧ exec i { s with input := rest } = .next t := by
  rcases step_cases h with hpoll | ⟨rest, -, hpoll⟩ | ⟨a, code, rest, i, hin, hcode, hadm, hexec⟩ |
    ⟨code, rest, i, hin, hcode, hadm, hbegin⟩
  · exact .inl (pollNext_keeps hpoll)
  · exact .inl ((s.keeps_input rest).trans (pollNext_keeps hpoll))
  · obtain ⟨-, -, hperf⟩ := admission_eq_none.1 hadm
    exact .inr ⟨a, code, rest, i, .inl hin, hcode, hperf, hexec⟩
  · obtain ⟨-, -, hperf⟩ := admission_eq_none.1 hadm
    rcases beginOperation_eq_exec_or_keeps hbegin with hexec | hkeeps
    · exact .inr ⟨.poll, code, rest, i, .inr ⟨rfl, hin⟩, hcode, hperf, hexec⟩
    · exact .inl ((s.keeps_input rest).trans hkeeps)

/-- Settles O57: each event, and each event of an operation under way, keeps both invariants, but for a raw STEPBACK on an
inbound channel. That one keeps the first, and only the polling agent performs it (R246), so that it stands at the head of
the schedule where the second claim's premise excludes it. -/
theorem stepKeepsInvariant : Obligations.StepKeepsInvariant := by
  intro s t hs h
  rcases step_keeps_or_exec h with hkeeps | ⟨a, code, rest, i, hin, hcode, hperf, hexec⟩
  · exact (hkeeps hs).imp id fun ahead ha _ => ahead ha
  · have hinput := s.keeps_input rest
    refine ⟨exec_inv (hinput hs).1 hexec, fun ha hno => ?_⟩
    refine ((hinput.trans (exec_keeps (fun l hi => ?_) hexec)) hs).2 ha
    subst hi
    obtain rfl : Agent.poll = a := hperf
    exact hno code rest l (hin.imp id And.right) hcode

end Sys2Proof.Machine
end

section
/-! SUPPORT. When each row that works on one channel answers, and what it leaves: one equivalence per row. -/
namespace Sys2Proof.Machine
variable {s t : State} {ch : ChanId}

theorem execHasData_eq_next :
    execHasData ch s = .next t ↔ ∃ c, s.chan? ch = some c ∧ t = (s.setChan ch c.look).note (.hasData ch c.hasData) := by
  simp only [execHasData, withChan_eq_next, Host.Outcome.next.injEq, @eq_comm _ t]

theorem execPop_eq_next :
    execPop ch s = .next t ↔ ∃ c b, s.chan? ch = some c ∧ c.rd ≠ c.wr ∧ c.slot? c.rd = some b ∧
      t = (s.setChan ch c.consume).note (.popped ch b) := by
  simp only [execPop, withChan_eq_next, withOldest_eq_next, Host.Outcome.next.injEq, @eq_comm _ t, exists_and_left]

theorem execPeek_eq_next :
    execPeek ch s = .next t ↔ ∃ c b, s.chan? ch = some c ∧ c.rd ≠ c.wr ∧ c.slot? c.rd = some b ∧
      t = (s.setChan ch c.look).note (.peeked ch b) := by
  simp only [execPeek, withChan_eq_next, withOldest_eq_next, Host.Outcome.next.injEq, @eq_comm _ t, exists_and_left]

theorem execView_eq_next {off n : Nat} :
    execView ch off n s = .next t ↔ ∃ c bs, s.chan? ch = some c ∧ n ≤ c.cap ∧ off < c.cap ∧ c.readRun off n = .ok bs ∧
      t = (s.setChan ch c.look).note (.viewed ch off bs) := by
  simp only [execView, withChan_eq_next, withView_eq_next, Host.Outcome.next.injEq, @eq_comm _ t, exists_and_left]

theorem execFrame_eq_next {p : List Byte} :
    execFrame ch p s = .next t ↔ p.length ≤ 255 ∧ ∃ c, s.chan? ch = some c ∧
      pushAll ch (frameBytes s.params p) s = .next t := by
  rw [execFrame, withChan_eq_next]
  by_cases hp : 255 < p.length
  · simp [hp, Nat.not_le.2 hp]
  · simp [hp, Nat.not_lt.1 hp]

theorem execFrameReferenceHeader_eq_next {n : Byte} :
    execFrameReferenceHeader n s = .next t ↔ ∃ c, s.chan? .pcIn = some c ∧
      pushAll .pcIn (referenceHeader n) s = .next t := withChan_eq_next

end Sys2Proof.Machine
end

section
/-! SUPPORT and PROOF. A PUSH and a POP on one channel in either order (R66), and what each makes of `occ`. -/
namespace Sys2Proof.Machine

section Occupancy
variable {c0 : Nat} {c : Chan}

/-- A PUSH adds one to `occ`, modulo `C`. -/
theorem Chan.Wf.occ_pushByte (hw : c.Wf c0) (b : Byte) : (c.pushByte b).occ = (c.occ + 1) % c.cap := by
  rw [(hw.push b).occ_eq, hw.occ_eq, Nat.mod_add_mod, ← Nat.sub_add_comm hw.consumed_le]
  rfl

/-- A consuming read takes one from `occ`. -/
theorem Chan.Wf.occ_consume (hw : c.Wf c0) (hpos : 0 < c.occ) : c.consume.occ + 1 = c.occ := by
  have hd := hw.occ_pos_iff.1 hpos
  have hlt := hw.consumed_lt hd
  have hle : c.consume.occ + 1 ≤ c.cap := Nat.mod_lt _ hw.cap_pos
  have hmod : c.occ = (c.consume.occ + 1) % c.cap := by
    rw [(hw.consumes hd).occ_eq, hw.occ_eq, Chan.consume_cap, Nat.mod_add_mod, Chan.consume_pushed, Chan.consume_consumed]
    congr 1
    omega
  rcases Nat.lt_or_eq_of_le hle with hbelow | hfull
  · rw [hmod, Nat.mod_eq_of_lt hbelow]
  · rw [hfull, Nat.mod_self] at hmod
    omega

theorem Chan.atLimit_eq_false (h : c.occ + 1 < c.cap) : c.atLimit = false := by
  simp [Chan.atLimit, Nat.ne_of_lt h]

end Occupancy

section ChannelEvents
variable {s : State} {ch : ChanId} {c : Chan}

/-- The later of two replacements of one channel counts. -/
theorem Link.setChan_setChan (k : Link) (d : Dir) (c c' : Chan) : (k.setChan d c).setChan d c' = k.setChan d c' := by
  cases d <;> rfl

theorem State.setChan_setChan (s : State) (ch : ChanId) (c c' : Chan) :
    (s.setChan ch c).setChan ch c' = s.setChan ch c' := by
  have hlink : (Link.setChan · ch.dir c') ∘ (Link.setChan · ch.dir c) = (Link.setChan · ch.dir c') :=
    funext fun k => k.setChan_setChan ch.dir c c'
  simp only [State.setChan, State.modLink, List.modify_modify_eq, hlink]

theorem State.setChan_chan?_of_some (hc : s.chan? ch = some c) (c' : Chan) :
    (s.setChan ch c').chan? ch = some c' := by
  simp [State.setChan_chan?_self, hc]

/-- What a PUSH leaves where it does not overrun (R110). -/
theorem execPush_of_not_atLimit (hc : s.chan? ch = some c) (hlim : c.atLimit = false) (b : Byte) :
    execPush ch b s = .next (s.setChan ch (c.pushByte b)) := by
  simp [execPush, pushEvent_of_some hc, hlim, State.noteOpt]

/-- A POP on a channel that reads as empty (R114). -/
theorem execPop_of_empty (hc : s.chan? ch = some c) (hd : c.rd = c.wr) : execPop ch s = .fault (.popEmpty ch) := by
  simp [execPop, withChan_of_some hc, withOldest, Chan.hasData, hd]

end ChannelEvents

/-- Settles O18: the overrun PUSH makes `occ` zero, so the channel reads as empty. -/
theorem overrunThenPopFaults : Obligations.OverrunThenPopFaults := by
  intro s ch c b hc hw hfull
  obtain ⟨t, ht, htc, -⟩ := pushEvent_spec hc b
  have hocc : (c.pushByte b).occ = 0 := by rw [hw.occ_pushByte, hfull, Nat.mod_self]
  have hempty : (c.pushByte b).rd = (c.pushByte b).wr :=
    Decidable.byContradiction fun hd => Nat.ne_of_gt ((hw.push b).occ_pos_iff.2 hd) hocc
  rw [show exec (.push ch b) s = .next t from ht]
  exact execPop_of_empty htc hempty

/-- Settles O17: with `0 < occ < C - 1` neither order overruns or empties the channel before its POP, the PUSH leaves the
slot at `rd` alone, and both orders make the same two assignments. -/
theorem pushAndPopCommute : Obligations.PushAndPopCommute := by
  intro s ch c b hc hw hpos hroom
  have hd := hw.occ_pos_iff.1 hpos
  obtain ⟨x, hx⟩ := hw.oldest hd
  refine ⟨(s.setChan ch (c.pushByte b).consume).note (.popped ch x), ?pushFirst, ?popFirst⟩
  case pushFirst =>
    have hpushed := State.setChan_chan?_of_some hc (c.pushByte b)
    have hd' : (c.pushByte b).rd ≠ (c.pushByte b).wr :=
      (hw.push b).occ_pos_iff.1 (by rw [hw.occ_pushByte, Nat.mod_eq_of_lt hroom]; exact Nat.succ_pos _)
    have hx' : (c.pushByte b).slot? (c.pushByte b).rd = some x := by
      rw [Chan.pushByte_slot, Chan.pushByte_rd, if_neg hd, hx]
    simp only [exec, execPush_of_not_atLimit hc (Chan.atLimit_eq_false hroom), andThen_next_left,
      execPop_eq_next.2 ⟨_, x, hpushed, hd', hx', rfl⟩, State.setChan_setChan]
  case popFirst =>
    have hpopped : ((s.setChan ch c.consume).note (.popped ch x)).chan? ch = some c.consume :=
      State.setChan_chan?_of_some hc c.consume
    have hlim : c.consume.atLimit = false :=
      Chan.atLimit_eq_false (by rw [hw.occ_consume hpos]; exact Nat.lt_of_succ_lt hroom)
    simp only [exec, execPop_eq_next.2 ⟨c, x, hc, hd, hx, rfl⟩, andThen_next_left,
      execPush_of_not_atLimit hpopped hlim]
    rw [← State.setChan_setChan s ch c.consume (c.pushByte b).consume]
    rfl

end Sys2Proof.Machine
end

section
/-! SUPPORT and PROOF. What a step does with the head of the schedule (R60): an event whole, the start of an operation, or
the next event of the operation the polling agent is inside. -/
namespace Sys2Proof.Machine

section Head
variable {s : State} {code : List Byte} {rest : List Input}

/-- Decoded and admitted, an instruction is given to `run`. -/
theorem runCode_of_admitted {a : Agent} {i : Instr} (hcode : decode s.params code = .instr i)
    (hadm : admission a i s = none) (run : Instr → State → Result) : runCode a code s run = run i s := by
  simp [runCode, hcode, hadm]

/-- An agent waits exactly if it is the polling agent and is inside an operation. -/
theorem pollBusy_eq_false {a : Agent} : pollBusy a s = false ↔ (a = .poll → s.tasks = []) := by
  simp [pollBusy]

/-- An event at the head of the schedule that its agent may perform, and need not wait with, runs. -/
theorem step_of_event {a : Agent} {i : Instr} (hin : s.input = .event a code :: rest) (hfree : pollBusy a s = false)
    (hcode : decode s.params code = .instr i) (hadm : admission a i s = none) :
    step s = exec i { s with input := rest } := by
  simp only [step, runNext, hin, hfree]
  exact runCode_of_admitted (s := { s with input := rest }) hcode hadm exec

/-- An operation at the head of the schedule that the polling agent may begin, and need not wait with, begins. -/
theorem step_of_begin {i : Instr} (hin : s.input = .begin code :: rest) (hfree : pollBusy .poll s = false)
    (hcode : decode s.params code = .instr i) (hadm : admission .poll i s = none) :
    step s = beginOperation i { s with input := rest } := by
  simp only [step, runNext, hin, hfree]
  exact runCode_of_admitted (s := { s with input := rest }) hcode hadm beginOperation

/-- An entry of the polling agent waits while the agent is inside an operation; with none the agent goes on too. -/
theorem step_of_busy (hbusy : pollBusy .poll s = true)
    (hin : s.input = .event .poll code :: rest ∨ s.input = .begin code :: rest ∨ s.input = []) :
    step s = pollNext s := by
  rcases hin with hin | hin | hin <;> simp [step, runNext, hin, hbusy]

end Head

/-- Settles O51: the agent is busy, so the step is its next event. -/
theorem busyPollingAgentKeepsItsOrder : Obligations.BusyPollingAgentKeepsItsOrder := by
  intro s code rest x xs htasks hin
  rw [step_of_busy (by simp [pollBusy, htasks]) hin, pollNext_of_cons htasks]

section Operations
variable {s : State}

/-- An instruction that is one event is performed at once. -/
theorem beginOperation_of_not_isOperation {i : Instr} (hi : isOperation i = false) : beginOperation i s = exec i s := by
  cases i with
  | encode | decRun | tick | dispatch | cmdGetAlive | cmdAcknowledge | cmdStartConfig | cmdUnknown => cases hi
  | _ => rfl

/-- The start of a command row queues CommandProcessor's replies to its command. -/
theorem beginOperation_instrOfCommand (c : Command) :
    beginOperation (instrOfCommand c) s = withCommand c s queueReplies := by
  cases c <;> rfl

/-- A DISPATCH event names the dispatch that stands. -/
theorem withRaised_of_some {d : Dispatch} {k : Link} (hd : s.raised = some d) (hk : s.links[d.link]? = some k)
    (r : Result) : withRaised d.link d.off d.n s r = r := by
  simp [withRaised, withLink_of_some hk, hd]

end Operations

/-- Settles O49: the entry is admitted, so its instruction runs, or its operation begins; what each operation leaves to do
is one equation of `beginOperation`. -/
theorem stepRunsDecodedInstruction : Obligations.StepRunsDecodedInstruction := by
  intro s code rest i hcode hwf hboot
  refine ⟨fun a hin hperf hfree => ?event, fun hin hperf htasks => ?start⟩
  case event =>
    exact step_of_event hin (pollBusy_eq_false.2 hfree) hcode (admission_eq_none.2 ⟨hwf, hboot, hperf⟩)
  case start =>
    rw [step_of_begin hin (pollBusy_eq_false.2 fun _ => htasks) hcode (admission_eq_none.2 ⟨hwf, hboot, hperf⟩)]
    refine ⟨beginOperation_of_not_isOperation, ?encode, ?decRun, ?tick, ?dispatch, ?command⟩
    case encode =>
      rintro enc p k rfl hk
      simp [beginOperation, withLink, hk, htasks]
    case decRun =>
      rintro l k rfl hk
      simp [beginOperation, withLink, hk, htasks]
    case tick =>
      rintro rfl
      simp [beginOperation, htasks]
    case dispatch =>
      rintro d k rfl hd hk
      exact (withRaised_of_some (s := { s with input := rest }) hd hk _).trans (by rw [htasks])
    case command =>
      rintro d b bs rfl hd hp
      rw [beginOperation_instrOfCommand]
      exact withCommand_eq_next.2 ⟨d, b, bs, hd, hp, rfl, by simp [queueReplies, htasks]⟩

end Sys2Proof.Machine
end

section
/-! SUPPORT and PROOF. The roles of R246: what an event of a channel's producer, of its consumer, and of the polling agent
leaves unchanged (R57). -/
namespace Sys2Proof.Machine

/-! ### The two sides of a channel -/

/-- The producer's side of a channel (R23, R25): its slots and the write cursor. -/
structure Chan.SameProducerSide (c c' : Chan) : Prop where
  mem_eq : c'.mem = c.mem
  wr_eq : c'.wr = c.wr
  pushed_eq : c'.pushed = c.pushed

/-- The consumer's side of a channel (R24): the read cursor. -/
structure Chan.SameConsumerSide (c c' : Chan) : Prop where
  rd_eq : c'.rd = c.rd
  consumed_eq : c'.consumed = c.consumed

@[simp] theorem Chan.pushBytes_consumed (c : Chan) (bs : List Byte) : (c.pushBytes bs).consumed = c.consumed := by
  induction bs generalizing c with
  | nil => rfl
  | cons b bs ih => simp [ih]

/-- PUSHes keep the consumer's side. -/
theorem Chan.sameConsumerSide_pushBytes (c : Chan) (bs : List Byte) : c.SameConsumerSide (c.pushBytes bs) :=
  ⟨by simp, by simp⟩

/-! ### Events of a producer and of a consumer -/

/-- The rows that only push on channel `ch`. -/
inductive PushesOn : ChanId → Instr → Prop
  | push (ch : ChanId) (b : Byte) : PushesOn ch (.push ch b)
  | feedPc (b : Byte) : PushesOn .pcIn (.feedPc b)
  | feedRadio (b : Byte) : PushesOn .radioIn (.feedRadio b)
  | frame (ch : ChanId) (p : List Byte) : PushesOn ch (.frame ch p)
  | frameReferenceHeader (n : Byte) : PushesOn .pcIn (.frameReferenceHeader n)

/-- The RingChannel rows of the consumer of channel `ch`. -/
inductive ReadsFrom (ch : ChanId) : Instr → Prop
  | hasData : ReadsFrom ch (.hasData ch)
  | pop : ReadsFrom ch (.pop ch)
  | peek : ReadsFrom ch (.peek ch)
  | stepback : ReadsFrom ch (.stepback ch)
  | view (off n : Nat) : ReadsFrom ch (.view ch off n)

section Performers
variable {i : Instr} {l : Nat}

theorem pushesOn_of_performer_rx (h : performer i = .rx l) : PushesOn ⟨l, .inbound⟩ i := by
  cases i with
  | push ch | frame ch =>
    obtain ⟨_, _ | _⟩ := ch <;> cases h
    constructor
  | hasData ch | pop ch | peek ch | stepback ch | view ch => obtain ⟨_, _ | _⟩ := ch <;> cases h
  | feedPc | feedRadio | frameReferenceHeader =>
    cases h
    constructor
  | _ => cases h

theorem readsFrom_of_performer_tx (h : performer i = .tx l) : ReadsFrom ⟨l, .outbound⟩ i := by
  cases i with
  | hasData ch | pop ch | peek ch | stepback ch | view ch =>
    obtain ⟨_, _ | _⟩ := ch <;> cases h
    constructor
  | push ch | frame ch => obtain ⟨_, _ | _⟩ := ch <;> cases h
  | _ => cases h

end Performers

section Effects
variable {s t : State} {ch : ChanId} {i : Instr}

/-- A row that only pushes leaves its channel with some bytes pushed. -/
theorem PushesOn.exec_spec (hi : PushesOn ch i) (h : exec i s = .next t) :
    ∃ c bs, s.chan? ch = some c ∧ t.chan? ch = some (c.pushBytes bs) ∧ OnlyChannel ch s t := by
  suffices hpush : ∃ c bs, s.chan? ch = some c ∧ pushAll ch bs s = .next t by
    obtain ⟨c, bs, hc, hall⟩ := hpush
    obtain ⟨t', ht', htc, only⟩ := pushAll_spec bs hc
    obtain rfl : t' = t := by simpa [hall] using ht'.symm
    exact ⟨c, bs, hc, htc, only⟩
  have single {b : Byte} (h : pushEvent ch b s = .next t) : ∃ c bs, s.chan? ch = some c ∧ pushAll ch bs s = .next t := by
    obtain ⟨c, hc, -⟩ := pushEvent_eq_next.1 h
    exact ⟨c, [b], hc, andThen_eq_next.2 ⟨t, h, rfl⟩⟩
  cases hi with
  | push | feedPc | feedRadio => exact single h
  | frame p =>
    obtain ⟨-, c, hc, hpush⟩ := execFrame_eq_next.1 h
    exact ⟨c, _, hc, hpush⟩
  | frameReferenceHeader n =>
    obtain ⟨c, hc, hpush⟩ := execFrameReferenceHeader_eq_next.1 h
    exact ⟨c, _, hc, hpush⟩

/-- A consumer's row leaves its channel with the producer's side as it was. -/
theorem ReadsFrom.exec_spec (hi : ReadsFrom ch i) (h : exec i s = .next t) :
    ∃ c c', s.chan? ch = some c ∧ t.chan? ch = some c' ∧ OnlyChannel ch s t ∧ c.SameProducerSide c' := by
  suffices hset : ∃ c c', s.chan? ch = some c ∧ c.SameProducerSide c' ∧
      ∃ o : Option Label, t = (s.setChan ch c').noteOpt o by
    obtain ⟨c, c', hc, same, o, rfl⟩ := hset
    exact ⟨c, c', hc, by simpa using State.setChan_chan?_of_some hc c', (OnlyChannel.setChan s ch c').noteOpt o, same⟩
  cases hi with
  | hasData =>
    obtain ⟨c, hc, rfl⟩ := execHasData_eq_next.1 h
    exact ⟨c, c.look, hc, ⟨rfl, rfl, rfl⟩, some _, rfl⟩
  | pop =>
    obtain ⟨c, b, hc, -, -, rfl⟩ := execPop_eq_next.1 h
    exact ⟨c, c.consume, hc, ⟨rfl, rfl, rfl⟩, some _, rfl⟩
  | peek =>
    obtain ⟨c, b, hc, -, -, rfl⟩ := execPeek_eq_next.1 h
    exact ⟨c, c.look, hc, ⟨rfl, rfl, rfl⟩, some _, rfl⟩
  | stepback =>
    obtain ⟨c, hc, -, rfl⟩ := execStepback_eq_next.1 h
    exact ⟨c, c.unconsume, hc, ⟨rfl, rfl, rfl⟩, none, rfl⟩
  | view off n =>
    obtain ⟨c, bs, hc, -, -, -, rfl⟩ := execView_eq_next.1 h
    exact ⟨c, c.look, hc, ⟨rfl, rfl, rfl⟩, some _, rfl⟩

/-- Where one channel changes and keeps its slots, every slot is kept. -/
theorem OnlyChannel.sameSlots {c c' : Chan} (only : OnlyChannel ch s t) (hc : s.chan? ch = some c)
    (hc' : t.chan? ch = some c') (hmem : c'.mem = c.mem) : SameSlots s t := fun o a => by
  obtain ⟨-, -, -, others⟩ := only
  by_cases ho : o = ch
  · subst ho
    simp [State.slot?, hc, hc', Chan.slot?, hmem]
  · rw [State.slot?, State.slot?, others o ho]

/-- Where one channel changes, a relation that this change meets and that holds of equal channels holds of each. -/
theorem OnlyChannel.forall_chan {P : ChanId → Chan → Chan → Prop} {c c' : Chan} (only : OnlyChannel ch s t)
    (hc : s.chan? ch = some c) (hc' : t.chan? ch = some c') (hrefl : ∀ o d, P o d d) (hP : P ch c c') :
    ∀ o d, s.chan? o = some d → ∃ d', t.chan? o = some d' ∧ P o d d' ∧ (o ≠ ch → d' = d) := by
  obtain ⟨-, -, -, others⟩ := only
  intro o d hd
  by_cases ho : o = ch
  · subst ho
    obtain rfl : c = d := by simpa [hc] using hd
    exact ⟨c', hc', hP, fun hne => absurd rfl hne⟩
  · exact ⟨d, by rw [others o ho, hd], hrefl o d, fun _ => rfl⟩

end Effects

/-- Settles O52: the events of a receive interrupt are the rows that push on its link's inbound channel. -/
theorem producersTouchOnlyTheirSide : Obligations.ProducersTouchOnlyTheirSide := by
  intro s t i l hperf h
  obtain ⟨c, bs, hc, hc', only⟩ := (pushesOn_of_performer_rx hperf).exec_spec h
  have ⟨_, raised, decoders, _⟩ := only
  refine ⟨raised, decoders, fun ch d hd => ?_⟩
  obtain ⟨d', hd', same, others⟩ := only.forall_chan (P := fun _ => Chan.SameConsumerSide) hc hc'
    (fun _ _ => ⟨rfl, rfl⟩) (c.sameConsumerSide_pushBytes bs) ch d hd
  exact ⟨d', hd', same.rd_eq, same.consumed_eq, others⟩

/-- Settles O53: the events of a transmit path are the consumer's rows of its link's outbound channel. -/
theorem transmitPathsTouchOnlyTheirSide : Obligations.TransmitPathsTouchOnlyTheirSide := by
  intro s t i l hperf h
  obtain ⟨c, c', hc, hc', only, same⟩ := (readsFrom_of_performer_tx hperf).exec_spec h
  have ⟨_, raised, decoders, _⟩ := only
  refine ⟨raised, decoders, only.sameSlots hc hc' same.mem_eq, fun ch d hd => ?_⟩
  obtain ⟨d', hd', same, others⟩ := only.forall_chan (P := fun _ => Chan.SameProducerSide) hc hc'
    (fun _ _ => ⟨rfl, rfl, rfl⟩) same ch d hd
  exact ⟨d', hd', same.wr_eq, same.pushed_eq, others⟩

/-! ### The polling agent -/

/-- The side of a channel that the polling agent does not hold: an inbound channel's producer's, an outbound channel's
consumer's. -/
def Chan.SameOtherSide : Dir → Chan → Chan → Prop
  | .inbound => Chan.SameProducerSide
  | .outbound => Chan.SameConsumerSide

theorem Chan.SameOtherSide.refl (d : Dir) (c : Chan) : c.SameOtherSide d c := by
  cases d
  · exact ⟨rfl, rfl, rfl⟩
  · exact ⟨rfl, rfl⟩

theorem Chan.SameOtherSide.trans {d : Dir} {a b c : Chan} (h1 : a.SameOtherSide d b) (h2 : b.SameOtherSide d c) :
    a.SameOtherSide d c := by
  cases d
  · exact ⟨h2.mem_eq.trans h1.mem_eq, h2.wr_eq.trans h1.wr_eq, h2.pushed_eq.trans h1.pushed_eq⟩
  · exact ⟨h2.rd_eq.trans h1.rd_eq, h2.consumed_eq.trans h1.consumed_eq⟩

/-- Every channel is there as before on the side that the polling agent does not hold. -/
def State.KeepsOtherSides (s t : State) : Prop :=
  ∀ ch c, s.chan? ch = some c → ∃ c', t.chan? ch = some c' ∧ c.SameOtherSide ch.dir c'

theorem State.KeepsOtherSides.refl (s : State) : s.KeepsOtherSides s := fun ch c hc => ⟨c, hc, .refl ch.dir c⟩

theorem State.KeepsOtherSides.trans {s t u : State} (h1 : s.KeepsOtherSides t) (h2 : t.KeepsOtherSides u) :
    s.KeepsOtherSides u := fun ch c hc => by
  obtain ⟨d, hd, same1⟩ := h1 ch c hc
  obtain ⟨e, he, same2⟩ := h2 ch d hd
  exact ⟨e, he, same1.trans same2⟩

section Polling
variable {s t : State} {i : Instr}

theorem OnlyChannel.keepsOtherSides {ch : ChanId} {c c' : Chan} (only : OnlyChannel ch s t) (hc : s.chan? ch = some c)
    (hc' : t.chan? ch = some c') (same : c.SameOtherSide ch.dir c') : s.KeepsOtherSides t := fun o d hd => by
  obtain ⟨d', hd', hsame, -⟩ := only.forall_chan (P := fun o => Chan.SameOtherSide o.dir) hc hc' (fun o => .refl o.dir)
    same o d hd
  exact ⟨d', hd', hsame⟩

/-- It is enough to look at each link. -/
theorem State.KeepsOtherSides.of_links
    (h : ∀ (l : Nat) (k : Link), s.links[l]? = some k → ∃ k', t.links[l]? = some k' ∧
      k.inCh.SameProducerSide k'.inCh ∧ k.outCh.SameConsumerSide k'.outCh) : s.KeepsOtherSides t := fun ch c hc => by
  obtain ⟨k, hk, rfl⟩ := State.chan?_eq_some.1 hc
  obtain ⟨k', hk', hin, hout⟩ := h _ k hk
  refine ⟨_, State.chan?_eq_some.2 ⟨k', hk', rfl⟩, ?_⟩
  cases ch.dir
  · exact hin
  · exact hout

/-- An answer looks at inbound channels and pushes on outbound ones. -/
theorem State.Answered.keepsOtherSides (h : s.Answered t) : s.KeepsOtherSides t := .of_links fun l k hk => by
  obtain ⟨k', hk', -, hin, bs, hout⟩ := h.link l k hk
  refine ⟨k', hk', ?_, hout ▸ k.outCh.sameConsumerSide_pushBytes bs⟩
  rcases hin with hin | hin <;> rw [hin] <;> exact ⟨rfl, rfl, rfl⟩

theorem deliver_keepsOtherSides (h : deliver s = .next t) : s.KeepsOtherSides t :=
  (deliver_answered h).keepsOtherSides

/-- A DEC_STEP answers what stood and then at most moves the inbound read cursor. -/
theorem decStepOn_keepsOtherSides {l : Nat} (h : decStepOn l s = .next t) : s.KeepsOtherSides t := by
  obtain ⟨k, b, u, -, -, -, hu, -, hlinks, -⟩ := decStepOn_spec h
  refine (deliver_keepsOtherSides hu).trans (.of_links fun j k' hk' => ?_)
  rw [hlinks, List.getElem?_modify, hk']
  refine ⟨_, rfl, ?_⟩
  split
  · generalize react k.dec.subCase s.params l k.inCh.cap k.inCh.rd k.dec b = r
    refine ⟨?_, rfl, rfl⟩
    unfold Link.reacted
    cases r.consume <;> exact ⟨rfl, rfl, rfl⟩
  · exact ⟨⟨rfl, rfl, rfl⟩, rfl, rfl⟩

theorem decRunLoop_keepsOtherSides {fuel l : Nat} (h : decRunLoop fuel l s = .next t) : s.KeepsOtherSides t := by
  induction fuel generalizing s with
  | zero => cases h; exact .refl _
  | succ fuel ih =>
    obtain ⟨u, hu, hturn⟩ := andThen_eq_next.1 h
    obtain ⟨k, hk, hturn⟩ := withLink_eq_next.1 hturn
    refine (deliver_keepsOtherSides hu).trans ?_
    split at hturn
    · obtain ⟨v, hv, ht⟩ := andThen_eq_next.1 hturn
      exact (decStepOn_keepsOtherSides hv).trans (ih ht)
    · cases hturn
      have hc : u.chan? ⟨l, .inbound⟩ = some k.inCh := State.chan?_eq_some.2 ⟨k, hk, rfl⟩
      exact (OnlyChannel.setChan u _ _).keepsOtherSides hc (State.setChan_chan?_of_some hc k.inCh.look) ⟨rfl, rfl, rfl⟩

theorem decRunAlone_keepsOtherSides {l : Nat} (h : decRunAlone l s = .next t) : s.KeepsOtherSides t := by
  obtain ⟨k, -, hrun⟩ := withLink_eq_next.1 h
  exact decRunLoop_keepsOtherSides hrun

theorem decRunEach_keepsOtherSides {ls : List Nat} (h : decRunEach ls s = .next t) : s.KeepsOtherSides t := by
  induction ls generalizing s with
  | nil => cases h; exact .refl _
  | cons l ls ih =>
    obtain ⟨u, hu, ht⟩ := andThen_eq_next.1 h
    exact (decRunAlone_keepsOtherSides hu).trans (ih ht)

theorem commandEvent_keepsOtherSides {c : Command} (h : commandEvent c s = .next t) : s.KeepsOtherSides t := by
  obtain ⟨d, b, rest, -, -, -, hrun⟩ := withCommand_eq_next.1 h
  exact (runReplies_answered hrun).keepsOtherSides

/-- The polling agent pushes on outbound channels only. -/
theorem PushesOn.keepsOtherSides {ch : ChanId} (hi : PushesOn ch i) (hperf : producerOf ch = .poll)
    (h : exec i s = .next t) : s.KeepsOtherSides t := by
  obtain ⟨c, bs, hc, hc', only⟩ := hi.exec_spec h
  obtain ⟨l, _ | _⟩ := ch
  · cases hperf
  · exact only.keepsOtherSides hc hc' (c.sameConsumerSide_pushBytes bs)

/-- The polling agent is the consumer of inbound channels only. -/
theorem ReadsFrom.keepsOtherSides {ch : ChanId} (hi : ReadsFrom ch i) (hperf : consumerOf ch = .poll)
    (h : exec i s = .next t) : s.KeepsOtherSides t := by
  obtain ⟨c, c', hc, hc', only, same⟩ := hi.exec_spec h
  obtain ⟨l, _ | _⟩ := ch
  · exact only.keepsOtherSides hc hc' same
  · cases hperf

theorem exec_keepsOtherSides (hperf : performer i = .poll) (h : exec i s = .next t) : s.KeepsOtherSides t := by
  cases i with
  | push ch b => exact (PushesOn.push ch b).keepsOtherSides hperf h
  | frame ch p => exact (PushesOn.frame ch p).keepsOtherSides hperf h
  | hasData => exact ReadsFrom.hasData.keepsOtherSides hperf h
  | pop => exact ReadsFrom.pop.keepsOtherSides hperf h
  | peek => exact ReadsFrom.peek.keepsOtherSides hperf h
  | stepback => exact ReadsFrom.stepback.keepsOtherSides hperf h
  | view ch off n => exact (ReadsFrom.view off n).keepsOtherSides hperf h
  | decStep => exact decStepOn_keepsOtherSides h
  | decAwaitMagic1 | decAwaitMagic2 | decAwaitMagic3 | decAwaitMagic4 | decReadLength | decReadToken | decPayload
  | decChecksum => exact decStepOn_keepsOtherSides (selectedCase_step h)
  | dispatch => exact deliver_keepsOtherSides (withRaised_next h)
  | decRun => exact decRunAlone_keepsOtherSides h
  | encode => exact (encodeFrame_answered h).keepsOtherSides
  | tick => exact decRunEach_keepsOtherSides h
  | cmdGetAlive | cmdAcknowledge | cmdStartConfig | cmdUnknown => exact commandEvent_keepsOtherSides h
  | feedPc | feedRadio | reset | frameReferenceHeader => cases hperf

end Polling

/-- Settles O54: the polling agent pushes on outbound channels, reads from inbound ones, and its decoders and its
collaborator do no more. -/
theorem pollingAgentKeepsItsRoles : Obligations.PollingAgentKeepsItsRoles := by
  intro s t i hperf h
  have keeps := exec_keepsOtherSides hperf h
  refine ⟨fun l c hc => ?_, fun l c hc => ?_⟩
  · obtain ⟨c', hc', same⟩ := keeps ⟨l, .inbound⟩ c hc
    exact ⟨c', hc', same.mem_eq, same.wr_eq, same.pushed_eq⟩
  · obtain ⟨c', hc', same⟩ := keeps ⟨l, .outbound⟩ c hc
    exact ⟨c', hc', same.rd_eq, same.consumed_eq⟩

end Sys2Proof.Machine
end

section
/-! SUPPORT and PROOF. The decoder accepts exactly the codes of well-formed instructions (log 1): first the rows whose bytes
the spec gives (R80, R104), then every row. -/
namespace Sys2Proof

/-! ### Frames -/

section Frames
variable {p : Params} {ch : ChanId} {bytes payload : List Byte} {i : Instr}

/-- A frame field by field (R80): the length byte stands before the token, the checksum after the payload. -/
theorem frameBytes_eq_fields (p : Params) (payload : List Byte) :
    frameBytes p payload = p.magic.b0 :: p.magic.b1 :: p.magic.b2 :: p.magic.b3 :: BitVec.ofNat 8 payload.length ::
      p.token :: (payload ++ [xorBytes (frameBody p payload)]) := by
  simp [frameBytes, frameBody, Magic.bytes]

/-- A frame has `7 + N` bytes (R187). -/
@[simp] theorem frameBytes_length (p : Params) (payload : List Byte) :
    (frameBytes p payload).length = 7 + payload.length := by
  simp only [frameBytes_eq_fields, List.length_cons, List.length_append, List.length_nil]
  omega

/-- A check that fails with an error answers only where it is met. -/
theorem ite_not_error_eq_ok {ε α : Type} {c : Prop} [Decidable (¬ c)] {e : ε} {r : Except ε α} {x : α} :
    (if ¬ c then .error e else r) = .ok x ↔ c ∧ r = .ok x := by
  by_cases hc : c <;> simp [hc]

/-- The checks on the six header bytes and on what follows them (R81 to R85). -/
theorem parseFrame_header_eq_ok {m0 m1 m2 m3 n t : Byte} {rest : List Byte} :
    parseFrame p (m0 :: m1 :: m2 :: m3 :: n :: t :: rest) = .ok payload ↔
      [m0, m1, m2, m3] = p.magic.bytes ∧ t = p.token ∧ payload.length = n.toNat ∧
        rest = payload ++ [xorBytes (frameBody p payload)] := by
  simp only [parseFrame, ne_eq, ite_not_error_eq_ok, Except.ok.injEq]
  constructor
  · rintro ⟨hmagic, htoken, hlen, hsum, rfl⟩
    exact ⟨hmagic, htoken, by rw [List.length_take]; omega, by rw [← hsum, List.take_append_drop]⟩
  · rintro ⟨hmagic, htoken, hlen, rfl⟩
    simp [hmagic, htoken, ← hlen]

/-- The bytes that are read as a frame are those of `frame(p)`, whose payload has at most 255 bytes (R80, R187). -/
theorem parseFrame_eq_ok : parseFrame p bytes = .ok payload ↔ payload.length ≤ 255 ∧ frameBytes p payload = bytes := by
  constructor
  · intro h
    obtain ⟨m0, m1, m2, m3, n, t, rest, rfl⟩ :
        ∃ m0 m1 m2 m3 n t rest, bytes = m0 :: m1 :: m2 :: m3 :: n :: t :: rest := by
      unfold parseFrame at h
      split at h
      · exact ⟨_, _, _, _, _, _, _, rfl⟩
      · cases h
    obtain ⟨hmagic, rfl, hlen, rfl⟩ := parseFrame_header_eq_ok.1 h
    obtain ⟨rfl, rfl, rfl, rfl⟩ : m0 = p.magic.b0 ∧ m1 = p.magic.b1 ∧ m2 = p.magic.b2 ∧ m3 = p.magic.b3 := by
      simpa [Magic.bytes] using hmagic
    exact ⟨by have := n.isLt; omega, by simp [frameBytes_eq_fields, hlen]⟩
  · rintro ⟨hle, rfl⟩
    rw [frameBytes_eq_fields, parseFrame_header_eq_ok]
    exact ⟨rfl, rfl, by simp; omega, rfl⟩

theorem decodeFrame_eq_instr :
    decodeFrame p ch bytes = .instr i ↔
      ∃ payload, payload.length ≤ 255 ∧ frameBytes p payload = bytes ∧ .frame ch payload = i := by
  constructor
  · intro h
    unfold decodeFrame at h
    split at h
    next payload hparse =>
      cases h
      obtain ⟨hle, hbytes⟩ := parseFrame_eq_ok.1 hparse
      exact ⟨payload, hle, hbytes, rfl⟩
    next => cases h
  · rintro ⟨payload, hle, hbytes, rfl⟩
    simp [decodeFrame, parseFrame_eq_ok.2 ⟨hle, hbytes⟩]

end Frames

/-! ### The header row and the CMD rows -/

section CommandsAndHeaders

theorem decodeHeader_eq_instr {bytes : List Byte} {i : Instr} :
    decodeHeader bytes = .instr i ↔ ∃ n, bytes = [0x4E, 0x45, 0x52, n, 0x3A] ∧ .frameReferenceHeader n = i := by
  constructor
  · intro h
    unfold decodeHeader at h
    split at h
    · split at h
      next hfixed =>
        obtain ⟨rfl, rfl, rfl, rfl⟩ := hfixed
        cases h
        exact ⟨_, rfl, rfl⟩
      next => cases h
    · cases h
  · rintro ⟨n, rfl, rfl⟩
    rfl

/-- A command byte is read as the one well-formed CMD row whose byte it is (R104, log 25). -/
theorem instrOfCommand_commandOf_eq {p : Params} {b : Byte} {i : Instr} :
    instrOfCommand (commandOf p b) = i ↔ i.wf p = true ∧ opcode i = 0x40 ∧ operandBytes p i = [b] := by
  constructor
  · rintro rfl
    by_cases hget : b = p.cmdGetAlive
    · rw [commandOf, if_pos hget, hget]
      exact ⟨rfl, rfl, rfl⟩
    by_cases hack : b = p.ack
    · rw [commandOf, if_neg hget, if_pos hack]
      exact ⟨by simp [instrOfCommand, Instr.wf, ← hack, hget], rfl, by rw [hack]; rfl⟩
    by_cases hstart : b = p.cmdStartConfig
    · rw [commandOf, if_neg hget, if_neg hack, if_pos hstart]
      exact ⟨by simp [instrOfCommand, Instr.wf, ← hstart, hget, hack], rfl, by rw [hstart]; rfl⟩
    · rw [commandOf, if_neg hget, if_neg hack, if_neg hstart]
      exact ⟨by simp [instrOfCommand, Instr.wf, hget, hack, hstart], rfl, rfl⟩
  · rintro ⟨hwf, hop, hb⟩
    cases i with
    | cmdGetAlive | cmdAcknowledge | cmdStartConfig | cmdUnknown =>
      obtain rfl := List.singleton_inj.1 hb
      simp_all [Instr.wf, commandOf, instrOfCommand]
    | _ => simp [opcode] at hop

end CommandsAndHeaders

/-! ### Every row -/

section Rows
variable {p : Params} {i : Instr}

/-- What the row of an opcode byte accepts are the operand bytes of a well-formed instruction with this opcode. -/
theorem operandBytes_of_decodeRow {op : Byte} {bytes : List Byte} (h : decodeRow p op bytes = .instr i) :
    i.wf p = true ∧ opcode i = op ∧ operandBytes p i = bytes := by
  unfold decodeRow at h
  split at h
  -- PUSH
  case h_1 hop =>
    obtain ⟨ch, rest, rfl, hrest⟩ := onChannel_eq_instr.1 h
    obtain ⟨b, rfl, rfl⟩ := onlyByte_eq_instr.1 hrest
    exact ⟨rfl, BitVec.eq_of_toNat_eq hop.symm, rfl⟩
  -- HAS_DATA, POP, PEEK, STEPBACK
  case h_2 hop | h_3 hop | h_4 hop | h_5 hop =>
    obtain ⟨ch, rfl, rfl⟩ := onlyChannel_eq_instr.1 h
    exact ⟨rfl, BitVec.eq_of_toNat_eq hop.symm, rfl⟩
  -- VIEW
  case h_6 hop =>
    obtain ⟨ch, rest, rfl, hrest⟩ := onChannel_eq_instr.1 h
    obtain ⟨off, last, rfl, hlast⟩ := onNumber_eq_instr.1 hrest
    obtain ⟨n, rfl, rfl⟩ := onlyNumber_eq_instr.1 hlast
    exact ⟨rfl, BitVec.eq_of_toNat_eq hop.symm, rfl⟩
  -- DEC_STEP, its eight sub-cases, DEC_RUN
  case h_7 hop | h_8 hop | h_9 hop | h_10 hop | h_11 hop | h_12 hop | h_13 hop | h_14 hop | h_15 hop | h_17 hop =>
    obtain ⟨n, rfl, rfl⟩ := onlyNumber_eq_instr.1 h
    exact ⟨rfl, BitVec.eq_of_toNat_eq hop.symm, rfl⟩
  -- DISPATCH
  case h_16 hop =>
    obtain ⟨dec, rest, rfl, hrest⟩ := onNumber_eq_instr.1 h
    obtain ⟨off, last, rfl, hlast⟩ := onNumber_eq_instr.1 hrest
    obtain ⟨n, rfl, rfl⟩ := onlyByte_eq_instr.1 hlast
    exact ⟨rfl, BitVec.eq_of_toNat_eq hop.symm, rfl⟩
  -- ENCODE
  case h_18 hop =>
    obtain ⟨enc, payload, rfl, hrest⟩ := onNumber_eq_instr.1 h
    cases hrest
    exact ⟨rfl, BitVec.eq_of_toNat_eq hop.symm, rfl⟩
  -- FEED_PC, FEED_RADIO
  case h_19 hop | h_20 hop =>
    obtain ⟨b, rfl, rfl⟩ := onlyByte_eq_instr.1 h
    exact ⟨rfl, BitVec.eq_of_toNat_eq hop.symm, rfl⟩
  -- TICK, RESET
  case h_21 hop | h_22 hop =>
    obtain ⟨rfl, rfl⟩ := noOperand_eq_instr.1 h
    exact ⟨rfl, BitVec.eq_of_toNat_eq hop.symm, rfl⟩
  -- FRAME
  case h_23 hop =>
    obtain ⟨ch, rest, rfl, hrest⟩ := onChannel_eq_instr.1 h
    obtain ⟨payload, hlen, rfl, rfl⟩ := decodeFrame_eq_instr.1 hrest
    exact ⟨decide_eq_true hlen, BitVec.eq_of_toNat_eq hop.symm, rfl⟩
  -- CMD
  case h_24 hop =>
    obtain ⟨b, rfl, hcmd⟩ := onlyByte_eq_instr.1 h
    obtain ⟨hwf, hcode, hbytes⟩ := instrOfCommand_commandOf_eq.1 hcmd
    exact ⟨hwf, hcode.trans (BitVec.eq_of_toNat_eq hop.symm), hbytes⟩
  -- FRAME.reference_header
  case h_25 hop =>
    obtain ⟨n, rfl, rfl⟩ := decodeHeader_eq_instr.1 h
    exact ⟨rfl, BitVec.eq_of_toNat_eq hop.symm, rfl⟩
  -- no row
  case h_26 => cases h

/-- The row of a well-formed instruction's opcode reads its operand bytes back. -/
theorem decodeRow_operandBytes (hwf : i.wf p = true) : decodeRow p (opcode i) (operandBytes p i) = .instr i := by
  cases i with
  | push ch b => exact onChannel_eq_instr.2 ⟨ch, [b], rfl, rfl⟩
  | hasData ch | pop ch | peek ch | stepback ch => exact onlyChannel_eq_instr.2 ⟨ch, rfl, rfl⟩
  | view ch off n =>
    exact onChannel_eq_instr.2
      ⟨ch, _, rfl, onNumber_eq_instr.2 ⟨off, _, rfl, onlyNumber_eq_instr.2 ⟨n, rfl, rfl⟩⟩⟩
  | decStep dec | decAwaitMagic1 dec | decAwaitMagic2 dec | decAwaitMagic3 dec | decAwaitMagic4 dec
  | decReadLength dec | decReadToken dec | decPayload dec | decChecksum dec | decRun dec =>
    exact onlyNumber_eq_instr.2 ⟨dec, rfl, rfl⟩
  | dispatch dec off n =>
    exact onNumber_eq_instr.2 ⟨dec, _, rfl, onNumber_eq_instr.2 ⟨off, [n], rfl, rfl⟩⟩
  | encode enc payload => exact onNumber_eq_instr.2 ⟨enc, payload, rfl, rfl⟩
  | feedPc | feedRadio | tick | reset | frameReferenceHeader => rfl
  | frame ch payload =>
    exact onChannel_eq_instr.2 ⟨ch, _, rfl, decodeFrame_eq_instr.2 ⟨payload, of_decide_eq_true hwf, rfl, rfl⟩⟩
  | cmdGetAlive | cmdAcknowledge | cmdStartConfig | cmdUnknown =>
    exact congrArg Decoded.instr (instrOfCommand_commandOf_eq.2 ⟨hwf, rfl, rfl⟩)

/-- The decoder accepts exactly the codes of the well-formed instructions, each as the instruction it is the code of. -/
theorem decode_eq_instr {code : List Byte} : decode p code = .instr i ↔ i.wf p = true ∧ encode p i = code := by
  constructor
  · intro h
    cases code with
    | nil => cases h
    | cons op rest =>
      obtain ⟨hwf, rfl, rfl⟩ := operandBytes_of_decodeRow h
      exact ⟨hwf, rfl⟩
  · rintro ⟨hwf, rfl⟩
    exact decodeRow_operandBytes hwf

/-- The conditions on a FRAME's payload (R187) and on the identifiers of the CMD rows (R104, log 25). -/
theorem Instr.wf_eq_false_iff :
    i.wf p = false ↔
      (∃ ch payload, i = .frame ch payload ∧ 255 < payload.length) ∨
      (i = .cmdAcknowledge ∧ p.ack = p.cmdGetAlive) ∨
      (i = .cmdStartConfig ∧ (p.cmdStartConfig = p.cmdGetAlive ∨ p.cmdStartConfig = p.ack)) ∨
      ∃ raw, i = .cmdUnknown raw ∧ (raw = p.cmdGetAlive ∨ raw = p.ack ∨ raw = p.cmdStartConfig) := by
  constructor
  · intro h
    simp only [Instr.wf] at h
    cases i with
    | frame ch payload => exact .inl ⟨ch, payload, rfl, Nat.not_le.1 (of_decide_eq_false h)⟩
    | cmdAcknowledge => exact .inr (.inl ⟨rfl, Decidable.not_not.1 (of_decide_eq_false h)⟩)
    | cmdStartConfig =>
      refine .inr (.inr (.inl ⟨rfl, ?_⟩))
      simpa only [Bool.and_eq_false_iff, decide_eq_false_iff_not, ne_eq, Decidable.not_not] using h
    | cmdUnknown raw =>
      refine .inr (.inr (.inr ⟨raw, rfl, ?_⟩))
      simpa only [Bool.and_eq_false_iff, decide_eq_false_iff_not, ne_eq, Decidable.not_not, or_assoc] using h
    | _ => cases h
  · rintro (⟨ch, payload, rfl, hlen⟩ | ⟨rfl, h⟩ | ⟨rfl, h | h⟩ | ⟨raw, rfl, h | h | h⟩)
    · exact decide_eq_false (Nat.not_le.2 hlen)
    all_goals simp [Instr.wf, h]

end Rows

/-- Settles O58: the decoder accepts exactly the codes of well-formed instructions, so it reads each of them back. -/
theorem decodeEncodeAgree : Obligations.DecodeEncodeAgree := fun _ _ =>
  ⟨fun hwf => decode_eq_instr.2 ⟨hwf, rfl⟩, Instr.wf_eq_false_iff⟩

/-- Settles O59: the same equivalence from the side of the code. -/
theorem acceptedCodesAreCanonical : Obligations.AcceptedCodesAreCanonical := fun _ _ _ => decode_eq_instr.1

/-- Settles O60: each instruction is well formed and the bytes written out are its code. -/
theorem handWrittenCodesDecode : Obligations.HandWrittenCodesDecode := by
  refine ⟨?_, ?_, ?_, ?_, ?_, ?_⟩ <;> exact decode_eq_instr.2 ⟨rfl, by decide⟩

end Sys2Proof
end

section
/-! PROOF. The rows that put the bytes of a frame or of its header on a channel (R80, R99). -/
namespace Sys2Proof.Machine

/-- A sequence of PUSHes on a channel that is there leaves every slot but those it stores to (R36). -/
theorem pushAll_keeps_other_slots {ch : ChanId} (bs : List Byte) {s : State} {c : Chan} (hc : s.chan? ch = some c)
    (hw : c.wr < c.cap) :
    ∃ t, pushAll ch bs s = .next t ∧ t.chan? ch = some (c.pushBytes bs) ∧ OnlyChannel ch s t ∧
      ∀ a, ¬ c.Stores bs.length a → t.slot? ch a = s.slot? ch a := by
  obtain ⟨t, ht, htc, only⟩ := pushAll_spec bs hc
  refine ⟨t, ht, htc, only, fun a ha => ?_⟩
  simp only [State.slot?, htc, hc, Option.bind_some]
  exact Chan.pushBytes_slot_other c bs a hw ha

/-- Settles O42: both rows are a sequence of PUSHes, of the `7 + N` bytes of the frame and of the six of the header. -/
theorem framePushesItsBytes : Obligations.FramePushesItsBytes := by
  intro s ch p n c hw
  refine ⟨fun hc hlen => ?frame, fun hc => ?header⟩
  case frame =>
    obtain ⟨t, ht, htc, only, slots⟩ := pushAll_keeps_other_slots (frameBytes s.params p) hc hw
    rw [frameBytes_length] at slots
    exact ⟨t, execFrame_eq_next.2 ⟨hlen, c, hc, ht⟩, htc, only, slots⟩
  case header =>
    obtain ⟨t, ht, after⟩ := pushAll_keeps_other_slots (referenceHeader n) hc hw
    exact ⟨t, execFrameReferenceHeader_eq_next.2 ⟨c, hc, ht⟩, after⟩

end Sys2Proof.Machine
end

section
/-! SUPPORT and PROOF. The RingChannel rows one by one (spec/40_ringchannel_ops.md R110 to R117): what each answers and
what it leaves, and that an empty channel faults. -/
namespace Sys2Proof.Machine

section OneChannelReplaced
variable {s t : State} {ch : ChanId} {c d : Chan}

/-- What a consumer's event leaves, which replaces its channel by one with the same slots and adds at most a label. -/
theorem State.setChan_noteOpt_frame (hc : s.chan? ch = some c) (hmem : d.mem = c.mem) (o : Option Label) :
    OnlyChannel ch s ((s.setChan ch d).noteOpt o) ∧ SameSlots s ((s.setChan ch d).noteOpt o) ∧
      ((s.setChan ch d).noteOpt o).trace = o.toList ++ s.trace := by
  have only : OnlyChannel ch s ((s.setChan ch d).noteOpt o) := (OnlyChannel.setChan s ch d).noteOpt o
  have hnew : ((s.setChan ch d).noteOpt o).chan? ch = some d := by simpa using State.setChan_chan?_of_some hc d
  exact ⟨only, only.sameSlots hc hnew hmem, State.noteOpt_trace _ o⟩

/-- An event that only looks at its channel leaves the channel as the spec has it (log 16). -/
theorem State.setChan_look_block (hc : s.chan? ch = some c) :
    ((s.setChan ch c.look).chan? ch).map Chan.block = some c.block := by
  rw [State.setChan_chan?_of_some hc, Option.map_some, Chan.block_look]

end OneChannelReplaced

/-- Settles O1: a PUSH is one `pushByte`, whose slots are the old ones but for `wr`. -/
theorem pushStoresByteAndAdvances : Obligations.PushStoresByteAndAdvances := by
  intro s ch b c hc
  obtain ⟨t, ht, htc, only, htrace⟩ := pushEvent_spec hc b
  have hslot (a : Nat) : t.slot? ch a = if a = c.wr then some b else s.slot? ch a := by
    simp only [State.slot?, htc, hc, Option.bind_some, Chan.pushByte_slot]
  refine ⟨t, ht, htc, by simp [hslot], fun a ha => by simp [hslot, ha], only, ?_⟩
  simpa [Chan.atLimit] using htrace

/-- Settles O3: HAS_DATA replaces the channel by `look` and adds its answer to the trace. -/
theorem hasDataComparesCursors : Obligations.HasDataComparesCursors := fun _ ch c hc =>
  ⟨_, execHasData_eq_next.2 ⟨c, hc, rfl⟩, State.setChan_look_block hc,
    State.setChan_noteOpt_frame hc c.look_mem (some (.hasData ch c.hasData))⟩

/-! ### An empty channel -/

section Selection
variable {d : Dec}

/-- The registers select sub-case `w` (R140, R147). -/
def Dec.Selects (d : Dec) : SubCase → Prop
  | .awaitMagic1 => d.st = .awaitMagic1
  | .awaitMagic2 => d.st = .awaitMagic2
  | .awaitMagic3 => d.st = .awaitMagic3
  | .awaitMagic4 => d.st = .awaitMagic4
  | .readLength => d.st = .readLength
  | .readToken => d.st = .readToken
  | .payload => d.st = .readPayload ∧ d.remaining ≠ 0
  | .checksum => d.st = .readPayload ∧ d.remaining = 0

theorem Dec.subCase_eq_iff {w : SubCase} : d.subCase = w ↔ d.Selects w := by
  unfold Dec.subCase
  cases hst : d.st with
  | readPayload =>
    dsimp only
    split <;> cases w <;> simp_all [Dec.Selects]
  | _ => cases w <;> simp [Dec.Selects, hst]

end Selection

section Empty
variable {s : State} {ch : ChanId} {c : Chan} {l : Nat} {k : Link} {w : SubCase}

theorem withOldest_of_empty (hd : c.rd = c.wr) (f : Byte → Result) : withOldest ch c f = .fault (.popEmpty ch) := by
  simp [withOldest, Chan.hasData, hd]

theorem execPeek_of_empty (hc : s.chan? ch = some c) (hd : c.rd = c.wr) : execPeek ch s = .fault (.popEmpty ch) := by
  rw [execPeek, withChan_of_some hc, withOldest_of_empty hd]

theorem decCase_of_empty (hk : s.links[l]? = some k) (hd : k.inCh.rd = k.inCh.wr) (w : SubCase) :
    decCase w l s = .fault (.popEmpty ⟨l, .inbound⟩) := by
  rw [decCase, withLink_of_some hk, withOldest_of_empty hd]

/-- A sub-case that the decoder's state selects is that case of DEC_STEP (R140). -/
theorem selectedCase_of_selected (hk : s.links[l]? = some k) (hw : k.dec.Selects w) :
    selectedCase w l s = decCase w l s := by
  rw [selectedCase, withLink_of_some hk, if_pos (Dec.subCase_eq_iff.2 hw)]

end Empty

/-- Settles O5: each of these events loads the oldest unread byte before it does anything else. -/
theorem emptyChannelFaults : Obligations.EmptyChannelFaults := by
  intro s ch c hc hd
  refine ⟨execPop_of_empty hc hd, execPeek_of_empty hc hd, fun l k hch hk => ?_⟩
  subst hch
  obtain rfl : k.inCh = c := by simpa [State.chan?, hk] using hc
  have row {w : SubCase} (hw : k.dec.Selects w) : selectedCase w l s = .fault (.popEmpty ⟨l, .inbound⟩) := by
    rw [selectedCase_of_selected hk hw, decCase_of_empty hk hd]
  exact ⟨(decStepOn_of_some hk).trans (decCase_of_empty hk hd _), fun h => row h, fun h => row h, fun h => row h,
    fun h => row h, fun h => row h, fun h => row h, fun h hr => row ⟨h, hr⟩, fun h hr => row ⟨h, hr⟩⟩

/-- Settles O4: POP replaces the channel by `consume`, which keeps the slots. -/
theorem popReturnsOldestByte : Obligations.PopReturnsOldestByte := fun _ ch c hc =>
  ⟨execPop_of_empty hc, fun b hd hb => ⟨_, execPop_eq_next.2 ⟨c, b, hc, hd, hb, rfl⟩,
    congrArg (Option.map Chan.block) (State.setChan_chan?_of_some hc c.consume),
    State.setChan_noteOpt_frame hc c.consume_mem (some (.popped ch b))⟩⟩

/-- Settles O6: PEEK loads as POP does and replaces the channel by `look`. -/
theorem peekKeepsTheByte : Obligations.PeekKeepsTheByte := fun _ ch c hc =>
  ⟨execPeek_of_empty hc, fun b hd hb => ⟨_, execPeek_eq_next.2 ⟨c, b, hc, hd, hb, rfl⟩, State.setChan_look_block hc,
    State.setChan_noteOpt_frame hc c.look_mem (some (.peeked ch b))⟩⟩

/-! ### STEPBACK -/

/-- A cursor within the channel steps back by one, 0 to `C - 1` (R100). -/
theorem prevSlot_of_lt {cap x : Nat} (hx : x < cap) : prevSlot cap x = if x = 0 then cap - 1 else x - 1 := by
  unfold prevSlot
  split
  · rw [Nat.mod_eq_of_lt (by omega)]
    omega
  · rw [show x + cap - 1 = x - 1 + cap by omega, Nat.add_mod_right, Nat.mod_eq_of_lt (by omega)]

/-- Stepping back undoes stepping forward (R117). -/
theorem prevSlot_nextSlot {cap x : Nat} (hx : x < cap) : prevSlot cap (nextSlot cap x) = x := by
  rw [nextSlot, Chan.prevSlot_mod (Nat.zero_lt_of_lt hx) (Nat.le_add_left 1 x), Nat.add_sub_cancel, Nat.mod_eq_of_lt hx]

theorem Chan.unconsume_consume {c : Chan} (hrd : c.rd < c.cap) : c.consume.unconsume = c.look := by
  simp only [Chan.unconsume, Chan.consume, Chan.look, prevSlot_nextSlot hrd, Nat.add_sub_cancel]

/-- Settles O7: STEPBACK replaces the channel by `unconsume` exactly where the record of a consuming read is set. -/
theorem stepbackUnconsumes : Obligations.StepbackUnconsumes := by
  intro s ch c hc hrd
  refine ⟨fun hr => ?unread, fun hr => ?stray⟩
  case unread =>
    refine ⟨_, execStepback_eq_next.2 ⟨c, hc, hr, rfl⟩, ?_, State.setChan_noteOpt_frame hc c.unconsume_mem none⟩
    rw [State.setChan_chan?_of_some hc, Chan.unconsume, prevSlot_of_lt hrd]
  case stray => simp [exec, execStepback, withChan_of_some hc, hr]

/-- Settles O9: the two assignments to `rd` undo each other, and both ways leave the model's record clear. -/
theorem popThenStepbackIsPeek : Obligations.PopThenStepbackIsPeek := by
  intro s ch c b hc hrd hd hb
  refine ⟨_, _, andThen_eq_next.2 ⟨_, execPop_eq_next.2 ⟨c, b, hc, hd, hb, rfl⟩,
    execStepback_eq_next.2 ⟨c.consume, State.setChan_chan?_of_some hc c.consume, rfl, rfl⟩⟩,
    execPeek_eq_next.2 ⟨c, b, hc, hd, hb, rfl⟩, ?_⟩
  rw [Chan.unconsume_consume hrd]
  show ((s.setChan ch c.consume).setChan ch c.look).links = (s.setChan ch c.look).links
  rw [State.setChan_setChan]

end Sys2Proof.Machine
end

section
/-! SUPPORT and PROOF. VIEW as a run of loads (R118) and as a copy of one or two chunks (R53, R119). -/
namespace Sys2Proof.Machine

section Chunks
variable {c : Chan} {off n : Nat} {first second : List Byte}

/-- A run of slots that stays within the physical end, the end included, is one chunk. -/
theorem Chan.readRun_one_chunk (hfirst : ∀ i, i < first.length → c.slot? (off + i) = first[i]?)
    (hend : off + first.length ≤ c.cap) : c.readRun off first.length = .ok first :=
  Chan.readRun_eq_ok.2 ⟨rfl, fun i hi => by rw [Nat.mod_eq_of_lt (by omega), hfirst i hi]⟩

/-- A run of slots that passes the physical end is the chunk up to the end and the chunk from slot 0. -/
theorem Chan.readRun_two_chunks (hoff : off < c.cap) (hn : n ≤ c.cap) (hwrap : c.cap < off + n)
    (hfirst : ∀ i, i < first.length → c.slot? (off + i) = first[i]?) (hfl : first.length = c.cap - off)
    (hsecond : ∀ i, i < off + n - c.cap → c.slot? i = second[i]?) (hsl : second.length = off + n - c.cap) :
    c.readRun off n = .ok (first ++ second) := by
  refine Chan.readRun_eq_ok.2 ⟨by rw [List.length_append]; omega, fun i hi => ?_⟩
  by_cases hlt : i < first.length
  · rw [Nat.mod_eq_of_lt (by omega), hfirst i hlt, List.getElem?_append_left hlt]
  · have hwrapped : (off + i) % c.cap = i - first.length := by
      rw [show off + i = i - first.length + c.cap by omega, Nat.add_mod_right, Nat.mod_eq_of_lt (by omega)]
    rw [hwrapped, hsecond _ (by omega), List.getElem?_append_right (Nat.not_lt.1 hlt)]

end Chunks

theorem execView_of_some {s : State} {ch : ChanId} {c : Chan} {off n : Nat} (hc : s.chan? ch = some c) :
    execView ch off n s = withView ch c off n fun bs => .next ((s.setChan ch c.look).note (.viewed ch off bs)) := by
  rw [execView, withChan_of_some hc]

/-- Settles O10: VIEW's checks come before its loads, and its loads stop at the first slot without a value. -/
theorem viewReadsSlotsModuloCapacity : Obligations.ViewReadsSlotsModuloCapacity := by
  intro s ch c off n hc hoff
  refine ⟨fun bs hn hlen hslots => ?answers, fun hn => ?tooLong, fun i hn hi hnone hsome => ?unwritten⟩
  case answers =>
    exact ⟨_, execView_eq_next.2 ⟨c, bs, hc, hn, hoff, Chan.readRun_eq_ok.2 ⟨hlen, hslots⟩, rfl⟩,
      State.setChan_look_block hc, State.setChan_noteOpt_frame hc c.look_mem (some (.viewed ch off bs))⟩
  case tooLong => rw [exec, execView_of_some hc, withView, if_pos hn]
  case unwritten =>
    have hrun : c.readRun off n = .error ((off + i) % c.cap) := Chan.readRun_eq_error.2 ⟨i, hi, rfl, hnone, hsome⟩
    rw [exec, execView_of_some hc, withView, if_neg (Nat.not_lt.2 hn), if_neg (Nat.not_le.2 hoff), hrun]

/-- Settles O11: the run of loads is one chunk or two. -/
theorem viewIsTwoChunkCopy : Obligations.ViewIsTwoChunkCopy := by
  intro s ch c off n first second hc hoff hn hfirst
  have answers {bs : List Byte} (hrun : c.readRun off n = .ok bs) :
      ∃ t, exec (.view ch off n) s = .next t ∧ t.trace = .viewed ch off bs :: s.trace :=
    ⟨_, execView_eq_next.2 ⟨c, bs, hc, hn, hoff, hrun, rfl⟩, rfl⟩
  refine ⟨fun hwrap hfl hsl hsecond => answers (Chan.readRun_two_chunks hoff hn hwrap hfirst hfl hsecond hsl),
    fun hend hfl => ?_⟩
  subst hfl
  exact answers (Chan.readRun_one_chunk hfirst hend)

end Sys2Proof.Machine
end

section
/-! SUPPORT and PROOF. The laws of the visible contents (R120, R271), and which push a consumption takes while nothing
was overrun (R64, R113). -/
namespace Sys2Proof.Machine

section Contents
variable {c0 : Nat} {c : Chan}

/-- `wr` is the slot after the visible contents. -/
theorem Chan.Wf.wr_eq_rd_add_occ (hw : c.Wf c0) : c.wr = (c.rd + c.occ) % c.cap := by
  have hrd := hw.rd_lt
  rw [Chan.occ, Nat.add_mod_mod, show c.rd + (c.wr + c.cap - c.rd) = c.wr + c.cap by omega, Nat.add_mod_right,
    Nat.mod_eq_of_lt hw.wr_lt]

theorem Chan.Wf.occ_lt (hw : c.Wf c0) : c.occ < c.cap := Nat.mod_lt _ hw.cap_pos

/-- R120 law 3: the overrun PUSH empties the visible contents. -/
theorem Chan.Wf.contents_pushByte_of_full (hw : c.Wf c0) (b : Byte) (hfull : c.occ + 1 = c.cap) :
    (c.pushByte b).contents = [] := by
  have hocc : (c.pushByte b).occ = 0 := by rw [hw.occ_pushByte, hfull, Nat.mod_self]
  exact List.length_eq_zero_iff.1 ((hw.push b).contents_spec.1.trans hocc)

/-- R120 law 2: any other PUSH appends its byte. -/
theorem Chan.Wf.contents_pushByte_of_room (hw : c.Wf c0) (b : Byte) (hroom : c.occ + 1 < c.cap) :
    (c.pushByte b).contents = c.contents ++ [b] := by
  obtain ⟨hlen, hslots⟩ := hw.contents_spec
  have hocc : (c.pushByte b).occ = c.occ + 1 := by rw [hw.occ_pushByte, Nat.mod_eq_of_lt hroom]
  refine (hw.push b).contents_eq (by simp [hlen, hocc]) fun i hi => ?_
  rw [hocc] at hi
  rw [Chan.pushByte_slot, Chan.pushByte_rd, Chan.pushByte_cap, hw.wr_eq_rd_add_occ]
  rcases Nat.lt_succ_iff_lt_or_eq.1 hi with hlt | rfl
  · have hother : (c.rd + i) % c.cap ≠ (c.rd + c.occ) % c.cap := fun he => by
      have := mod_inj_of_lt he (by omega) (by omega)
      omega
    rw [if_neg hother, hslots i hlt, List.getElem?_append_left (hlen ▸ hlt)]
  · rw [if_pos rfl, ← hlen, List.getElem?_concat_length]

/-- R120 law 4: a consuming read takes the first of the visible contents, which stands at `rd`. -/
theorem Chan.Wf.consume_contents {b : Byte} {rest : List Byte} (hw : c.Wf c0) (hcont : c.contents = b :: rest) :
    c.rd ≠ c.wr ∧ c.slot? c.rd = some b ∧ c.consume.contents = rest := by
  obtain ⟨hlen, hslots⟩ := hw.contents_spec
  rw [hcont] at hlen hslots
  have hpos : 0 < c.occ := hlen ▸ Nat.succ_pos _
  have hd := hw.occ_pos_iff.1 hpos
  have hocc := hw.occ_consume hpos
  refine ⟨hd, ?_, (hw.consumes hd).contents_eq ?_ fun i hi => ?_⟩
  · simpa [Nat.mod_eq_of_lt hw.rd_lt] using hslots 0 hpos
  · rw [List.length_cons] at hlen
    omega
  · have hnext := hslots (i + 1) (by omega)
    rw [List.getElem?_cons_succ] at hnext
    rw [← hnext, Chan.consume_slot, Chan.consume_rd, Chan.consume_cap, nextSlot, Nat.mod_add_mod, Nat.add_assoc,
      Nat.add_comm 1 i]

/-- While the true backlog is no more than `C`, the byte at `rd` is the byte of push number `R` (R64). -/
theorem Chan.Holds.oldest {hist : List Byte} {b : Byte} (h : c.Holds c0 hist) (hw : c.Wf c0)
    (hle : c.pushed ≤ c.consumed + c.cap) (hd : c.rd ≠ c.wr) (hb : c.slot? c.rd = some b) :
    hist[c.consumed]? = some b := by
  rw [← h.slot_eq c.consumed (hw.consumed_lt hd) hle, ← hw.rd_eq, hb]

end Contents

/-- Settles O12: a PUSH answers on every channel that is there, and `occ < C` leaves the two laws as the only cases. -/
theorem pushAppendsOrEmptiesContents : Obligations.PushAppendsOrEmptiesContents := by
  intro s ch c b hc hw
  obtain ⟨t, ht, htc, -⟩ := pushEvent_spec hc b
  refine ⟨t, c.pushByte b, ht, htc, ?_⟩
  split
  next hfull => exact hw.contents_pushByte_of_full b hfull
  next hroom => exact hw.contents_pushByte_of_room b (Nat.lt_of_le_of_ne hw.occ_lt hroom)

/-- Settles O13: contents that are not empty mean that the cursors differ, so the POP answers. -/
theorem popTakesFirstOfContents : Obligations.PopTakesFirstOfContents := by
  intro s ch c b rest hc hw hcont
  obtain ⟨hd, hb, hrest⟩ := hw.consume_contents hcont
  exact ⟨_, c.consume, execPop_eq_next.2 ⟨c, b, hc, hd, hb, rfl⟩, State.setChan_chan?_of_some hc c.consume, hrest, rfl⟩

/-- A row of DEC_STEP that answers is the DEC_STEP of that state (R140). -/
theorem decStepOn_of_row {s t : State} {l : Nat} {i : Instr} (hi : i ∈ decStepRows l) (h : exec i s = .next t) :
    decStepOn l s = .next t := by
  obtain hstep | ⟨w, hcase⟩ := exec_decStepRows hi
  · rwa [hstep] at h
  · exact selectedCase_step (hcase ▸ h)

/-- Settles O15: POP, PEEK and DEC_STEP all load the byte at `rd`. -/
theorem popReturnsThePushedByte : Obligations.PopReturnsThePushedByte := by
  intro s t ch c hist hc hw hholds hlt
  have oldest {b : Byte} : c.rd ≠ c.wr → c.slot? c.rd = some b → hist[c.consumed]? = some b :=
    hholds.oldest hw (Nat.le_of_lt hlt)
  refine ⟨fun h => ?pop, fun h => ?peek, fun hdir i hi h => ?decStep⟩
  case pop =>
    obtain ⟨c1, b, hc1, hd, hb, rfl⟩ := execPop_eq_next.1 h
    obtain rfl : c = c1 := by simpa [hc] using hc1
    exact ⟨b, oldest hd hb, rfl⟩
  case peek =>
    obtain ⟨c1, b, hc1, hd, hb, rfl⟩ := execPeek_eq_next.1 h
    obtain rfl : c = c1 := by simpa [hc] using hc1
    exact ⟨b, oldest hd hb, rfl⟩
  case decStep =>
    obtain ⟨k, b, -, hk, hd, hb, -⟩ := decStepOn_spec (decStepOn_of_row hi h)
    obtain rfl : k.inCh = c := by simpa [State.chan?, hk, hdir] using hc
    exact ⟨b, oldest hd hb, hd, hb⟩

end Sys2Proof.Machine
end

section
/-! SUPPORT and PROOF. The model's own records: the consuming read of R116 (log 16) and the ghosts of R33 (log 26). -/
namespace Sys2Proof.Machine

section Reaction
variable {w : SubCase} {p : Params} {l cap rd : Nat} {d : Dec} {b : Byte}

/-- The length case alone writes the slot of the length byte. -/
theorem react_lenSlot :
    (react w p l cap rd d b).dec.lenSlot = if w = .readLength then rd else d.lenSlot := by
  cases w with
  | readLength | payload => rfl
  | _ =>
    simp only [react, reactMagic1, reactMagic2, reactMagic3, reactMagic4, reactReadToken, reactChecksum]
    split <;> rfl

/-- A matching token empties the payload bytes taken, and each payload byte is added to them. -/
theorem react_taken :
    (react w p l cap rd d b).dec.taken =
      if w = .readToken ∧ b = p.token then [] else if w = .payload then d.taken ++ [b] else d.taken := by
  cases w with
  | readLength | payload => rfl
  | readToken =>
    simp only [react, reactReadToken]
    split <;> simp [*]
  | _ =>
    simp only [react, reactMagic1, reactMagic2, reactMagic3, reactMagic4, reactChecksum]
    split <;> rfl

end Reaction

section OwnLink
variable {k k' : Link} (r : Reaction)

@[simp] theorem Link.reacted_justRead : (k.reacted r).inCh.justRead = r.consume := by
  unfold Link.reacted
  cases r.consume <;> rfl

@[simp] theorem Link.reacted_consumed : (k.reacted r).inCh.consumed = k.inCh.consumed + r.consume.toNat := by
  unfold Link.reacted
  cases r.consume <;> rfl

@[simp] theorem Link.reacted_dec : (k.reacted r).dec = r.dec := rfl

theorem Link.Answered.inbound_consumed_eq (h : k.Answered k') : k'.inCh.consumed = k.inCh.consumed := by
  obtain ⟨-, hin | hin, -⟩ := h <;> simp [hin]

/-- What a DEC_STEP makes of its own link: the answer to a dispatch that stood, then the reaction to the oldest unread
byte (R140, R209). -/
theorem decStepOn_own_link {l : Nat} {s t : State} (h : decStepOn l s = .next t) :
    ∃ k b k', s.links[l]? = some k ∧ k.inCh.slot? k.inCh.rd = some b ∧ k.Answered k' ∧
      t.links[l]? = some (k'.reacted (react k.dec.subCase s.params l k.inCh.cap k.inCh.rd k.dec b)) := by
  obtain ⟨k, b, u, hk, -, hb, hu, -, hlinks, -⟩ := decStepOn_spec h
  obtain ⟨k', hk', answered⟩ := (deliver_answered hu).link l k hk
  exact ⟨k, b, k', hk, hb, answered, by rw [hlinks, List.getElem?_modify, hk']; simp⟩

end OwnLink

/-- The rows of a channel's consumer that consume nothing leave the record of a consuming read clear. -/
theorem ReadsFrom.justRead_eq_false {s t : State} {ch : ChanId} {c' : Chan} {i : Instr} (hi : ReadsFrom ch i)
    (hpop : i ≠ .pop ch) (h : exec i s = .next t) (hc' : t.chan? ch = some c') : c'.justRead = false := by
  suffices hset : ∃ c d o, s.chan? ch = some c ∧ d.justRead = false ∧ t = (s.setChan ch d).noteOpt o by
    obtain ⟨c, d, o, hc, hd, rfl⟩ := hset
    obtain rfl : d = c' := by simpa [State.setChan_chan?_of_some hc] using hc'
    exact hd
  cases hi with
  | hasData =>
    obtain ⟨c, hc, rfl⟩ := execHasData_eq_next.1 h
    exact ⟨c, c.look, some _, hc, rfl, rfl⟩
  | pop => exact absurd rfl hpop
  | peek =>
    obtain ⟨c, b, hc, -, -, rfl⟩ := execPeek_eq_next.1 h
    exact ⟨c, c.look, some _, hc, rfl, rfl⟩
  | stepback =>
    obtain ⟨c, hc, -, rfl⟩ := execStepback_eq_next.1 h
    exact ⟨c, c.unconsume, none, hc, rfl, rfl⟩
  | view off n =>
    obtain ⟨c, bs, hc, -, -, -, rfl⟩ := execView_eq_next.1 h
    exact ⟨c, c.look, some _, hc, rfl, rfl⟩

/-- Settles O8: a consumer's event writes the record by `consume`, `look` or `unconsume`, a DEC_STEP writes it and its
ghosts by the reaction of its sub-case, and a PUSH writes neither. -/
theorem recordFollowsTheConsumer : Obligations.RecordFollowsTheConsumer := by
  intro s t ch c c' hc hc'
  refine ⟨fun h => ?pop, fun i hi h => ?look, fun b h => ?push, fun hdir h => ?decStep⟩
  case pop =>
    obtain ⟨c1, b, hc1, -, -, rfl⟩ := execPop_eq_next.1 h
    obtain rfl : c1.consume = c' := by simpa [State.setChan_chan?_of_some hc1] using hc'
    rfl
  case look =>
    obtain rfl | rfl | rfl | ⟨off, n, rfl⟩ := hi
    · exact ReadsFrom.justRead_eq_false .hasData nofun h hc'
    · exact ReadsFrom.justRead_eq_false .peek nofun h hc'
    · exact ReadsFrom.justRead_eq_false .stepback nofun h hc'
    · exact ReadsFrom.justRead_eq_false (.view off n) nofun h hc'
  case push =>
    obtain ⟨t', ht', htc, -⟩ := pushEvent_spec hc b
    obtain rfl : t' = t := by simpa [show pushEvent ch b s = .next t from h] using ht'.symm
    obtain rfl : c.pushByte b = c' := by simpa [htc] using hc'
    rfl
  case decStep =>
    obtain ⟨k, b, k', hk, hb, answered, hk'⟩ := decStepOn_own_link h
    obtain rfl : k.inCh = c := by simpa [State.chan?, hk, hdir] using hc
    generalize hr : react _ _ _ _ _ _ _ = r at hk'
    obtain rfl : (k'.reacted r).inCh = c' := by simpa [State.chan?, hk', hdir] using hc'
    refine ⟨?record, fun d d' b' hd hd' hb' => ?ghosts⟩
    case record =>
      rw [Link.reacted_justRead, Link.reacted_consumed, answered.inbound_consumed_eq]
      cases r.consume <;> simp
    case ghosts =>
      obtain rfl : k.dec = d := by simpa [State.dec?, hk] using hd
      obtain rfl : r.dec = d' := by simpa [State.dec?, hk'] using hd'
      obtain rfl : b = b' := by simpa [hb] using hb'
      rw [← hr, react_lenSlot, react_taken]
      simp only [Dec.subCase_eq_iff, Dec.Selects, and_self]

end Sys2Proof.Machine
end

section
/-! SUPPORT and PROOF. The rows of DEC_STEP one by one (spec/41_frame_decoder.md R140 to R149): with no dispatch waiting, a
DEC_STEP and the row that its state selects settle the table's reaction; every other row is refused. -/
namespace Sys2Proof.Machine

section Rows
variable {s t : State} {l : Nat} {k : Link} {b : Byte} {w : SubCase} {d d' : Dec} {consumed : Bool}

/-- A sub-case that the decoder's state does not select (log 15). -/
theorem selectedCase_of_unselected (hk : s.links[l]? = some k) (hw : ¬ k.dec.Selects w) :
    selectedCase w l s = .refused (.notSelected l) := by
  rw [selectedCase, withLink_of_some hk, if_neg (hw ∘ Dec.subCase_eq_iff.1)]

/-- Only the registers of the spec count in what a DEC_STEP leaves, not the ghosts (log 26). -/
theorem SteppedTo.congr_dec (h : SteppedTo s t l k consumed d) (hd : d.block = d'.block) :
    SteppedTo s t l k consumed d' := by
  unfold SteppedTo at h ⊢
  rwa [← hd]

theorem SteppedTo.raise (h : SteppedTo s t l k consumed d) (x : Dispatch) :
    SteppedTo s (t.raise x) l k consumed d := h

/-- What settling a reaction leaves (R140). -/
theorem settle_steppedTo (hk : s.links[l]? = some k) (r : Reaction) :
    SteppedTo s (settle l r s) l k r.consume r.dec := by
  have hself : (settle l r s).links[l]? = some (k.reacted r) := settle_self l r s hk
  refine ⟨⟨k.reacted r, hself, rfl, rfl, ?cursor⟩, fun j hj => settle_ne l r s hj, fun ch a => ?slots, by simp [SameAround]⟩
  case cursor =>
    unfold Link.reacted
    cases r.consume <;> rfl
  case slots =>
    by_cases hl : ch.link = l
    · subst hl
      simp only [State.slot?, State.chan?, hself, hk, Option.map_some, Option.bind_some]
      cases ch.dir
      · unfold Link.reacted
        cases r.consume <;> rfl
      · rfl
    · rw [State.slot?, State.slot?, State.chan?, State.chan?, settle_ne l r s hl]

/-- With no dispatch waiting, the row that the state selects is the DEC_STEP (R140). -/
theorem Examines.selectedCase_eq (h : Examines s l k b) (hw : k.dec.Selects w) :
    selectedCase w l s = decStepOn l s := by
  obtain ⟨-, hk, -, -⟩ := h
  rw [selectedCase_of_selected hk hw, decStepOn_of_some hk, Dec.subCase_eq_iff.2 hw]

/-- With no dispatch waiting, a reaction that raises none is all that a DEC_STEP and its row do. -/
theorem Examines.settles (h : Examines s l k b) (hw : k.dec.Selects w) {r : Reaction}
    (hr : react w s.params l k.inCh.cap k.inCh.rd k.dec b = r) (hd : r.dispatch = false) :
    ∃ t, decStepOn l s = .next t ∧ selectedCase w l s = .next t ∧ t.raised = none ∧
      SteppedTo s t l k r.consume r.dec ∧ t.trace = r.label.toList ++ s.trace := by
  have hstep : decStepOn l s = .next (settle l r s) := by
    simp only [decStepOn_of_quiet h, Dec.subCase_eq_iff.2 hw, hr, hd, Bool.false_eq_true, if_false]
  have ⟨hraised, hk, _⟩ := h
  exact ⟨_, hstep, by rw [h.selectedCase_eq hw, hstep], by simpa using hraised, settle_steppedTo hk r, settle_trace l r s⟩

/-- A case that compares its byte with an expected one `m`: a match consumes it and goes on to `d'`, a mismatch resyncs
under a label (R141 to R144, R146). -/
theorem Examines.matches_or_resyncs (h : Examines s l k b) (hw : k.dec.Selects w) {m : Byte} {x : Label}
    (hr : react w s.params l k.inCh.cap k.inCh.rd k.dec b =
      if b = m then ⟨d, true, none, false⟩ else ⟨k.dec.resync, consumed, some x, false⟩) (hd : d.block = d'.block) :
    ∃ t, decStepOn l s = .next t ∧ selectedCase w l s = .next t ∧ t.raised = none ∧
      (b = m → SteppedTo s t l k true d' ∧ t.trace = s.trace) ∧
      (b ≠ m → SteppedTo s t l k consumed k.dec.resync ∧ t.trace = x :: s.trace) := by
  by_cases hb : b = m
  · rw [if_pos hb] at hr
    obtain ⟨t, hstep, hrow, hraised, stepped, htrace⟩ := h.settles hw hr rfl
    exact ⟨t, hstep, hrow, hraised, fun _ => ⟨stepped.congr_dec hd, htrace⟩, absurd hb⟩
  · rw [if_neg hb] at hr
    obtain ⟨t, hstep, hrow, hraised, stepped⟩ := h.settles hw hr rfl
    exact ⟨t, hstep, hrow, hraised, fun he => absurd he hb, fun _ => stepped⟩

end Rows

/-- Settles O20: the state that a mismatch resyncs to is the one it is in. -/
theorem awaitMagic1ConsumesEitherWay : Obligations.AwaitMagic1ConsumesEitherWay := by
  intro s l k b h hst
  have hstays : k.dec.resync = k.dec := by rw [Dec.resync, ← hst]
  have := h.matches_or_resyncs (w := .awaitMagic1) hst rfl rfl
  rwa [hstays] at this

/-- Settles O21: the row compares its byte with `MAGIC[1]`. -/
theorem awaitMagic2MatchesOrResyncs : Obligations.AwaitMagic2MatchesOrResyncs := fun _ _ _ _ h hst =>
  h.matches_or_resyncs (w := .awaitMagic2) hst rfl rfl

/-- Settles O22: the row compares its byte with `MAGIC[2]`. -/
theorem awaitMagic3MatchesOrResyncs : Obligations.AwaitMagic3MatchesOrResyncs := fun _ _ _ _ h hst =>
  h.matches_or_resyncs (w := .awaitMagic3) hst rfl rfl

/-- Settles O23: the row compares its byte with `MAGIC[3]`. -/
theorem awaitMagic4MatchesOrResyncs : Obligations.AwaitMagic4MatchesOrResyncs := fun _ _ _ _ h hst =>
  h.matches_or_resyncs (w := .awaitMagic4) hst rfl rfl

/-- Settles O24: the row's only other assignment is to a ghost. -/
theorem readLengthCapturesLengthAndOffset : Obligations.ReadLengthCapturesLengthAndOffset := by
  intro s l k b h hst
  obtain ⟨t, hstep, hrow, hraised, stepped, htrace⟩ := h.settles (w := .readLength) hst rfl rfl
  exact ⟨t, hstep, hrow, hraised, stepped.congr_dec rfl, htrace⟩

/-- Settles O25: the seed is the XOR of the six bytes matched or read so far, folded the other way round. -/
theorem readTokenSeedsOrResyncs : Obligations.ReadTokenSeedsOrResyncs := by
  intro s l k b h hst
  refine h.matches_or_resyncs (w := .readToken) hst rfl ?_
  simp [Dec.block, xorBytes, Magic.bytes, BitVec.xor_assoc]

/-- Settles O26: a byte that is not zero goes down by one without wrapping. -/
theorem payloadByteIsAccumulated : Obligations.PayloadByteIsAccumulated := by
  intro s l k b h hst hpos
  have hne : k.dec.remaining ≠ 0 := fun h0 => by simp [h0] at hpos
  obtain ⟨t, hstep, hrow, hraised, stepped, htrace⟩ := h.settles (w := .payload) ⟨hst, hne⟩ rfl rfl
  refine ⟨t, _, hstep, hrow, hraised, stepped, htrace, hst, rfl, ?_, rfl, rfl⟩
  show (k.dec.remaining - 1).toNat = k.dec.remaining.toNat - 1
  bv_omega

/-- Settles O27: the payload's slots are read before the byte is consumed, and consuming it changes no slot. -/
theorem checksumByteDispatchesOrDrops : Obligations.ChecksumByteDispatchesOrDrops := by
  intro s l k b h hst hrem
  have hw : k.dec.Selects .checksum := ⟨hst, hrem⟩
  refine ⟨fun hb => ?drops, fun bs hb hlen hslots => ?dispatches⟩
  case drops =>
    exact h.settles hw (if_neg hb) rfl
  case dispatches =>
    have hreact : react .checksum s.params l k.inCh.cap k.inCh.rd k.dec b = ⟨k.dec.resync, true, none, true⟩ := if_pos hb
    have hrun : k.inCh.readRun k.dec.startOff k.dec.len.toNat = .ok bs := Chan.readRun_eq_ok.2 ⟨hlen, hslots⟩
    have hstep : decStepOn l s =
        .next ((settle l ⟨k.dec.resync, true, none, true⟩ s).raise ⟨l, k.dec.startOff, k.dec.len, bs⟩) := by
      simp only [decStepOn_of_quiet h, Dec.subCase_eq_iff.2 hw, hreact, if_true]
      exact raiseDispatch_eq_next.2 ⟨bs, hrun, rfl⟩
    have ⟨_, hk, _⟩ := h
    exact ⟨_, hstep, (h.selectedCase_eq hw).trans hstep, rfl, (settle_steppedTo hk _).raise _, by simp⟩

/-- Settles O28: each clause's premise is that the state does not select the row. -/
theorem unselectedCaseIsRefused : Obligations.UnselectedCaseIsRefused := by
  intro s l k hk
  have refuses {w : SubCase} (hw : ¬ k.dec.Selects w) : selectedCase w l s = .refused (.notSelected l) :=
    selectedCase_of_unselected hk hw
  exact ⟨fun h => refuses h, fun h => refuses h, fun h => refuses h, fun h => refuses h, fun h => refuses h,
    fun h => refuses h, fun h => refuses h, fun h => refuses h⟩

end Sys2Proof.Machine
end

section
/-! PROOF. What every DEC_STEP and every DISPATCH that answers has done, whatever stood before it (R140, R149, R150, R209). -/
namespace Sys2Proof.Machine

/-- A reaction consumes its byte, or it goes to AWAIT_MAGIC_1 from another state (R140). -/
theorem react_consumes_or_resyncs (p : Params) (l cap rd : Nat) (d : Dec) (b : Byte) :
    (react d.subCase p l cap rd d b).consume = true ∨
      ((react d.subCase p l cap rd d b).consume = false ∧ d.st ≠ .awaitMagic1 ∧
        (react d.subCase p l cap rd d b).dec.st = .awaitMagic1) := by
  unfold Dec.subCase
  cases hst : d.st with
  | awaitMagic1 => simp only [react, reactMagic1]; split <;> simp
  | awaitMagic2 => simp only [react, reactMagic2]; split <;> simp
  | awaitMagic3 => simp only [react, reactMagic3]; split <;> simp
  | awaitMagic4 => simp only [react, reactMagic4]; split <;> simp
  | readLength => exact .inl rfl
  | readToken => simp only [react, reactReadToken]; split <;> simp
  | readPayload =>
    dsimp only
    split
    · simp only [react, reactChecksum]; split <;> simp
    · exact .inl rfl

theorem Link.reacted_rd (k : Link) (r : Reaction) :
    (k.reacted r).inCh.rd = if r.consume then nextSlot k.inCh.cap k.inCh.rd else k.inCh.rd := by
  unfold Link.reacted
  cases r.consume <;> rfl

/-- Settles O29: an answer that comes first moves no inbound cursor, and the reaction's two ways are the two cases. -/
theorem noByteIsExaminedThrice : Obligations.NoByteIsExaminedThrice := by
  intro s t l k k' hk h hk'
  obtain ⟨k1, b, ku, hk1, -, answered, hku⟩ := decStepOn_own_link h
  obtain rfl : k = k1 := by simpa [hk] using hk1
  obtain ⟨hcap, hrd, -, -⟩ := answered.inbound_eq
  have hways := react_consumes_or_resyncs s.params l k.inCh.cap k.inCh.rd k.dec b
  generalize react k.dec.subCase s.params l k.inCh.cap k.inCh.rd k.dec b = r at hku hways
  obtain rfl : ku.reacted r = k' := by simpa [hku] using hk'
  rw [Link.reacted_rd, Link.reacted_consumed, Link.reacted_dec, hcap, hrd, answered.inbound_consumed_eq]
  rcases hways with hconsume | ⟨hkeep, hst, hresync⟩
  · exact .inl (by simp [hconsume, nextSlot])
  · exact .inr ⟨hst, hresync, by simp [hkeep], by simp [hkeep]⟩

/-- Settles O30: no dispatch that stood before is left standing, so the one that stands is raised by this DEC_STEP's
checksum match. -/
theorem raisedDispatchIsTheFrame : Obligations.RaisedDispatchIsTheFrame := by
  intro s t l d h hd
  obtain ⟨k, b, u, hk, -, hb, -, -, -, -, -, -, -, -, -, hraise⟩ := decStepOn_spec h
  rcases hraise with ⟨-, hnone, -⟩ | ⟨hdispatch, bs, hrun, hsome, -⟩
  · simp [hnone] at hd
  · obtain ⟨hcase, hacc, -⟩ := react_dispatch hdispatch
    obtain ⟨hst, hrem⟩ : k.dec.Selects .checksum := Dec.subCase_eq_iff.1 hcase
    obtain rfl : ⟨l, k.dec.startOff, k.dec.len, bs⟩ = d := by simpa [hsome] using hd
    obtain ⟨hlen, hslots⟩ := Chan.readRun_eq_ok.1 hrun
    exact ⟨k, hk, hst, hrem, by rw [hb, hacc], rfl, rfl, rfl, hlen, hslots⟩

/-- A DISPATCH event goes on exactly where the dispatch that it names stands. -/
theorem withRaised_eq_next {s t : State} {dec off : Nat} {n : Byte} {r : Result} :
    withRaised dec off n s r = .next t ↔ (∃ k, s.links[dec]? = some k) ∧
      (∃ d, s.raised = some d ∧ d.link = dec ∧ d.off = off ∧ d.n = n) ∧ r = .next t := by
  rw [withRaised, withLink_eq_next, exists_and_right]
  refine and_congr_right fun _ => ?_
  cases s.raised with
  | none => simp
  | some d =>
    by_cases hd : d.link = dec ∧ d.off = off ∧ d.n = n
    · simp [hd]
    · simp [hd]

/-- An answer leaves every decoder. -/
theorem State.Answered.dec?_eq {s t : State} (h : s.Answered t) (l : Nat) : t.dec? l = s.dec? l := by
  cases hk : s.links[l]? with
  | none =>
    have hk' : t.links[l]? = none := by simpa [h.length_eq] using hk
    simp [State.dec?, hk, hk']
  | some k =>
    obtain ⟨k', hk', hdec, -⟩ := h.link l k hk
    simp [State.dec?, hk, hk', hdec]

/-- Settles O34: the event is the collaborator's answer, which takes the dispatch and leaves the inbound side. -/
theorem dispatchKeepsTheInboundSide : Obligations.DispatchKeepsTheInboundSide := by
  intro s t dec off n
  refine ⟨fun k hk hnone => ?refused, fun h => ?answers⟩
  case refused => simp [exec, execDispatch, withRaised, withLink_of_some hk, hnone]
  case answers =>
    obtain ⟨-, hstands, hdeliver⟩ := withRaised_eq_next.1 h
    have answered := deliver_answered hdeliver
    refine ⟨hstands, answered.raised_eq, answered.dec?_eq, fun l c hc => ?_⟩
    obtain ⟨k, hk, rfl⟩ := State.chan?_eq_some.1 hc
    obtain ⟨k', hk', ak⟩ := answered.link l k hk
    obtain ⟨-, hrd, hwr, hmem⟩ := ak.inbound_eq
    exact ⟨k'.inCh, State.chan?_eq_some.2 ⟨k', hk', rfl⟩, hrd, hwr, hmem⟩

end Sys2Proof.Machine
end

section
/-! SUPPORT. What decoding on one link leaves unchanged, whatever the collaborator answers (R151, R208): inbound slots and
write cursors everywhere, and of every other link all but pushes on its outbound channel. -/
namespace Sys2Proof.Machine

/-- What decoding on a link leaves of a link, which is that one (`own`) or another, and what it leaves when the collaborator
answers nothing (`silent`). -/
structure Link.Decoded (own silent : Prop) (k k' : Link) : Prop where
  cap_eq : k'.inCh.cap = k.inCh.cap
  wr_eq : k'.inCh.wr = k.inCh.wr
  mem_eq : k'.inCh.mem = k.inCh.mem
  outbound : ∃ bs, k'.outCh = k.outCh.pushBytes bs
  other : ¬ own → k'.dec = k.dec ∧ k'.inCh.block = k.inCh.block
  quiet : silent → k'.outCh = k.outCh ∧ (¬ own → k' = k)

section OneLink
variable {own silent : Prop} {k : Link}

theorem Link.Decoded.refl (own silent : Prop) (k : Link) : k.Decoded own silent k :=
  ⟨rfl, rfl, rfl, ⟨[], rfl⟩, fun _ => ⟨rfl, rfl⟩, fun _ => ⟨rfl, fun _ => rfl⟩⟩

theorem Link.Decoded.trans {k1 k2 : Link} (h1 : k.Decoded own silent k1) (h2 : k1.Decoded own silent k2) :
    k.Decoded own silent k2 where
  cap_eq := h2.cap_eq.trans h1.cap_eq
  wr_eq := h2.wr_eq.trans h1.wr_eq
  mem_eq := h2.mem_eq.trans h1.mem_eq
  outbound := by
    obtain ⟨bs1, hb1⟩ := h1.outbound
    obtain ⟨bs2, hb2⟩ := h2.outbound
    exact ⟨bs1 ++ bs2, by rw [hb2, hb1, Chan.pushBytes_append]⟩
  other := fun hn => ⟨(h2.other hn).1.trans (h1.other hn).1, (h2.other hn).2.trans (h1.other hn).2⟩
  quiet := fun hs => ⟨(h2.quiet hs).1.trans (h1.quiet hs).1, fun hn => ((h2.quiet hs).2 hn).trans ((h1.quiet hs).2 hn)⟩

/-- An answer on any link, which with a silent collaborator changes no link. -/
theorem Link.Answered.decoded {k' : Link} (h : k.Answered k') (hs : silent → k' = k) : k.Decoded own silent k' := by
  obtain ⟨hcap, -, hwr, hmem⟩ := h.inbound_eq
  obtain ⟨hdec, hin, hout⟩ := h
  refine ⟨hcap, hwr, hmem, hout, fun _ => ⟨hdec, ?_⟩, fun hq => by simp [hs hq]⟩
  rcases hin with hin | hin <;> simp [hin]

/-- The decoder's own link, its inbound channel replaced by one with the same slots and write cursor. -/
theorem Link.Decoded.own_link {c : Chan} {d : Dec} (ho : own) (hcap : c.cap = k.inCh.cap) (hwr : c.wr = k.inCh.wr)
    (hmem : c.mem = k.inCh.mem) : k.Decoded own silent { k with inCh := c, dec := d } :=
  ⟨hcap, hwr, hmem, ⟨[], rfl⟩, absurd ho, fun _ => ⟨rfl, absurd ho⟩⟩

theorem Link.decoded_reacted (ho : own) (r : Reaction) : k.Decoded own silent (k.reacted r) := by
  unfold Link.reacted
  cases r.consume <;> exact .own_link ho rfl rfl rfl

end OneLink

/-- What decoding on link `l` leaves of the machine. -/
structure State.Decoded (l : Nat) (s t : State) : Prop where
  params_eq : t.params = s.params
  booted_eq : t.booted = s.booted
  responder_eq : t.responder = s.responder
  tasks_eq : t.tasks = s.tasks
  input_eq : t.input = s.input
  length_eq : t.links.length = s.links.length
  record_eq : s.Silent → t.record = s.record
  link : ∀ (j : Nat) (k : Link), s.links[j]? = some k →
    ∃ k', t.links[j]? = some k' ∧ k.Decoded (j = l) s.Silent k'

section Machine
variable {l : Nat} {s t u : State}

/-- Whether the collaborator is silent is a matter of the parameters and the responder. -/
theorem State.silent_congr (hp : t.params = s.params) (hr : t.responder = s.responder) : t.Silent = s.Silent := by
  simp only [State.Silent, hp, hr]

theorem State.Decoded.refl (l : Nat) (s : State) : s.Decoded l s :=
  ⟨rfl, rfl, rfl, rfl, rfl, rfl, fun _ => rfl, fun _ k hk => ⟨k, hk, .refl _ _ k⟩⟩

theorem State.Decoded.trans (h1 : s.Decoded l t) (h2 : t.Decoded l u) : s.Decoded l u where
  params_eq := h2.params_eq.trans h1.params_eq
  booted_eq := h2.booted_eq.trans h1.booted_eq
  responder_eq := h2.responder_eq.trans h1.responder_eq
  tasks_eq := h2.tasks_eq.trans h1.tasks_eq
  input_eq := h2.input_eq.trans h1.input_eq
  length_eq := h2.length_eq.trans h1.length_eq
  record_eq := fun hs =>
    (h2.record_eq (State.silent_congr h1.params_eq h1.responder_eq ▸ hs)).trans (h1.record_eq hs)
  link := fun j k hk => by
    obtain ⟨k1, hk1, d1⟩ := h1.link j k hk
    obtain ⟨k2, hk2, d2⟩ := h2.link j k1 hk1
    rw [State.silent_congr h1.params_eq h1.responder_eq] at d2
    exact ⟨k2, hk2, d1.trans d2⟩

/-- A machine whose link `l` alone has changed. -/
theorem State.Decoded.of_modify {f : Link → Link} (hl : t.links = s.links.modify l f)
    (hf : ∀ k : Link, k.Decoded True s.Silent (f k)) (hp : t.params = s.params) (hb : t.booted = s.booted)
    (hr : t.responder = s.responder) (ht : t.tasks = s.tasks) (hi : t.input = s.input) (hc : t.record = s.record) :
    s.Decoded l t := by
  refine ⟨hp, hb, hr, ht, hi, by simp [hl], fun _ => hc, fun j k hk => ?_⟩
  by_cases hj : j = l
  · subst hj
    exact ⟨f k, by simp [hl, hk], by simpa using hf k⟩
  · exact ⟨k, by simp [hl, hk, Ne.symm hj], .refl _ _ k⟩

theorem deliver_decoded (h : deliver s = .next t) (l : Nat) : s.Decoded l t := by
  have answered := deliver_answered h
  have silent (hs : s.Silent) : t = { s with raised := none } := by simpa [deliver_of_silent hs] using h.symm
  refine ⟨answered.params_eq, answered.booted_eq, answered.responder_eq, answered.tasks_eq, answered.input_eq,
    answered.length_eq, fun hs => by rw [silent hs], fun j k hk => ?_⟩
  obtain ⟨k', hk', ak⟩ := answered.link j k hk
  refine ⟨k', hk', ak.decoded fun hs => ?_⟩
  simpa [silent hs, hk] using hk'.symm

theorem decStepOn_decoded (h : decStepOn l s = .next t) : s.Decoded l t := by
  obtain ⟨k, b, u, -, -, -, hu, -, hlinks, hp, hb, hr, hrec, ht, hi, -⟩ := decStepOn_spec h
  have du := deliver_decoded hu l
  exact du.trans (.of_modify hlinks (fun k => Link.decoded_reacted trivial _) (hp.trans du.params_eq.symm)
    (hb.trans du.booted_eq.symm) (hr.trans du.responder_eq.symm) (ht.trans du.tasks_eq.symm)
    (hi.trans du.input_eq.symm) hrec)

/-- The HAS_DATA that ends a DEC_RUN. -/
theorem State.decoded_look {k : Link} (hk : s.links[l]? = some k) : s.Decoded l (s.setChan ⟨l, .inbound⟩ k.inCh.look) := by
  refine ⟨rfl, rfl, rfl, rfl, rfl, by simp, fun _ => rfl, fun j k' hk' => ?_⟩
  by_cases hj : l = j
  · subst hj
    obtain rfl : k = k' := by simpa [hk] using hk'
    exact ⟨{ k with inCh := k.inCh.look }, by simp [State.setChan_getElem?, hk], .own_link rfl rfl rfl rfl⟩
  · exact ⟨k', by simp [State.setChan_getElem?, hj, hk'], .refl _ _ k'⟩

theorem decRunLoop_decoded {fuel : Nat} (h : decRunLoop fuel l s = .next t) : s.Decoded l t := by
  induction fuel generalizing s with
  | zero => cases h; exact .refl l _
  | succ fuel ih =>
    obtain ⟨u, hu, hturn⟩ := andThen_eq_next.1 h
    obtain ⟨k, hk, hturn⟩ := withLink_eq_next.1 hturn
    refine (deliver_decoded hu l).trans ?_
    split at hturn
    · obtain ⟨v, hv, ht⟩ := andThen_eq_next.1 hturn
      exact (decStepOn_decoded hv).trans (ih ht)
    · cases hturn
      exact State.decoded_look hk

theorem decRunAlone_decoded (h : decRunAlone l s = .next t) : s.Decoded l t := by
  obtain ⟨k, -, hrun⟩ := withLink_eq_next.1 h
  exact decRunLoop_decoded hrun

/-- What a link of the later state has kept of the same link of the earlier one. -/
theorem State.Decoded.of_link (h : s.Decoded l t) {j : Nat} {k k' : Link} (hk : s.links[j]? = some k)
    (hk' : t.links[j]? = some k') : k.Decoded (j = l) s.Silent k' := by
  obtain ⟨k2, hk2, d⟩ := h.link j k hk
  obtain rfl : k2 = k' := by simpa [hk2] using hk'
  exact d

/-- Both machines have the link or neither has it. -/
theorem State.Decoded.link_none (h : s.Decoded l t) {j : Nat} (hk : s.links[j]? = none) : t.links[j]? = none := by
  simpa [h.length_eq] using hk

theorem State.Decoded.onlyAnswers (h : s.Decoded l t) : OnlyAnswers s t where
  params_eq := h.params_eq
  booted_eq := h.booted_eq
  responder_eq := h.responder_eq
  tasks_eq := h.tasks_eq
  input_eq := h.input_eq
  length_eq := h.length_eq
  slot_eq := fun j a => by
    cases hk : s.links[j]? with
    | none => simp [State.slot?, State.chan?, hk, h.link_none hk]
    | some k =>
      obtain ⟨k', hk', d⟩ := h.link j k hk
      simp [State.slot?, State.chan?, hk, hk', Chan.slot?, d.mem_eq]
  outbound := fun j c hc => by
    obtain ⟨k, hk, rfl⟩ := State.chan?_eq_some.1 hc
    obtain ⟨k', hk', d⟩ := h.link j k hk
    obtain ⟨bs, hbs⟩ := d.outbound
    exact ⟨bs, State.chan?_eq_some.2 ⟨k', hk', hbs⟩⟩

/-- Every other decoder and every other inbound channel is as before. -/
theorem State.Decoded.others (h : s.Decoded l t) {j : Nat} (hj : j ≠ l) :
    t.dec? j = s.dec? j ∧
      (t.chan? ⟨j, .inbound⟩).map Chan.block = (s.chan? ⟨j, .inbound⟩).map Chan.block := by
  cases hk : s.links[j]? with
  | none => simp [State.dec?, State.chan?, hk, h.link_none hk]
  | some k =>
    obtain ⟨k', hk', d⟩ := h.link j k hk
    obtain ⟨hdec, hblock⟩ := d.other hj
    simp [State.dec?, State.chan?, hk, hk', hdec, hblock]

/-- With a silent collaborator no other link and no slot changes. -/
theorem State.Decoded.of_silent (h : s.Decoded l t) (hs : s.Silent) : OnlyLink l s t ∧ SameSlots s t ∧ SameAround s t := by
  refine ⟨fun j hj => ?others, fun ch a => ?slots,
    h.params_eq, h.booted_eq, h.responder_eq, h.record_eq hs, h.tasks_eq, h.input_eq⟩
  case others =>
    cases hk : s.links[j]? with
    | none => exact h.link_none hk
    | some k =>
      obtain ⟨k', hk', d⟩ := h.link j k hk
      rw [hk', (d.quiet hs).2 hj]
  case slots =>
    obtain ⟨j, _ | _⟩ := ch
    · exact h.onlyAnswers.slot_eq j a
    · cases hk : s.links[j]? with
      | none => simp [State.slot?, State.chan?, hk, h.link_none hk]
      | some k =>
        obtain ⟨k', hk', d⟩ := h.link j k hk
        simp [State.slot?, State.chan?, hk, hk', (d.quiet hs).1]

end Machine

end Sys2Proof.Machine
end

section
/-! SUPPORT and PROOF. A DEC_RUN with a quiet producer answers and empties its channel (R151): no DEC_STEP of it reads an
unwritten slot, no answer fails, and each unread byte costs at most two turns (R140, R283). -/
namespace Sys2Proof.Machine

section Turns
variable {c0 : Nat} {k k' : Link}

/-- The DEC_STEPs that a DEC_RUN may still need: two for each unread byte, but the oldest is consumed at once in
AWAIT_MAGIC_1. -/
def Link.turns (k : Link) : Nat := 2 * k.inCh.occ - if k.dec.st = .awaitMagic1 then 1 else 0

theorem Link.turns_le (k : Link) : k.turns ≤ 2 * k.inCh.occ := Nat.sub_le _ _

theorem Link.le_turns_succ (k : Link) : 2 * k.inCh.occ ≤ k.turns + 1 := by
  unfold Link.turns
  split <;> omega

theorem Link.Answered.turns_eq (h : k.Answered k') : k'.turns = k.turns := by
  obtain ⟨hcap, hrd, hwr, -⟩ := h.inbound_eq
  obtain ⟨hdec, -⟩ := h
  simp only [Link.turns, Chan.occ, hcap, hrd, hwr, hdec]

/-- Each reaction takes a turn: a byte consumed counts for two, and a byte kept waits in AWAIT_MAGIC_1. -/
theorem Link.turns_reacted (hw : k.inCh.Wf c0) (hd : k.inCh.rd ≠ k.inCh.wr) (p : Params) (l cap rd : Nat) (b : Byte) :
    (k.reacted (react k.dec.subCase p l cap rd k.dec b)).turns < k.turns := by
  have hpos := hw.occ_pos_iff.2 hd
  have hways := react_consumes_or_resyncs p l cap rd k.dec b
  generalize react k.dec.subCase p l cap rd k.dec b = r at hways
  rcases hways with hconsume | ⟨hkeep, hst, hresync⟩
  · have hin : (k.reacted r).inCh = k.inCh.consume := by simp [Link.reacted, hconsume]
    have hocc := hw.occ_consume hpos
    have hafter := (k.reacted r).turns_le
    have hbefore := k.le_turns_succ
    rw [hin] at hafter
    omega
  · have hin : (k.reacted r).inCh = k.inCh.look := by simp [Link.reacted, hkeep]
    have hocc : k.inCh.look.occ = k.inCh.occ := rfl
    simp only [Link.turns, Link.reacted_dec, hin, hocc, hresync, hst, if_true, if_false]
    omega

end Turns

section Drainable
variable {c0 : Nat} {p : Params} {k k' : Link}

theorem Chan.AllWritten.congr {c c' : Chan} (h : c.AllWritten) (hcap : c'.cap = c.cap) (hmem : c'.mem = c.mem) :
    c'.AllWritten := fun a ha => by
  rw [Chan.slot?, hmem]
  exact h a (hcap ▸ ha)

theorem Link.Drainable.answered (h : k.Drainable c0) (a : k.Answered k') : k'.Drainable c0 := by
  obtain ⟨hcap, hrd, hwr, hmem⟩ := a.inbound_eq
  have hconsumed := a.inbound_consumed_eq
  obtain ⟨hdec, -⟩ := a
  rcases h with hempty | hall | hahead
  · exact .inl (by rw [hrd, hwr, hempty])
  · exact .inr (.inl (hall.congr hcap hmem))
  · exact .inr (.inr (hdec ▸ hahead.mono hcap (Nat.le_of_eq hconsumed.symm)))

theorem Link.Drainable.reacted (h : k.Drainable p.c0) (hw : k.Wf p) (hd : k.inCh.rd ≠ k.inCh.wr) (l : Nat) (b : Byte) :
    (k.reacted (react k.dec.subCase p l k.inCh.cap k.inCh.rd k.dec b)).Drainable p.c0 := by
  rcases h with hempty | hall | hahead
  · exact absurd hempty hd
  · refine .inr (.inl (hall.congr (Link.reacted_cap _) ?_))
    unfold Link.reacted
    split <;> rfl
  · exact .inr (.inr ((Link.keeps_reacted hd).ahead hw hahead))

/-- The payload of a frame whose checksum byte comes next stands in slots that have been pushed (R33.4, R238). -/
theorem Link.Drainable.payload_written (h : k.Drainable p.c0) (hw : k.Wf p) (hd : k.inCh.rd ≠ k.inCh.wr)
    (hsel : k.dec.Selects .checksum) :
    ∃ bs, k.inCh.readRun k.dec.startOff k.dec.len.toNat = .ok bs := by
  obtain ⟨hst, hrem⟩ := hsel
  cases hrun : k.inCh.readRun k.dec.startOff k.dec.len.toNat with
  | ok bs => exact ⟨bs, rfl⟩
  | error a =>
    obtain ⟨i, hi, ha, hnone, -⟩ := Chan.readRun_eq_error.1 hrun
    suffices hsome : (k.inCh.slot? a).isSome by simp [hnone] at hsome
    rcases h with hempty | hall | hahead
    · exact absurd hempty hd
    · exact hall a (ha ▸ Nat.mod_lt _ hw.inbound.cap_pos)
    · obtain ⟨j, hoff, hj⟩ := hahead.payload hst
      have htaken : k.dec.taken.length = k.dec.len.toNat := by simpa [hrem] using hw.decoder.taken_length hst
      have hle := hw.inbound.consumed_le
      refine (hw.inbound.written a).2 ⟨j + 2 + i, by omega, ?_⟩
      rw [ha, hoff, Nat.mod_add_mod]
      congr 1
      omega

end Drainable

/-- What a reply needs is kept by decoding, and so is what the collaborator is asked by. -/
theorem State.Decoded.responsive {l : Nat} {s t : State} (h : s.Decoded l t) (hs : s.Responsive) : t.Responsive := by
  intro d hd r hr
  rw [h.params_eq, h.responder_eq] at hr
  have fits := hs d (h.length_eq ▸ hd) r hr
  cases r with
  | encode enc p =>
    obtain ⟨henc, hlen⟩ := fits
    exact ⟨h.length_eq ▸ henc, h.params_eq ▸ hlen⟩
  | copyRecord j off =>
    obtain ⟨k, hk, hsize, hall⟩ := fits
    obtain ⟨k', hk', kept⟩ := h.link j k hk
    exact ⟨k', hk', by rw [h.params_eq, kept.cap_eq]; exact hsize, hall.congr kept.cap_eq kept.mem_eq⟩

/-- What a DEC_RUN on link `l`, whose link is `k`, needs to answer: no DEC_STEP and no answer of it then stops the run. -/
structure State.Drains (l : Nat) (s : State) (k : Link) : Prop where
  inv : s.Inv
  link : s.links[l]? = some k
  responsive : s.Responsive
  drainable : k.Drainable s.params.c0

section Run
variable {l : Nat} {s : State} {k : Link}

theorem State.Drains.wf (h : s.Drains l k) : k.Wf s.params := h.inv.links_wf l k h.link

/-- A dispatch that stands is answered, and the run's needs are met again (R209). -/
theorem State.Drains.after_deliver (h : s.Drains l k) :
    ∃ u ku, deliver s = .next u ∧ u.raised = none ∧ u.Drains l ku ∧ ku.turns = k.turns := by
  obtain ⟨u, hu⟩ := deliver_of_responsive h.responsive
    (fun d hd => by
      obtain ⟨kd, hkd, -⟩ := (h.inv.raised_wf d hd).start_lt
      exact (List.getElem?_eq_some_iff.1 hkd).1)
    fun j kj hkj => (h.inv.links_wf j kj hkj).inbound.cap_pos
  have answered := deliver_answered hu
  obtain ⟨ku, hku, ak⟩ := answered.link l k h.link
  exact ⟨u, ku, hu, answered.raised_eq,
    ⟨(deliver_keeps hu h.inv).1, hku, (deliver_decoded hu l).responsive h.responsive,
      answered.params_eq ▸ h.drainable.answered ak⟩, ak.turns_eq⟩

/-- With no dispatch waiting, a DEC_STEP on a channel with data answers (R140). -/
theorem State.Drains.decStepOn_answers (h : s.Drains l k) (hr : s.raised = none) (hd : k.inCh.rd ≠ k.inCh.wr) :
    ∃ t, decStepOn l s = .next t := by
  obtain ⟨b, hb⟩ := h.wf.inbound.oldest hd
  rw [decStepOn_of_quiet ⟨hr, h.link, hd, hb⟩]
  dsimp only
  split
  · rename_i hdispatch
    obtain ⟨hcase, -, hreact⟩ := react_dispatch hdispatch
    obtain ⟨bs, hbs⟩ := h.drainable.payload_written h.wf hd (Dec.subCase_eq_iff.1 hcase)
    rw [hreact]
    exact ⟨_, raiseDispatch_eq_next.2 ⟨bs, hbs, rfl⟩⟩
  · exact ⟨_, rfl⟩

/-- That DEC_STEP takes a turn, and the run's needs are met again. -/
theorem State.Drains.after_decStep (h : s.Drains l k) (hr : s.raised = none) (hd : k.inCh.rd ≠ k.inCh.wr) :
    ∃ t kt, decStepOn l s = .next t ∧ t.Drains l kt ∧ kt.turns < k.turns := by
  obtain ⟨t, ht⟩ := h.decStepOn_answers hr hd
  have decoded := decStepOn_decoded ht
  obtain ⟨k1, b, u, hk1, -, -, hu, -, hlinks, -⟩ := decStepOn_spec ht
  obtain rfl : k = k1 := by simpa [h.link] using hk1
  obtain rfl : s = u := by simpa [deliver_of_none hr] using hu
  refine ⟨t, _, ht, ⟨(decStepOn_keeps ht h.inv).1, by simp [hlinks, h.link], decoded.responsive h.responsive, ?_⟩,
    Link.turns_reacted h.wf.inbound hd s.params l k.inCh.cap k.inCh.rd b⟩
  rw [decoded.params_eq]
  exact h.drainable.reacted h.wf hd l b

/-- A DEC_RUN with turns enough goes on until its channel is empty and no dispatch stands (R151). -/
theorem State.Drains.decRunLoop_empties {fuel : Nat} (h : s.Drains l k) (hfuel : k.turns < fuel) :
    ∃ t k', decRunLoop fuel l s = .next t ∧ t.links[l]? = some k' ∧ k'.inCh.rd = k'.inCh.wr ∧ t.raised = none := by
  induction fuel generalizing s k with
  | zero => exact absurd hfuel (Nat.not_lt_zero _)
  | succ fuel ih =>
    obtain ⟨u, ku, hu, hraised, hdrains, hturns⟩ := h.after_deliver
    by_cases hd : ku.inCh.rd = ku.inCh.wr
    · refine ⟨u.setChan ⟨l, .inbound⟩ ku.inCh.look, { ku with inCh := ku.inCh.look }, ?_,
        by simp [State.setChan_getElem?, hdrains.link], hd, hraised⟩
      simp [decRunLoop, hu, withLink_of_some hdrains.link, Chan.hasData, hd]
    · obtain ⟨v, kv, hv, hdrains', hless⟩ := hdrains.after_decStep hraised hd
      obtain ⟨t, k', ht, hlast⟩ := ih hdrains' (by omega)
      refine ⟨t, k', ?_, hlast⟩
      simp [decRunLoop, hu, withLink_of_some hdrains.link, Chan.hasData, hd, hv, ht]

end Run

/-- Settles O31: two turns for each unread byte and one more are enough, and every turn leaves what decoding leaves. -/
theorem decRunDrainsTheChannel : Obligations.DecRunDrainsTheChannel := by
  intro s l k hinv hk hresp hdrain
  have hdrains : s.Drains l k := ⟨hinv, hk, hresp, hdrain⟩
  obtain ⟨t, k', ht, hk', hempty, hraised⟩ := hdrains.decRunLoop_empties (Nat.lt_succ_of_le k.turns_le)
  have hrun : decRunAlone l s = .next t := by rw [decRunAlone, withLink_of_some hk, ht]
  have decoded := decRunAlone_decoded hrun
  have kept := decoded.of_link hk hk'
  exact ⟨t, k', hrun, hk', hempty.trans kept.wr_eq, kept.wr_eq, hraised, decoded.onlyAnswers,
    fun j hj => decoded.others hj, fun hs => ⟨(kept.quiet hs).1, decoded.of_silent hs⟩⟩

end Sys2Proof.Machine
end

section
/-! PROOF. The checksum of a frame and ENCODE as a whole (R181, R182, R187). -/
namespace Sys2Proof.Machine

/-- A byte string closed by its own XOR has XOR 0. -/
theorem xorBytes_append_xorBytes (bs : List Byte) : xorBytes (bs ++ [xorBytes bs]) = 0 := by
  simp [xorBytes_append, xorBytes]

/-- Settles O40: the body's XOR splits along the magic, the length and token bytes, and the payload. -/
theorem checksumIsSeedForm : Obligations.ChecksumIsSeedForm := by
  intro p payload
  have hsum : xorBytes (frameBody p payload) =
      seedConstant p ^^^ BitVec.ofNat 8 payload.length ^^^ xorBytes payload := by
    rw [frameBody, xorBytes_append, xorBytes_append]
    simp [xorBytes, seedConstant, BitVec.xor_assoc, BitVec.xor_comm p.token]
  rw [frameBytes, hsum]

/-- Settles O41: the check of the length comes before the first PUSH. -/
theorem longPayloadFaults : Obligations.LongPayloadFaults := by
  intro s enc p k hk hlong
  show encodeFrame enc p s = _
  rw [encodeFrame, withLink_of_some hk, if_pos hlong]

/-- Settles O39: ENCODE is the PUSHes of `frame(p)`, which ends with the XOR of its other bytes. -/
theorem encodePushesTheFrame : Obligations.EncodePushesTheFrame := by
  intro s enc p c hc hlen _
  obtain ⟨t, ht, htc, only⟩ := encodeFrame_spec hc hlen
  refine ⟨t, frameBytes s.params p, ht, htc, only, rfl, frameBytes_length s.params p,
    xorBytes_append_xorBytes (frameBody s.params p), fun hw a ha => ?slots⟩
  case slots =>
    simp only [State.slot?, htc, hc, Option.bind_some]
    exact Chan.pushBytes_slot_other c _ a hw (by rwa [frameBytes_length])

end Sys2Proof.Machine
end

section
/-! SUPPORT. What the polling agent has still to do (`State.tasks`) plays no part in what an event does (R60): with
other tasks standing, each operation answers the same, those tasks standing. -/
namespace Sys2Proof.Machine

/-- A state with other tasks standing. -/
def State.doing (s : State) (ts : List Task) : State := { s with tasks := ts }

/-- An outcome with other tasks standing in the state it answers. -/
def Result.doing (r : Result) (ts : List Task) : Result := andThen r fun t => .next (t.doing ts)

section Fields
variable (s : State) (ts : List Task)

@[simp] theorem State.doing_params : (s.doing ts).params = s.params := rfl
@[simp] theorem State.doing_links : (s.doing ts).links = s.links := rfl
@[simp] theorem State.doing_raised : (s.doing ts).raised = s.raised := rfl
@[simp] theorem State.doing_responder : (s.doing ts).responder = s.responder := rfl
@[simp] theorem State.doing_tasks : (s.doing ts).tasks = ts := rfl
@[simp] theorem State.doing_input : (s.doing ts).input = s.input := rfl
@[simp] theorem State.doing_doing (us : List Task) : (s.doing ts).doing us = s.doing us := rfl

theorem State.doing_self {s : State} {ts : List Task} (h : s.tasks = ts) : s.doing ts = s := h ▸ rfl

theorem State.noteOpt_doing (o : Option Label) : (s.doing ts).noteOpt o = (s.noteOpt o).doing ts := by cases o <;> rfl

end Fields

section Combinators
variable {s : State} {ts : List Task} {r r' : Result} {f g : State → Result}

/-- A sequence answers so if both its parts do. -/
theorem andThen_doing (hr : r' = r.doing ts) (hg : ∀ t, g (t.doing ts) = (f t).doing ts) :
    andThen r' g = (andThen r f).doing ts := by
  subst hr
  cases r with
  | next t => exact hg t
  | fault x => rfl
  | refused x => rfl

theorem withLink_doing {l : Nat} {f g : Link → Result} (hg : ∀ k, g k = (f k).doing ts) :
    withLink l (s.doing ts) g = (withLink l s f).doing ts := by
  unfold withLink
  rw [State.doing_links]
  cases s.links[l]? with
  | none => rfl
  | some k => exact hg k

theorem withOldest_doing {ch : ChanId} {c : Chan} {f g : Byte → Result} (hg : ∀ b, g b = (f b).doing ts) :
    withOldest ch c g = (withOldest ch c f).doing ts := by
  unfold withOldest
  split
  · cases c.slot? c.rd with
    | none => rfl
    | some b => exact hg b
  · rfl

theorem withView_doing {ch : ChanId} {c : Chan} {off n : Nat} {f g : List Byte → Result}
    (hg : ∀ bs, g bs = (f bs).doing ts) : withView ch c off n g = (withView ch c off n f).doing ts := by
  unfold withView
  split
  · rfl
  · split
    · rfl
    · cases c.readRun off n with
      | error a => rfl
      | ok bs => exact hg bs

end Combinators

section Operations
variable (s : State) (ts : List Task)

theorem pushEvent_doing (ch : ChanId) (b : Byte) : pushEvent ch b (s.doing ts) = (pushEvent ch b s).doing ts :=
  withLink_doing fun _ => congrArg Host.Outcome.next (State.noteOpt_doing (s.setChan ch _) ts _)

theorem pushRun_doing (enc : Nat) (rest : List Byte) (cks : Byte) :
    pushRun enc rest cks (s.doing ts) = (pushRun enc rest cks s).doing ts := by
  induction rest generalizing s cks with
  | nil => exact andThen_doing (pushEvent_doing s ts _ _) fun _ => rfl
  | cons b bs ih => exact andThen_doing (pushEvent_doing s ts _ _) fun t => ih t _

theorem encodeFrame_doing (enc : Nat) (p : List Byte) :
    encodeFrame enc p (s.doing ts) = (encodeFrame enc p s).doing ts := by
  refine withLink_doing fun _ => ?_
  rw [State.doing_params]
  split
  · rfl
  · exact pushRun_doing s ts _ _ _

theorem copyRecord_doing (l off : Nat) : copyRecord l off (s.doing ts) = (copyRecord l off s).doing ts :=
  withLink_doing fun _ => withView_doing fun _ => rfl

theorem runReply_doing (r : Reply) : runReply r (s.doing ts) = (runReply r s).doing ts := by
  cases r with
  | encode enc p => exact encodeFrame_doing s ts enc p
  | copyRecord l off => exact copyRecord_doing s ts l off

theorem runReplies_doing (rs : List Reply) : runReplies rs (s.doing ts) = (runReplies rs s).doing ts := by
  induction rs generalizing s with
  | nil => rfl
  | cons r rs ih => exact andThen_doing (runReply_doing s ts r) ih

theorem deliver_doing : deliver (s.doing ts) = (deliver s).doing ts := by
  unfold deliver
  rw [State.doing_raised]
  cases s.raised with
  | none => rfl
  | some d => exact runReplies_doing { s with raised := none } ts _

theorem settle_doing (l : Nat) (r : Reaction) : settle l r (s.doing ts) = (settle l r s).doing ts :=
  State.noteOpt_doing (s.modLink l _) ts _

theorem raiseDispatch_doing (l : Nat) (c : Chan) (d : Dec) :
    raiseDispatch l c d (s.doing ts) = (raiseDispatch l c d s).doing ts := by
  unfold raiseDispatch
  cases c.readRun d.startOff d.len.toNat <;> rfl

theorem decStepOn_doing (l : Nat) : decStepOn l (s.doing ts) = (decStepOn l s).doing ts := by
  refine withLink_doing fun _ => withLink_doing fun k => withOldest_doing fun b =>
    andThen_doing (deliver_doing s ts) fun t => ?_
  simp only [settle_doing, State.doing_params]
  split
  · exact raiseDispatch_doing _ ts l _ _
  · rfl

theorem decRunLoop_doing (fuel l : Nat) : decRunLoop fuel l (s.doing ts) = (decRunLoop fuel l s).doing ts := by
  induction fuel generalizing s with
  | zero => rfl
  | succ fuel ih =>
    refine andThen_doing (deliver_doing s ts) fun t => withLink_doing fun k => ?_
    split
    · exact andThen_doing (decStepOn_doing t ts l) ih
    · rfl

theorem decRunAlone_doing (l : Nat) : decRunAlone l (s.doing ts) = (decRunAlone l s).doing ts :=
  withLink_doing fun _ => decRunLoop_doing s ts _ l

end Operations

end Sys2Proof.Machine
end

section
/-! SUPPORT and PROOF. An operation run event by event, with nothing between, answers what it answers as a whole (R60,
R151, R180, R184, R203, R209; log 8): each task comes to what its part of the operation does. -/
namespace Sys2Proof.Machine

section Runs
variable {s t : State} {r r' : Result} {f : State → Result}

/-- `n` steps of the machine from `s`. -/
def State.after (n : Nat) (s : State) : Result := Host.Core.run core n s

/-- On any machine, more steps than none are a step and the rest from the state it answers. -/
theorem run_succ (M : Host.Core) (n : Nat) (s : M.State) :
    M.run (n + 1) s = Host.Outcome.rec (motive := fun _ => Host.Outcome M.State M.Fault M.Refusal)
      (M.run n) .fault .refused (M.step s) := by
  rw [Host.Core.run]
  cases M.step s <;> rfl

theorem State.after_succ (n : Nat) (s : State) : s.after (n + 1) = andThen (step s) (State.after n) := by
  refine (run_succ core n s).trans ?_
  show Host.Outcome.rec (motive := fun _ => Result) (State.after n) .fault .refused (step s) = _
  cases step s <;> rfl

theorem andThen_assoc (r : Result) (f g : State → Result) :
    andThen (andThen r f) g = andThen r fun t => andThen (f t) g := by cases r <;> rfl

theorem andThen_congr_next {g : State → Result} (h : ∀ t, r = .next t → f t = g t) : andThen r f = andThen r g := by
  cases r with
  | next t => exact h t rfl
  | fault x => rfl
  | refused x => rfl

@[simp] theorem andThen_after_zero (r : Result) : andThen r (State.after 0) = r := by cases r <;> rfl

theorem andThen_after_add (r : Result) (m n : Nat) :
    andThen (andThen r (State.after m)) (State.after n) = andThen r (State.after (m + n)) := by
  induction m generalizing r with
  | zero => rw [andThen_after_zero, Nat.zero_add]
  | succ m ih =>
    rw [andThen_assoc, Nat.succ_add]
    refine andThen_congr_next fun t _ => ?_
    rw [State.after_succ, State.after_succ, ih]

/-- Some number of steps more make `r'` of the outcome `r`. -/
def Result.RunsTo (r r' : Result) : Prop := ∃ n, andThen r (State.after n) = r'

theorem Result.RunsTo.refl (r : Result) : r.RunsTo r := ⟨0, andThen_after_zero r⟩

theorem Result.RunsTo.trans {r'' : Result} (h1 : r.RunsTo r') (h2 : r'.RunsTo r'') : r.RunsTo r'' := by
  obtain ⟨m, rfl⟩ := h1
  obtain ⟨n, rfl⟩ := h2
  exact ⟨m + n, (andThen_after_add r m n).symm⟩

/-- The next step of a state that is reached. -/
theorem Result.RunsTo.of_step (h : Result.RunsTo (step s) r) : Result.RunsTo (.next s) r := by
  obtain ⟨n, rfl⟩ := h
  exact ⟨n + 1, State.after_succ n s⟩

/-- A part that is done leaves the rest to run from each state it answers. -/
theorem Result.RunsTo.andThen_congr {g : State → Result} (h : ∀ t, r = .next t → (f t).RunsTo (g t)) :
    (andThen r f).RunsTo (andThen r g) := by
  cases r with
  | next t => exact h t rfl
  | fault x => exact .refl _
  | refused x => exact .refl _

theorem Result.RunsTo.withLink_congr {l : Nat} {f g : Link → Result}
    (h : ∀ k, s.links[l]? = some k → (f k).RunsTo (g k)) : (withLink l s f).RunsTo (withLink l s g) := by
  unfold withLink
  cases hk : s.links[l]? with
  | none => exact .refl _
  | some k => exact h k hk

/-- What follows the resolving of a link may be an operation that resolves it itself. -/
theorem Result.RunsTo.of_withLink {l : Nat} {f g : Link → Result}
    (h : ∀ k, s.links[l]? = some k → (f k).RunsTo (withLink l s g)) : (withLink l s f).RunsTo (withLink l s g) := by
  cases hk : s.links[l]? with
  | none =>
    rw [withLink_of_none hk, withLink_of_none hk]
    exact .refl _
  | some k =>
    rw [withLink_of_some hk f]
    exact h k hk

/-- With an empty schedule a step is the next event of the operation that the polling agent is inside. -/
theorem step_of_task (hin : s.input = []) (x : Task) : step (s.doing (x :: s.tasks)) = runTask x s :=
  step_of_busy (s := s.doing (x :: s.tasks)) (code := []) (rest := []) rfl (.inr (.inr hin))

end Runs

section Encoding
variable {s : State}

/-- An ENCODE under way takes a step for each byte it has still to push and one for the checksum (R180, R184). -/
theorem after_pushing {enc : Nat} (rest : List Byte) (cks : Byte) (hin : s.input = []) :
    (s.doing (.pushing enc rest cks :: s.tasks)).after (rest.length + 1) = pushRun enc rest cks s := by
  induction rest generalizing s cks with
  | nil => rw [State.after_succ, step_of_task hin]; exact andThen_after_zero _
  | cons b bs ih =>
    rw [State.after_succ, step_of_task hin]
    refine (andThen_assoc _ _ _).trans (andThen_congr_next fun t ht => ?_)
    have answered := pushEvent_answered ht
    exact ih (cks ^^^ b) (answered.input_eq.trans hin)

/-- An ENCODE that answers takes `7 + N` steps, one for each byte of its frame (R184, R187). -/
theorem after_encode {enc : Nat} {p : List Byte} {k : Link} (hin : s.input = []) (hk : s.links[enc]? = some k)
    (hlen : p.length ≤ s.params.encMax) :
    (s.doing (.reply (.encode enc p) :: s.tasks)).after (7 + p.length) = encodeFrame enc p s := by
  have hpush : runTask (.reply (.encode enc p)) s = runTask (.pushing enc (frameBody s.params p) 0) s := by
    simp [runTask, encodeNext, withLink_of_some hk, Nat.not_lt.2 hlen]
  have hcount : 7 + p.length = (frameBody s.params p).length + 1 := by
    simp [frameBody, Magic.bytes]; omega
  rw [hcount, State.after_succ, step_of_task hin, hpush, ← step_of_task hin, ← State.after_succ, after_pushing _ _ hin,
    encodeFrame, withLink_of_some hk, if_neg (Nat.not_lt.2 hlen)]

end Encoding

section Answers
variable {s : State}

/-- A reply that comes next is run (R208, R212). -/
theorem reply_runsTo (hin : s.input = []) (x : Reply) :
    Result.RunsTo (.next (s.doing (.reply x :: s.tasks))) (runReply x s) := by
  cases x with
  | copyRecord l off =>
    refine .of_step ?_
    rw [step_of_task hin]
    exact .refl _
  | encode enc p =>
    by_cases hanswers : (∃ k, s.links[enc]? = some k) ∧ p.length ≤ s.params.encMax
    · obtain ⟨⟨k, hk⟩, hlen⟩ := hanswers
      exact ⟨7 + p.length, after_encode hin hk hlen⟩
    · refine .of_step ?_
      rw [step_of_task hin]
      refine Result.RunsTo.withLink_congr fun k hk => ?_
      have hlong : s.params.encMax < p.length := Nat.not_le.1 fun hlen => hanswers ⟨⟨k, hk⟩, hlen⟩
      rw [if_pos hlong, if_pos hlong]
      exact .refl _

/-- Once the first task has come to `r`, the tasks `ts` after it run on from the state it answers. -/
theorem Result.RunsTo.then_tasks {r : Result} {ts : List Task} {f : State → Result}
    (h : Result.RunsTo (.next s) (r.doing ts)) (hf : ∀ t, r = .next t → Result.RunsTo (.next (t.doing ts)) (f t)) :
    Result.RunsTo (.next s) (andThen r f) := by
  refine h.trans ?_
  cases r with
  | next t => exact hf t rfl
  | fault x => exact .refl _
  | refused x => exact .refl _

/-- Replies that come next are run in order. -/
theorem replies_runsTo (hin : s.input = []) (rs : List Reply) :
    Result.RunsTo (.next (s.doing (rs.map .reply ++ s.tasks))) (runReplies rs s) := by
  induction rs generalizing s with
  | nil => exact .refl _
  | cons x rs ih =>
    have first := reply_runsTo (s := s.doing (rs.map .reply ++ s.tasks)) hin x
    rw [runReply_doing] at first
    refine first.then_tasks fun t ht => ?_
    have answered := runReply_answered ht
    rw [← answered.tasks_eq]
    exact ih (answered.input_eq.trans hin)

/-- The replies to the dispatch that stands, if any, are run as its answer (R209). -/
theorem deliverNext_runsTo (hin : s.input = []) : (deliverNext s).RunsTo (deliver s) := by
  unfold deliverNext deliver
  cases s.raised with
  | none => exact .refl _
  | some d => exact replies_runsTo (s := { s with raised := none }) hin _

end Answers

section Decoding
variable {s : State} {l : Nat}

theorem decRunNext_of_waiting {d : Dispatch} (h : s.raised = some d) :
    decRunNext l s = deliverNext (s.doing (.decRun l :: s.tasks)) := by
  unfold decRunNext
  split
  · rfl
  · simp_all

theorem decRunNext_of_quiet {k : Link} (h : s.raised = none) (hk : s.links[l]? = some k) :
    decRunNext l s =
      if k.inCh.hasData then andThen (decStepOn l s) fun t => .next (t.doing (.decRun l :: t.tasks))
      else .next (s.setChan ⟨l, .inbound⟩ k.inCh.look) := by
  unfold decRunNext
  split
  · simp_all
  · exact withLink_of_some hk _

/-- A DEC_RUN under way comes to the state in which no dispatch waits. -/
theorem decRun_delivers (hin : s.input = []) :
    Result.RunsTo (.next (s.doing (.decRun l :: s.tasks))) ((deliver s).doing (.decRun l :: s.tasks)) := by
  cases hr : s.raised with
  | none =>
    rw [deliver_of_none hr]
    exact .refl _
  | some d =>
    refine .of_step ?_
    rw [step_of_task hin, ← deliver_doing]
    rw [runTask, decRunNext_of_waiting hr]
    exact deliverNext_runsTo hin

/-- A DEC_RUN under way comes to what its loop does, if the loop has turns enough to empty the channel (R151). -/
theorem decRun_runsTo_decRunLoop {fuel : Nat} {k : Link} (hinv : s.Inv) (hin : s.input = [])
    (hk : s.links[l]? = some k) (hfuel : k.turns < fuel) :
    Result.RunsTo (.next (s.doing (.decRun l :: s.tasks))) (decRunLoop fuel l s) := by
  induction fuel generalizing s k with
  | zero => exact absurd hfuel (Nat.not_lt_zero _)
  | succ fuel ih =>
    refine (decRun_delivers hin).then_tasks fun t ht => .of_step ?_
    have answered := deliver_answered ht
    obtain ⟨kt, hkt, akt⟩ := answered.link l k hk
    have hinvt : t.Inv := (deliver_keeps ht hinv).1
    have hint : t.input = [] := answered.input_eq.trans hin
    have hquiet : t.raised = none := answered.raised_eq
    rw [← answered.tasks_eq, step_of_task hint, runTask, decRunNext_of_quiet hquiet hkt, withLink_of_some hkt]
    split
    · refine .andThen_congr fun u hu => ?_
      obtain ⟨k2, b, v, hk2, hd, -, hv, -, hlinks, -, -, -, -, -, hinput, -⟩ := decStepOn_spec hu
      obtain rfl : kt = k2 := by simpa [hkt] using hk2
      obtain rfl : t = v := by simpa [deliver_of_none hquiet] using hv
      have hless := Link.turns_reacted (hinvt.links_wf l kt hkt).inbound hd t.params l kt.inCh.cap kt.inCh.rd b
      have hsame := akt.turns_eq
      refine ih (decStepOn_keeps hu hinvt).1 (hinput.trans hint) ?_ (Nat.lt_of_lt_of_le hless (by omega))
      simp [hlinks, hkt]
    · exact .refl _

theorem decRun_runsTo {k : Link} (hinv : s.Inv) (hin : s.input = []) (hk : s.links[l]? = some k) :
    Result.RunsTo (.next (s.doing (.decRun l :: s.tasks))) (decRunAlone l s) := by
  rw [decRunAlone, withLink_of_some hk]
  exact decRun_runsTo_decRunLoop hinv hin hk (Nat.lt_succ_of_le k.turns_le)

/-- The DEC_RUNs of a TICK under way are run in order (R203). -/
theorem decRuns_runsTo {ls : List Nat} (hinv : s.Inv) (hin : s.input = []) (hls : ∀ l ∈ ls, l < s.links.length) :
    Result.RunsTo (.next (s.doing (ls.map .decRun ++ s.tasks))) (decRunEach ls s) := by
  induction ls generalizing s with
  | nil => exact .refl _
  | cons l ls ih =>
    obtain ⟨hl, hls⟩ := List.forall_mem_cons.1 hls
    have first := decRun_runsTo (s := s.doing (ls.map .decRun ++ s.tasks)) (s.keeps_tasks _ hinv).1 hin
      (List.getElem?_eq_getElem hl)
    rw [decRunAlone_doing] at first
    refine first.then_tasks fun t ht => ?_
    have decoded := decRunAlone_decoded ht
    rw [← decoded.tasks_eq]
    exact ih (decRunAlone_keeps ht hinv).1 (decoded.input_eq.trans hin) (by rwa [decoded.length_eq])

end Decoding

section Operations
variable {s : State}

/-- A command's replies, queued, are run as its answer (R210). -/
theorem withCommand_queueReplies_runsTo (hin : s.input = []) (c : Command) :
    (withCommand c s queueReplies).RunsTo (withCommand c s runReplies) := by
  unfold withCommand
  split
  · exact .refl _
  · split
    · exact .refl _
    · split
      · exact replies_runsTo (s := { s with raised := none }) hin _
      · exact .refl _

/-- A DISPATCH that is to be answered next is answered (R209). -/
theorem withRaised_deliver_runsTo (hin : s.input = []) (dec off : Nat) (n : Byte) :
    (withRaised dec off n s (.next (s.doing (.deliver :: s.tasks)))).RunsTo (withRaised dec off n s (deliver s)) := by
  refine Result.RunsTo.withLink_congr fun k _ => ?_
  split
  · exact .refl _
  · split
    · refine .of_step ?_
      rw [step_of_task hin]
      exact deliverNext_runsTo hin
    · exact .refl _

/-- An operation begun comes to what the operation does as a whole; every other instruction is done at once (log 8). -/
theorem beginOperation_runsTo_exec (hinv : s.Inv) (hin : s.input = []) (i : Instr) :
    (beginOperation i s).RunsTo (exec i s) := by
  cases i with
  | encode enc p => exact Result.RunsTo.of_withLink fun _ _ => reply_runsTo hin (.encode enc p)
  | decRun l => exact Result.RunsTo.of_withLink fun _ hk => decRun_runsTo hinv hin hk
  | tick => exact decRuns_runsTo hinv hin fun _ => List.mem_range.1
  | dispatch dec off n => exact withRaised_deliver_runsTo hin dec off n
  | cmdGetAlive => exact withCommand_queueReplies_runsTo hin .getAlive
  | cmdAcknowledge => exact withCommand_queueReplies_runsTo hin .acknowledge
  | cmdStartConfig => exact withCommand_queueReplies_runsTo hin .startConfig
  | cmdUnknown raw => exact withCommand_queueReplies_runsTo hin (.unknown raw)
  | _ => exact .refl _

end Operations

/-- Settles O43: an ENCODE's steps are counted byte by byte, and every operation begun runs to what it does as a
whole. -/
theorem stepwiseEncodeIsEncode : Obligations.StepwiseEncodeIsEncode := by
  refine ⟨fun s enc p k hin htasks hk hlen => ?encode, fun s code i hinv hboot htasks hin hcode hwf hperf => ?operation⟩
  case encode =>
    have steps := after_encode (s := s.doing []) hin hk hlen
    rw [State.doing_tasks, State.doing_doing, State.doing_self htasks] at steps
    exact steps
  case operation =>
    have start : step s = beginOperation i { s with input := [] } :=
      step_of_begin hin (pollBusy_eq_false.2 fun _ => htasks) hcode (admission_eq_none.2 ⟨hwf, .inl hboot, hperf⟩)
    have runs : Result.RunsTo (.next s) (exec i { s with input := [] }) := .of_step <| by
      rw [start]
      exact beginOperation_runsTo_exec (s.keeps_input [] hinv).1 rfl i
    exact runs

end Sys2Proof.Machine
end

section
/-! SUPPORT. The bytes of a frame as the decoder takes them, from AWAIT_MAGIC_1 to the checksum byte (R141 to R148,
R186): the decoder's own registers only, no channel. -/
namespace Sys2Proof.Machine

/-- Decoder `d`, with the read cursor at `rd`, takes the bytes one after the other and becomes `d'`: each reaction
consumes its byte, and notes and raises nothing. -/
inductive Dec.Takes (p : Params) (l cap : Nat) : Nat → Dec → List Byte → Dec → Prop
  | nil (rd : Nat) (d : Dec) : Dec.Takes p l cap rd d [] d
  | cons {rd : Nat} {d d1 d2 : Dec} {b : Byte} {bs : List Byte}
      (first : react d.subCase p l cap rd d b = ⟨d1, true, none, false⟩)
      (rest : Dec.Takes p l cap (nextSlot cap rd) d1 bs d2) : Dec.Takes p l cap rd d (b :: bs) d2

/-- The decoder has taken everything of a frame before its checksum `sum`: the length byte is `len`, and the payload
begins at slot `off` (R88, R149). -/
structure Dec.AwaitsChecksum (d : Dec) (len : Byte) (off : Nat) (sum : Byte) : Prop where
  selects : d.Selects .checksum
  len_eq : d.len = len
  startOff_eq : d.startOff = off
  acc_eq : d.acc = sum

section Frame
variable {p : Params} {l cap : Nat}

theorem Dec.Takes.cons_selected {rd : Nat} {d d1 d2 : Dec} {b : Byte} {bs : List Byte} {w : SubCase} (hw : d.Selects w)
    (first : react w p l cap rd d b = ⟨d1, true, none, false⟩)
    (rest : Dec.Takes p l cap (nextSlot cap rd) d1 bs d2) : Dec.Takes p l cap rd d (b :: bs) d2 :=
  .cons (Dec.subCase_eq_iff.2 hw ▸ first) rest

/-- As many payload bytes as remain are taken, each XORed in (R148). -/
theorem Dec.takes_payload (payload : List Byte) (rd : Nat) {d : Dec} (hst : d.st = .readPayload)
    (hrem : d.remaining.toNat = payload.length) :
    ∃ d', d.Takes p l cap rd payload d' ∧ d'.AwaitsChecksum d.len d.startOff (d.acc ^^^ xorBytes payload) := by
  induction payload generalizing rd d with
  | nil => exact ⟨d, .nil rd d, ⟨hst, BitVec.eq_of_toNat_eq hrem⟩, rfl, rfl, by simp [xorBytes]⟩
  | cons b bs ih =>
    rw [List.length_cons] at hrem
    have hne : d.remaining ≠ 0 := fun h0 => by simp [h0] at hrem
    have hless : (reactPayload d b).dec.remaining.toNat = bs.length := by
      show (d.remaining - 1).toNat = bs.length
      bv_omega
    obtain ⟨d', takes, awaits⟩ := ih (nextSlot cap rd) (d := (reactPayload d b).dec) hst hless
    refine ⟨d', .cons_selected (w := .payload) ⟨hst, hne⟩ rfl takes, ?_⟩
    rw [xorBytes, ← BitVec.xor_assoc]
    exact awaits

/-- The decoder after the six header bytes of a frame whose length byte `len` stood in `slot` (R145, R146). -/
def Dec.afterHeader (p : Params) (cap slot : Nat) (len : Byte) (d : Dec) : Dec :=
  { d with
    st := .readPayload
    len := len
    remaining := len
    acc := p.magic.b0 ^^^ p.magic.b1 ^^^ p.magic.b2 ^^^ p.magic.b3 ^^^ len ^^^ p.token
    startOff := (slot + 2) % cap
    lenSlot := slot
    taken := [] }

/-- From AWAIT_MAGIC_1 the header is taken, and then what is taken after it (R141 to R146). -/
theorem Dec.Takes.of_afterHeader {rd slot : Nat} {len : Byte} {bs : List Byte} {d d' : Dec} (hst : d.st = .awaitMagic1)
    (hslot : slot = nextSlot cap (nextSlot cap (nextSlot cap (nextSlot cap rd))))
    (rest : Dec.Takes p l cap (nextSlot cap (nextSlot cap slot)) (d.afterHeader p cap slot len) bs d') :
    Dec.Takes p l cap rd d (p.magic.bytes ++ [len, p.token] ++ bs) d' := by
  subst hslot
  exact .cons_selected (w := .awaitMagic1) hst (if_pos rfl) <|
    .cons_selected (w := .awaitMagic2) rfl (if_pos rfl) <|
    .cons_selected (w := .awaitMagic3) rfl (if_pos rfl) <|
    .cons_selected (w := .awaitMagic4) rfl (if_pos rfl) <|
    .cons_selected (w := .readLength) rfl rfl <|
    .cons_selected (w := .readToken) rfl (if_pos rfl) rest

/-- From AWAIT_MAGIC_1 everything of a frame before its checksum is taken; the payload's first byte follows the six
header bytes (R88, R89, R186). -/
theorem Dec.takes_frameBody {payload : List Byte} (hlen : payload.length ≤ 255) (rd : Nat) {d : Dec}
    (hst : d.st = .awaitMagic1) :
    ∃ d', d.Takes p l cap rd (frameBody p payload) d' ∧
      d'.AwaitsChecksum (BitVec.ofNat 8 payload.length) ((rd + 6) % cap) (xorBytes (frameBody p payload)) := by
  obtain ⟨slot, hslot⟩ : ∃ slot, slot = nextSlot cap (nextSlot cap (nextSlot cap (nextSlot cap rd))) := ⟨_, rfl⟩
  have hcount : (BitVec.ofNat 8 payload.length).toNat = payload.length := by simp; omega
  obtain ⟨d', takes, awaits⟩ := Dec.takes_payload (p := p) (l := l) (cap := cap) payload
    (nextSlot cap (nextSlot cap slot)) (d := d.afterHeader p cap slot (BitVec.ofNat 8 payload.length)) rfl hcount
  have hoff : (slot + 2) % cap = (rd + 6) % cap := by simp [hslot, nextSlot, Nat.add_assoc]
  have hsum : xorBytes (frameBody p payload) =
      (d.afterHeader p cap slot (BitVec.ofNat 8 payload.length)).acc ^^^ xorBytes payload := by
    simp [frameBody, Magic.bytes, xorBytes, Dec.afterHeader, BitVec.xor_assoc]
  rw [hsum, ← hoff]
  exact ⟨d', .of_afterHeader hst hslot takes, awaits⟩

end Frame

end Sys2Proof.Machine
end

section
/-! SUPPORT and PROOF. A DEC_RUN over the bytes of one frame (R151, R186): the answer to a dispatch that stood, one turn
for each byte, the answer to the frame's own dispatch. -/
namespace Sys2Proof.Machine

section Turn
variable {s t : State} {l : Nat} {k : Link}

/-- What an answer adds to the trace; nothing where no dispatch stands or the collaborator answers nothing (R208). -/
theorem deliver_trace (h : deliver s = .next t) :
    ∃ xs, t.trace = xs ++ s.trace ∧ (∀ x ∈ xs, x.OfAnswer) ∧ (s.raised = none → xs = []) ∧ (s.Silent → xs = []) := by
  obtain ⟨xs, hxs, hof⟩ := (deliver_answered h).trace_ext
  refine ⟨xs, hxs, hof, fun hr => ?none, fun hs => ?silent⟩
  case none =>
    obtain rfl : s = t := by simpa [deliver_of_none hr] using h
    simpa using hxs
  case silent =>
    obtain rfl : ({ s with raised := none } : State) = t := by simpa [deliver_of_silent hs] using h
    simpa using hxs

/-- Answering a waiting dispatch is the beginning of a turn (R209). -/
theorem decRunLoop_of_deliver (h : deliver s = .next t) (fuel : Nat) :
    decRunLoop (fuel + 1) l s = decRunLoop (fuel + 1) l t := by
  have hquiet : t.raised = none := (deliver_answered h).raised_eq
  simp only [decRunLoop, h, deliver_of_none hquiet, andThen_next_left]

/-- A turn on a channel with data, no dispatch waiting, is its DEC_STEP (R151). -/
theorem decRunLoop_of_decStep (hk : s.links[l]? = some k) (hr : s.raised = none) (hd : k.inCh.rd ≠ k.inCh.wr)
    (h : decStepOn l s = .next t) (fuel : Nat) : decRunLoop (fuel + 1) l s = decRunLoop fuel l t := by
  simp [decRunLoop, deliver_of_none hr, withLink_of_some hk, Chan.hasData, hd, h]

/-- The visible contents are a matter of the slots and the cursors (R37). -/
theorem Link.Answered.contents_eq {k' : Link} (h : k.Answered k') : k'.inCh.contents = k.inCh.contents := by
  obtain ⟨-, hin | hin, -⟩ := h <;> rw [hin]
  rfl

end Turn

section Frame
variable {s : State} {l : Nat} {k : Link}

/-- A DEC_STEP that takes its byte, and notes and raises nothing. -/
theorem State.Drains.takes_byte {b : Byte} {rest : List Byte} {d : Dec} (h : s.Drains l k) (hr : s.raised = none)
    (hcont : k.inCh.contents = b :: rest)
    (hreact : react k.dec.subCase s.params l k.inCh.cap k.inCh.rd k.dec b = ⟨d, true, none, false⟩) :
    ∃ t, decStepOn l s = .next t ∧ t.Drains l { k with inCh := k.inCh.consume, dec := d } ∧ t.raised = none ∧
      t.trace = s.trace := by
  obtain ⟨hd, hb, -⟩ := h.wf.inbound.consume_contents hcont
  obtain ⟨t, kt, ht, drains, -⟩ := h.after_decStep hr hd
  obtain rfl : settle l ⟨d, true, none, false⟩ s = t := by
    simpa [decStepOn_of_quiet ⟨hr, h.link, hd, hb⟩, hreact] using ht
  obtain rfl : k.reacted ⟨d, true, none, false⟩ = kt := by
    rw [← Option.some.injEq, ← settle_self l ⟨d, true, none, false⟩ s h.link, drains.link]
  exact ⟨_, ht, drains, by simpa using hr, by simp⟩

/-- The turns in which the decoder takes bytes one after the other. -/
theorem State.Drains.decRunLoop_takes {bs rest : List Byte} {d : Dec} (h : s.Drains l k) (hr : s.raised = none)
    (hcont : k.inCh.contents = bs ++ rest) (takes : k.dec.Takes s.params l k.inCh.cap k.inCh.rd bs d) :
    ∃ t k', (∀ fuel, decRunLoop (fuel + bs.length) l s = decRunLoop fuel l t) ∧ s.Decoded l t ∧ t.Drains l k' ∧
      t.raised = none ∧ t.trace = s.trace ∧ k'.dec = d ∧ k'.inCh.contents = rest := by
  induction bs generalizing s k with
  | nil =>
    cases takes
    exact ⟨s, k, fun _ => rfl, .refl l s, h, hr, rfl, rfl, hcont⟩
  | cons b bs ih =>
    cases takes with
    | cons first next =>
      obtain ⟨hd, -, hcont'⟩ := h.wf.inbound.consume_contents hcont
      obtain ⟨u, hu, drains, hquiet, htrace⟩ := h.takes_byte hr hcont first
      have decoded := decStepOn_decoded hu
      rw [← decoded.params_eq] at next
      obtain ⟨t, k', hloop, decoded', after⟩ := ih drains hquiet hcont' next
      refine ⟨t, k', fun fuel => ?_, decoded.trans decoded', by rwa [htrace] at after⟩
      rw [List.length_cons, ← Nat.add_assoc, decRunLoop_of_decStep h.link hr hd hu, hloop]

/-- A DEC_STEP on a matching checksum byte raises the dispatch of the payload's slots and resyncs (R149, R150). -/
theorem State.Drains.dispatches {len sum : Byte} {off : Nat} {payload rest : List Byte} (h : s.Drains l k)
    (hr : s.raised = none) (hcont : k.inCh.contents = sum :: rest) (awaits : k.dec.AwaitsChecksum len off sum)
    (hlen : payload.length = len.toNat)
    (hslots : ∀ i, i < len.toNat → k.inCh.slot? ((off + i) % k.inCh.cap) = payload[i]?) :
    ∃ t k', decStepOn l s = .next t ∧ t.Drains l k' ∧ t.trace = .dispatched ⟨l, off, len, payload⟩ :: s.trace ∧
      k'.dec.st = .awaitMagic1 ∧ k'.inCh.contents = rest := by
  obtain ⟨⟨hst, hrem⟩, rfl, rfl, rfl⟩ := awaits
  obtain ⟨hd, hb, hrest⟩ := h.wf.inbound.consume_contents hcont
  obtain ⟨-, matching⟩ := checksumByteDispatchesOrDrops s l k _ ⟨hr, h.link, hd, hb⟩ hst hrem
  obtain ⟨t, ht, -, -, ⟨⟨k', hk', hdec, -, hin⟩, -⟩, htrace⟩ := matching payload rfl hlen hslots
  obtain ⟨t', kt, ht', drains, -⟩ := h.after_decStep hr hd
  obtain rfl : t = t' := Host.Outcome.next.inj (ht.symm.trans ht')
  obtain rfl : k' = kt := Option.some.inj (hk'.symm.trans drains.link)
  exact ⟨t, k', ht, drains, htrace, congrArg Dec.st hdec, (congrArg Chan.contents hin).trans hrest⟩

/-- The last turn of a DEC_RUN answers what waits and finds the channel empty (R151, R209). -/
theorem State.Drains.decRunLoop_ends (h : s.Drains l k) (hcont : k.inCh.contents = []) (fuel : Nat) :
    ∃ t k' xs, decRunLoop (fuel + 1) l s = .next t ∧ t.links[l]? = some k' ∧ k'.dec = k.dec ∧ t.trace = xs ++ s.trace ∧
      (∀ x ∈ xs, x.OfAnswer) ∧ (s.Silent → xs = []) := by
  obtain ⟨u, -, hu, -⟩ := h.after_deliver
  obtain ⟨ku, hku, answered⟩ := (deliver_answered hu).link l k h.link
  obtain ⟨xs, htrace, hof, -, hsilent⟩ := deliver_trace hu
  have hempty : ku.inCh.rd = ku.inCh.wr := by
    obtain ⟨-, hrd, hwr, -⟩ := answered.inbound_eq
    have hocc : k.inCh.occ = 0 := by rw [← h.wf.inbound.contents_spec.1, hcont]; rfl
    rw [hrd, hwr]
    exact Decidable.byContradiction fun hd => Nat.ne_of_gt (h.wf.inbound.occ_pos_iff.2 hd) hocc
  exact ⟨u.setChan ⟨l, .inbound⟩ ku.inCh.look, { ku with inCh := ku.inCh.look }, xs,
    by simp [decRunLoop, hu, withLink_of_some hku, Chan.hasData, hempty],
    by simp [State.setChan_getElem?, hku], answered.1, htrace, hof, hsilent⟩

/-- The payload of a frame that is the visible contents stands in the slots from the seventh on (R88). -/
theorem Chan.Wf.slots_of_payload {c0 : Nat} {c : Chan} {p : Params} {payload : List Byte} (hw : c.Wf c0)
    (hcont : c.contents = frameBytes p payload) {i : Nat} (hi : i < payload.length) :
    c.slot? (((c.rd + 6) % c.cap + i) % c.cap) = payload[i]? := by
  obtain ⟨hlen, hslots⟩ := hw.contents_spec
  rw [hcont, frameBytes_length] at hlen
  rw [Nat.mod_add_mod, Nat.add_assoc, hslots (6 + i) (by omega), hcont, frameBytes_eq_fields, Nat.add_comm 6 i]
  exact List.getElem?_append_left hi

/-- A DEC_RUN with turns enough, no dispatch waiting, on a channel that shows one frame (R186). -/
theorem State.Drains.decRunLoop_frame {payload : List Byte} (h : s.Drains l k) (hr : s.raised = none)
    (hst : k.dec.st = .awaitMagic1) (hlen : payload.length ≤ 255)
    (hcont : k.inCh.contents = frameBytes s.params payload) {fuel : Nat} (hfuel : payload.length + 8 ≤ fuel) :
    ∃ t k' xs, decRunLoop fuel l s = .next t ∧ t.links[l]? = some k' ∧ k'.dec.st = .awaitMagic1 ∧
      t.trace = xs ++ .dispatched ⟨l, (k.inCh.rd + 6) % k.inCh.cap, BitVec.ofNat 8 payload.length, payload⟩ :: s.trace ∧
      (∀ x ∈ xs, x.OfAnswer) ∧ (s.Silent → xs = []) := by
  have hcount : (BitVec.ofNat 8 payload.length).toNat = payload.length := by simp; omega
  have hbody : (frameBody s.params payload).length = payload.length + 6 := by simp [frameBody, Magic.bytes]
  obtain ⟨extra, rfl⟩ : ∃ extra, fuel = extra + 1 + 1 + (frameBody s.params payload).length :=
    ⟨fuel - (payload.length + 8), by omega⟩
  obtain ⟨d, takes, awaits⟩ := Dec.takes_frameBody (p := s.params) (l := l) (cap := k.inCh.cap) hlen k.inCh.rd hst
  obtain ⟨t1, k1, hloop1, decoded1, drains1, hquiet1, htrace1, rfl, hcont1⟩ := h.decRunLoop_takes hr hcont takes
  have kept := decoded1.of_link h.link drains1.link
  obtain ⟨t2, k2, hstep, drains2, htrace2, hst2, hcont2⟩ := drains1.dispatches (payload := payload) hquiet1 hcont1
    awaits hcount.symm fun i hi => by
      rw [Chan.slot?, kept.mem_eq, kept.cap_eq]
      exact h.wf.inbound.slots_of_payload hcont (hcount ▸ hi)
  obtain ⟨t3, k3, xs, hloop3, hk3, hdec3, htrace3, hof, hsilent⟩ := drains2.decRunLoop_ends hcont2 extra
  have decoded2 := decoded1.trans (decStepOn_decoded hstep)
  refine ⟨t3, k3, xs, ?loop, hk3, hdec3 ▸ hst2, by rw [htrace3, htrace2, htrace1], hof,
    fun hs => hsilent (State.silent_congr decoded2.params_eq decoded2.responder_eq ▸ hs)⟩
  case loop =>
    have hd1 : k1.inCh.rd ≠ k1.inCh.wr := (drains1.wf.inbound.consume_contents hcont1).1
    rw [hloop1, decRunLoop_of_decStep drains1.link hquiet1 hd1 hstep, hloop3]

end Frame

/-- Settles O32: a dispatch that stood is answered first and leaves the contents; then the frame is decoded, and
`2 * occ + 1` turns are enough. -/
theorem frameRoundTrip : Obligations.FrameRoundTrip := by
  intro s l k p hinv hk hresp hst hlen hcont
  have hdrain : k.Drainable s.params.c0 := .inr (.inr (.of_early (by simp [hst]) (by simp [hst])))
  have hdrains : s.Drains l k := ⟨hinv, hk, hresp, hdrain⟩
  obtain ⟨u, ku, hu, hquiet, drains, -⟩ := hdrains.after_deliver
  have before := deliver_answered hu
  obtain ⟨ku', hku', answered⟩ := before.link l k hk
  obtain rfl : ku' = ku := Option.some.inj (hku'.symm.trans drains.link)
  obtain ⟨ys, hys, hysof, hysnone, hyssilent⟩ := deliver_trace hu
  obtain ⟨hcap, hrd, -, -⟩ := answered.inbound_eq
  have hparams : u.params = s.params := before.params_eq
  have hocc : k.inCh.occ = 7 + p.length := by rw [← hdrains.wf.inbound.contents_spec.1, hcont, frameBytes_length]
  obtain ⟨t, k', xs, hloop, hk', hst', htrace, hxsof, hxssilent⟩ := drains.decRunLoop_frame (payload := p)
    (fuel := 2 * k.inCh.occ + 1) hquiet (answered.1 ▸ hst) hlen (by rw [answered.contents_eq, hparams, hcont])
    (by omega)
  have hrun : exec (.decRun l) s = .next t := by
    show decRunAlone l s = _
    rw [decRunAlone, withLink_of_some hk, decRunLoop_of_deliver hu, hloop]
  obtain ⟨t', kt, ht', hkt, hempty, hwr, -, only, -⟩ := decRunDrainsTheChannel s l k hinv hk hresp hdrain
  obtain rfl : t = t' := Host.Outcome.next.inj (hrun.symm.trans ht')
  obtain rfl : k' = kt := Option.some.inj (hk'.symm.trans hkt)
  rw [hys, hcap, hrd] at htrace
  exact ⟨t, k', xs, ys, hrun, hk', hst', hempty, hwr, only, htrace,
    fun x hx => (List.mem_append.1 hx).elim (hxsof x) (hysof x), hysnone,
    fun hs => ⟨hxssilent (State.silent_congr hparams before.responder_eq ▸ hs), hyssilent hs⟩⟩

end Sys2Proof.Machine
end

section
/-! SUPPORT. The collaborator asked once (R208, R209): what a dispatch's answer and a command's answer come to as replies,
what a reply that pushes one frame leaves, and what the copy of the configuration record leaves (R212). -/
namespace Sys2Proof.Machine

section Replies
variable {s t u : State} {l : Nat} {k : Link} {d : Dispatch}

@[simp] theorem andThen_next_right (r : Result) : andThen r .next = r := by cases r <;> rfl

theorem runReplies_singleton (x : Reply) (s : State) : runReplies [x] s = runReply x s := andThen_next_right _

/-- ENCODEs as the only replies are the ENCODE events in order. -/
theorem andThen_runReplies_encodes (reqs : List Request) (r : Result) :
    andThen r (runReplies (reqs.map fun q => .encode q.enc q.payload)) =
      reqs.foldl (fun r q => andThen r (exec (.encode q.enc q.payload))) r := by
  induction reqs generalizing r with
  | nil => exact andThen_next_right r
  | cons q reqs ih =>
    rw [List.foldl_cons, ← ih, andThen_assoc]
    rfl

/-- The DISPATCH event of the dispatch that stands runs the collaborator's replies to it (R150, R209). -/
theorem exec_dispatch_of_raised (hd : s.raised = some d) (hk : s.links[d.link]? = some k) :
    exec (.dispatch d.link d.off d.n) s = runReplies (answerOf s.params d s.responder) { s with raised := none } := by
  simp [exec, execDispatch, withRaised, withLink_of_some hk, deliver, hd]

/-- A command's event runs CommandProcessor's replies to the dispatch that stands (R210). -/
theorem commandEvent_of_raised {b : Byte} {rest : List Byte} {c : Command} (hd : s.raised = some d)
    (hp : d.payload = b :: rest) (hc : commandOf s.params b = c) :
    commandEvent c s = runReplies (commandReplies s.params d c) { s with raised := none } := by
  simp [commandEvent, withCommand, hd, hp, hc]

/-- An ENCODE as the only reply to the dispatch that stood, which is thereby answered (R187). -/
theorem runReplies_one_encode {payload : List Byte} (hk : s.links[l]? = some k) (hlen : payload.length ≤ s.params.encMax) :
    ∃ t, runReplies [.encode l payload] { s with raised := none } = .next t ∧
      t.chan? ⟨l, .outbound⟩ = some (k.outCh.pushBytes (frameBytes s.params payload)) ∧
      OnlyChannel ⟨l, .outbound⟩ { s with raised := none } t := by
  rw [runReplies_singleton]
  exact encodeFrame_spec (s := { s with raised := none }) (State.chan?_eq_some.2 ⟨k, hk, rfl⟩) hlen

/-- The copy of the configuration record, where the slots after the command byte have values (R119, R212). -/
theorem copyRecord_of_slots {off : Nat} {bs : List Byte} (hk : s.links[l]? = some k) (hcap : 0 < k.inCh.cap)
    (hsize : s.params.recordSize ≤ k.inCh.cap) (hlen : bs.length = s.params.recordSize)
    (hslots : ∀ i, i < s.params.recordSize → k.inCh.slot? ((off + 1 + i) % k.inCh.cap) = bs[i]?) :
    copyRecord l off s = .next { s.setChan ⟨l, .inbound⟩ k.inCh.look with record := bs } := by
  have hrun : k.inCh.readRun (nextSlot k.inCh.cap off) s.params.recordSize = .ok bs :=
    Chan.readRun_eq_ok.2 ⟨hlen, fun i hi => by rw [nextSlot, Nat.mod_add_mod, hslots i hi]⟩
  exact withChan_eq_next.2 ⟨k.inCh, State.chan?_eq_some.2 ⟨k, hk, rfl⟩,
    withView_eq_next.2 ⟨hsize, Nat.mod_lt _ hcap, bs, hrun, rfl⟩⟩

end Replies

section Links
variable {s t : State} {ch : ChanId} {c c' : Chan}

/-- A link is its decoder and its two channels. -/
theorem State.links_ext (hdec : ∀ l, t.dec? l = s.dec? l) (hchan : ∀ o, t.chan? o = s.chan? o) : t.links = s.links := by
  refine List.ext_getElem? fun l => ?_
  have hd := hdec l
  have hin := hchan ⟨l, .inbound⟩
  have hout := hchan ⟨l, .outbound⟩
  simp only [State.dec?, State.chan?, Link.chan_inbound, Link.chan_outbound] at hd hin hout
  cases hs : s.links[l]? with
  | none => simpa [hs] using hd
  | some k =>
    obtain ⟨k', hk', hdec'⟩ : ∃ k', t.links[l]? = some k' ∧ k'.dec = k.dec := by simpa [hs] using hd
    have hin' : k'.inCh = k.inCh := by simpa [hs, hk'] using hin
    have hout' : k'.outCh = k.outCh := by simpa [hs, hk'] using hout
    rw [hk', Option.some.injEq]
    cases k'
    cases k
    simp_all

/-- Where one channel alone has changed, the links are the old ones with that channel replaced. -/
theorem OnlyChannel.links_eq (only : OnlyChannel ch s t) (hc : s.chan? ch = some c) (hc' : t.chan? ch = some c') :
    t.links = (s.setChan ch c').links := by
  obtain ⟨-, -, hdec, hothers⟩ := only
  refine State.links_ext (fun l => by rw [hdec, State.setChan_dec?]) fun o => ?_
  by_cases ho : o = ch
  · rw [ho, hc', State.setChan_chan?_of_some hc]
  · rw [hothers o ho, State.setChan_chan?_ne _ _ _ ho]

end Links

end Sys2Proof.Machine
end

section
/-! PROOF. What a DISPATCH and the CMD rows answer (spec/43_link_and_collaborators.md R208 to R216), and the entry points
that push on the inbound channels (R201, R202). -/
namespace Sys2Proof.Machine

section Table
variable {d : Dispatch} {before after : List Answer}

/-- Rows of other dispatches are passed over. -/
theorem requestsFor_append (h : ∀ a ∈ before, (a.link, a.n, a.payload) ≠ (d.link, d.n, d.payload)) :
    requestsFor d (before ++ after) = requestsFor d after := by
  induction before with
  | nil => rfl
  | cons a before ih =>
    obtain ⟨ha, hbefore⟩ := List.forall_mem_cons.1 h
    have hother : ¬ (a.link = d.link ∧ a.n = d.n ∧ a.payload = d.payload) := by simpa using ha
    rw [List.cons_append, requestsFor, if_neg hother, ih hbefore]

theorem requestsFor_of_first_row {reqs : List Request}
    (h : ∀ a ∈ before, (a.link, a.n, a.payload) ≠ (d.link, d.n, d.payload)) :
    requestsFor d (before ++ ⟨d.link, d.n, d.payload, reqs⟩ :: after) = reqs := by
  rw [requestsFor_append h, requestsFor, if_pos ⟨rfl, rfl, rfl⟩]

theorem requestsFor_of_no_row (h : ∀ a ∈ before, (a.link, a.n, a.payload) ≠ (d.link, d.n, d.payload)) :
    requestsFor d before = [] := by
  simpa [requestsFor] using requestsFor_append (after := []) h

end Table

/-- Settles O33: the event runs the replies, which are one ENCODE or none, or the ENCODEs of the first row. -/
theorem referenceResponderAnswers : Obligations.ReferenceResponderAnswers := by
  intro s d k hd hk
  have answers {rs : List Reply} (h : answerOf s.params d s.responder = rs) :
      exec (.dispatch d.link d.off d.n) s = runReplies rs { s with raised := none } := by
    rw [exec_dispatch_of_raised hd hk, h]
  refine ⟨fun hresp hmax => ⟨fun hp => ?empty, fun c rest hp => ⟨fun hc => ?echo, fun hget hack => ?other⟩⟩,
    fun rows hresp => ⟨fun before after reqs hrows hbefore => ?row, fun hnone => ?noRow⟩⟩
  case empty => exact answers (rs := []) (by simp [hresp, answerOf, referenceReplies, hp])
  case echo =>
    rw [answers (rs := [.encode d.link [c, s.params.ack]]) (by simp [hresp, answerOf, referenceReplies, hp, hc])]
    exact runReplies_one_encode hk hmax
  case other => exact answers (rs := []) (by simp [hresp, answerOf, referenceReplies, hp, hget, hack])
  case row =>
    rw [answers (by rw [hresp, answerOf, hrows, requestsFor_of_first_row hbefore])]
    exact andThen_runReplies_encodes reqs (.next { s with raised := none })
  case noRow => exact answers (rs := []) (by rw [hresp, answerOf, requestsFor_of_no_row hnone, List.map_nil])

section Commands
variable {p : Params} {b : Byte}

theorem commandOf_ack (h : p.ack ≠ p.cmdGetAlive) : commandOf p p.ack = .acknowledge := by simp [commandOf, h]

theorem commandOf_startConfig (hget : p.cmdStartConfig ≠ p.cmdGetAlive) (hack : p.cmdStartConfig ≠ p.ack) :
    commandOf p p.cmdStartConfig = .startConfig := by simp [commandOf, hget, hack]

theorem commandOf_unknown (hget : b ≠ p.cmdGetAlive) (hack : b ≠ p.ack) (hstart : b ≠ p.cmdStartConfig) :
    commandOf p b = .unknown b := by simp [commandOf, hget, hack, hstart]

end Commands

/-- Settles O36: the only reply of either command is the ENCODE of its byte and the acknowledge byte. -/
theorem commandsEchoWithAck : Obligations.CommandsEchoWithAck := by
  intro s d k b rest hd hp hk hmax i hi
  have echoes {c : Command} (hc : commandOf s.params b = c)
      (hreplies : commandReplies s.params d c = [.encode d.link [b, s.params.ack]]) :
      ∃ t, commandEvent c s = .next t ∧
        t.chan? ⟨d.link, .outbound⟩ = some (k.outCh.pushBytes (frameBytes s.params [b, s.params.ack])) ∧
        OnlyChannel ⟨d.link, .outbound⟩ { s with raised := none } t := by
    rw [commandEvent_of_raised hd hp hc, hreplies]
    exact runReplies_one_encode hk hmax
  obtain ⟨rfl, rfl⟩ | ⟨rfl, rfl, hne⟩ := hi
  · exact echoes (if_pos rfl) rfl
  · exact echoes (commandOf_ack hne) rfl

/-- Settles O37: the ENCODE leaves the inbound channel, so the copy that follows reads the slots as they were. -/
theorem startConfigCopiesTheRecord : Obligations.StartConfigCopiesTheRecord := by
  intro s d k rest bs hd hp hk hget hack hmax hcap hsize hlen hslots
  obtain ⟨u, hu, hout, only⟩ := runReplies_one_encode (payload := [s.params.cmdStartConfig, s.params.ack]) hk hmax
  have hlinks := only.links_eq (State.chan?_eq_some.2 ⟨k, hk, rfl⟩) hout
  obtain ⟨⟨hparams, hbooted, hresponder, -, htasks, hinput⟩, hraised, -⟩ := only
  have hku : u.links[d.link]? =
      some { k with outCh := k.outCh.pushBytes (frameBytes s.params [s.params.cmdStartConfig, s.params.ack]) } := by
    simp [hlinks, State.setChan_getElem?, hk]
  have hcopy := copyRecord_of_slots (off := d.off) hku hcap (hparams ▸ hsize) (hparams ▸ hlen) (hparams ▸ hslots)
  refine ⟨{ u.setChan ⟨d.link, .inbound⟩ k.inCh.look with record := bs }, ?event, rfl, hraised, ?own, fun j hj => ?others,
    hparams, hbooted, hresponder, htasks, hinput⟩
  case event =>
    show commandEvent .startConfig s = _
    rw [commandEvent_of_raised hd hp (commandOf_startConfig hget hack)]
    rw [runReplies_singleton] at hu
    exact andThen_eq_next.2 ⟨u, hu, (runReplies_singleton _ u).trans hcopy⟩
  case own => simp [State.setChan_getElem?, hku, Chan.look]
  case others => simp [State.setChan_getElem?, hlinks, Ne.symm hj]

/-- Settles O38: the marker stands at its place in the answer, whatever the byte beside it is. -/
theorem unknownCommandAnswersWithMarker : Obligations.UnknownCommandAnswersWithMarker := by
  intro s d k b rest hd hp hk hmax hget hack hstart
  obtain ⟨t, ht, hout, only⟩ := runReplies_one_encode (payload := unknownAnswer s.params b) hk hmax
  refine ⟨t, _, _, ?event, hout, only, ?marker⟩
  case event => exact (commandEvent_of_raised hd hp (commandOf_unknown hget hack hstart)).trans ht
  case marker => cases s.params.unknownMarkerFirst <;> rfl

/-- Settles O2: either row is the PUSH on its channel. -/
theorem feedsPushOnInboundChannels : Obligations.FeedsPushOnInboundChannels := fun s b c =>
  ⟨pushStoresByteAndAdvances s .pcIn b c, pushStoresByteAndAdvances s .radioIn b c⟩

end Sys2Proof.Machine
end

section
/-! SUPPORT and PROOF. A DEC_STEP while a dispatch waits (R209): the answer leaves the decoder, and of the inbound channel
all that the DEC_STEP reads. -/
namespace Sys2Proof.Machine

@[simp] theorem Chan.readRun_look (c : Chan) (off n : Nat) : c.look.readRun off n = c.readRun off n := by
  induction n generalizing off with
  | zero => rfl
  | succ n ih => simp [Chan.readRun, ih]

@[simp] theorem withOldest_look (ch : ChanId) (c : Chan) (f : Byte → Result) :
    withOldest ch c.look f = withOldest ch c f := rfl

@[simp] theorem raiseDispatch_look (l : Nat) (c : Chan) (d : Dec) (s : State) :
    raiseDispatch l c.look d s = raiseDispatch l c d s := by simp [raiseDispatch]

section Answered
variable {s u : State} {l : Nat}

/-- An operation that resolves its link after the answer goes on with a link that is at most answered. -/
theorem withLink_of_deliver (h : deliver s = .next u) {f g : Link → Result}
    (hfg : ∀ k k', k.Answered k' → f k = g k') : withLink l s f = withLink l u g := by
  have answered := deliver_answered h
  cases hk : s.links[l]? with
  | none =>
    have hk' : u.links[l]? = none := by simpa [answered.length_eq] using hk
    rw [withLink_of_none hk, withLink_of_none hk']
  | some k =>
    obtain ⟨k', hk', ak⟩ := answered.link l k hk
    rw [withLink_of_some hk, withLink_of_some hk', hfg k k' ak]

theorem decCase_of_deliver (h : deliver s = .next u) (w : SubCase) : decCase w l s = decCase w l u := by
  have hparams : u.params = s.params := (deliver_answered h).params_eq
  have hquiet : u.raised = none := (deliver_answered h).raised_eq
  refine withLink_of_deliver h fun k k' ⟨hdec, hin, _⟩ => ?_
  rw [h, deliver_of_none hquiet, hparams, hdec]
  rcases hin with hin | hin <;> simp [hin]

theorem decStepOn_of_deliver (h : deliver s = .next u) : decStepOn l s = decStepOn l u :=
  withLink_of_deliver h fun _ _ ⟨hdec, _⟩ => by rw [hdec, decCase_of_deliver h]

theorem selectedCase_of_deliver (h : deliver s = .next u) (w : SubCase) : selectedCase w l s = selectedCase w l u :=
  withLink_of_deliver h fun _ _ ⟨hdec, _⟩ => by rw [hdec, decCase_of_deliver h]

end Answered

/-- Settles O35: the DISPATCH is the answer that the DEC_STEP begins with. -/
theorem waitingDispatchIsAnsweredFirst : Obligations.WaitingDispatchIsAnsweredFirst := by
  intro s u d l _ h i hi
  have hdeliver : deliver s = .next u := withRaised_next h
  obtain hstep | ⟨w, hcase⟩ := exec_decStepRows hi
  · rw [hstep, decStepOn_of_deliver hdeliver]
  · rw [hcase, selectedCase_of_deliver hdeliver]

end Sys2Proof.Machine
end

section
/-! SUPPORT and PROOF. TICK (R203): a DEC_RUN empties its own channel and keeps every empty one empty, and what one DEC_RUN
after the other leaves unchanged is what each leaves. -/
namespace Sys2Proof.Machine

/-- Settles O44: the links of a machine with two are 0 and 1, in this order. -/
theorem tickIsPcThenRadio : Obligations.TickIsPcThenRadio := by
  intro s hlen
  show decRunEach (List.range s.links.length) s = _
  rw [hlen]
  exact congrArg (andThen _) (funext fun t => andThen_next_right (decRunAlone 1 t))

section Unchanged
variable {s t u : State} {l : Nat}

theorem OnlyAnswers.refl (s : State) : OnlyAnswers s s :=
  (State.Decoded.refl 0 s).onlyAnswers

theorem OnlyAnswers.trans (h1 : OnlyAnswers s t) (h2 : OnlyAnswers t u) : OnlyAnswers s u where
  params_eq := h2.params_eq.trans h1.params_eq
  booted_eq := h2.booted_eq.trans h1.booted_eq
  responder_eq := h2.responder_eq.trans h1.responder_eq
  tasks_eq := h2.tasks_eq.trans h1.tasks_eq
  input_eq := h2.input_eq.trans h1.input_eq
  length_eq := h2.length_eq.trans h1.length_eq
  slot_eq := fun l a => (h2.slot_eq l a).trans (h1.slot_eq l a)
  outbound := fun l c hc => by
    obtain ⟨bs1, hc1⟩ := h1.outbound l c hc
    obtain ⟨bs2, hc2⟩ := h2.outbound l _ hc1
    exact ⟨bs1 ++ bs2, by rw [hc2, Chan.pushBytes_append]⟩

/-- What DEC_RUNs on any links leave unchanged: inbound slots and write cursors, and all but the links' inbound side when
the collaborator answers nothing. -/
structure State.Ticked (s t : State) : Prop where
  answers : OnlyAnswers s t
  link : ∀ (j : Nat) (k : Link), s.links[j]? = some k →
    ∃ k', t.links[j]? = some k' ∧ k'.inCh.wr = k.inCh.wr ∧ (s.Silent → k'.outCh = k.outCh)
  quiet : s.Silent → SameSlots s t ∧ SameAround s t

theorem State.Ticked.refl (s : State) : s.Ticked s :=
  ⟨.refl s, fun _ k hk => ⟨k, hk, rfl, fun _ => rfl⟩, fun _ => ⟨fun _ _ => rfl, rfl, rfl, rfl, rfl, rfl, rfl⟩⟩

theorem State.Ticked.trans (h1 : s.Ticked t) (h2 : t.Ticked u) : s.Ticked u := by
  have silent : t.Silent = s.Silent := State.silent_congr h1.answers.params_eq h1.answers.responder_eq
  refine ⟨h1.answers.trans h2.answers, fun j k hk => ?link, fun hs => ?quiet⟩
  case link =>
    obtain ⟨k1, hk1, hwr1, hout1⟩ := h1.link j k hk
    obtain ⟨k2, hk2, hwr2, hout2⟩ := h2.link j k1 hk1
    exact ⟨k2, hk2, hwr2.trans hwr1, fun hs => (hout2 (silent ▸ hs)).trans (hout1 hs)⟩
  case quiet =>
    obtain ⟨slots1, p1, b1, r1, c1, t1, i1⟩ := h1.quiet hs
    obtain ⟨slots2, p2, b2, r2, c2, t2, i2⟩ := h2.quiet (silent ▸ hs)
    exact ⟨fun ch a => (slots2 ch a).trans (slots1 ch a), p2.trans p1, b2.trans b1, r2.trans r1, c2.trans c1,
      t2.trans t1, i2.trans i1⟩

theorem State.Decoded.ticked (h : s.Decoded l t) : s.Ticked t where
  answers := h.onlyAnswers
  link := fun j k hk => by
    obtain ⟨k', hk', kept⟩ := h.link j k hk
    exact ⟨k', hk', kept.wr_eq, fun hs => (kept.quiet hs).1⟩
  quiet := fun hs => (h.of_silent hs).2

theorem decRunEach_ticked {ls : List Nat} (h : decRunEach ls s = .next t) : s.Ticked t := by
  induction ls generalizing s with
  | nil => cases h; exact .refl _
  | cons l ls ih =>
    obtain ⟨u, hu, ht⟩ := andThen_eq_next.1 h
    exact (decRunAlone_decoded hu).ticked.trans (ih ht)

end Unchanged

/-- What a DEC_RUN on any link needs to answer. -/
structure State.AllDrain (s : State) : Prop where
  inv : s.Inv
  responsive : s.Responsive
  drainable : ∀ (l : Nat) (k : Link), s.links[l]? = some k → k.Drainable s.params.c0

/-- The inbound channel of link `l`, if the link is there, shows nothing. -/
def State.Emptied (l : Nat) (s : State) : Prop := ∀ k, s.links[l]? = some k → k.inCh.rd = k.inCh.wr

section Drain
variable {s t : State} {l : Nat}

/-- What decoding on one link leaves of another's inbound channel, it leaves as drainable and as empty. -/
theorem Link.Decoded.drainable {own silent : Prop} {c0 : Nat} {k k' : Link} (h : k.Decoded own silent k') (hn : ¬ own)
    (hk : k.Drainable c0) : k'.Drainable c0 := by
  obtain ⟨hdec, hblock⟩ := h.other hn
  have hrd : k'.inCh.rd = k.inCh.rd := by simpa using congrArg Chan.rd hblock
  have hconsumed : k'.inCh.consumed = k.inCh.consumed := by simpa using congrArg Chan.consumed hblock
  rcases hk with hempty | hall | hahead
  · exact .inl (by rw [hrd, hempty, h.wr_eq])
  · exact .inr (.inl (hall.congr h.cap_eq h.mem_eq))
  · exact .inr (.inr (hdec ▸ hahead.mono h.cap_eq (Nat.le_of_eq hconsumed.symm)))

theorem State.Decoded.emptied (h : s.Decoded l t) {j : Nat} (hj : j ≠ l) (he : s.Emptied j) : t.Emptied j := by
  intro k' hk'
  obtain ⟨k, hk⟩ := link_before h.length_eq hk'
  have kept := h.of_link hk hk'
  obtain ⟨-, hblock⟩ := kept.other hj
  calc k'.inCh.rd = k.inCh.rd := by simpa using congrArg Chan.rd hblock
    _ = k.inCh.wr := he k hk
    _ = k'.inCh.wr := kept.wr_eq.symm

/-- A DEC_RUN on any link answers, empties its channel, and leaves what the next DEC_RUN needs (R151). -/
theorem State.AllDrain.after_decRun (h : s.AllDrain) (hl : l < s.links.length) :
    ∃ t, decRunAlone l s = .next t ∧ s.Decoded l t ∧ t.AllDrain ∧ t.Emptied l := by
  obtain ⟨k, hk⟩ : ∃ k, s.links[l]? = some k := ⟨_, List.getElem?_eq_getElem hl⟩
  obtain ⟨t, k', ht, hk', hrd, hwr, -⟩ :=
    decRunDrainsTheChannel s l k h.inv hk h.responsive (h.drainable l k hk)
  have decoded := decRunAlone_decoded ht
  have hempty : t.Emptied l := fun k2 hk2 => by
    obtain rfl : k' = k2 := Option.some.inj (hk'.symm.trans hk2)
    rw [hrd, hwr]
  refine ⟨t, ht, decoded, ⟨(decRunAlone_keeps ht h.inv).1, decoded.responsive h.responsive, fun j kj hkj => ?_⟩, hempty⟩
  by_cases hj : j = l
  · subst hj
    exact .inl (hempty kj hkj)
  · obtain ⟨k0, hk0⟩ := link_before decoded.length_eq hkj
    rw [decoded.params_eq]
    exact (decoded.of_link hk0 hkj).drainable hj (h.drainable j k0 hk0)

/-- DEC_RUNs one after the other answer, and empty the channels of their links; a channel that was empty stays so. -/
theorem State.AllDrain.decRunEach_empties {ls : List Nat} (h : s.AllDrain) (hls : ∀ l ∈ ls, l < s.links.length) :
    ∃ t, decRunEach ls s = .next t ∧ ∀ j, j ∈ ls ∨ s.Emptied j → t.Emptied j := by
  induction ls generalizing s with
  | nil => exact ⟨s, rfl, fun j hj => hj.resolve_left List.not_mem_nil⟩
  | cons l ls ih =>
    obtain ⟨hl, hls⟩ := List.forall_mem_cons.1 hls
    obtain ⟨u, hu, decoded, drains, hempty⟩ := h.after_decRun hl
    obtain ⟨t, ht, hall⟩ := ih drains (by rwa [decoded.length_eq])
    refine ⟨t, andThen_eq_next.2 ⟨u, hu, ht⟩, fun j hj => hall j ?_⟩
    by_cases hjl : j = l
    · exact .inr (hjl ▸ hempty)
    · exact hj.imp (fun hm => (List.mem_cons.1 hm).resolve_left hjl) (decoded.emptied hjl)

end Drain

/-- Settles O45: TICK's DEC_RUNs are those of every link. -/
theorem tickDrainsEveryLink : Obligations.TickDrainsEveryLink := by
  intro s hinv hresp hdrain
  have drains : s.AllDrain := ⟨hinv, hresp, hdrain⟩
  obtain ⟨t, ht, hempty⟩ := drains.decRunEach_empties (ls := List.range s.links.length) fun _ => List.mem_range.1
  have ticked := decRunEach_ticked ht
  refine ⟨t, ht, ticked.answers, fun l k hk => ?_, ticked.quiet⟩
  obtain ⟨k', hk', hwr, hout⟩ := ticked.link l k hk
  have hl : l < s.links.length := (List.getElem?_eq_some_iff.1 hk).1
  exact ⟨k', hk', (hempty l (.inl (List.mem_range.2 hl)) k' hk').trans hwr, hwr, hout⟩

end Sys2Proof.Machine
end

section
/-! SUPPORT and PROOF. What an entry of the schedule that its agent may not perform is refused as (R246, R247, R267). -/
namespace Sys2Proof.Machine

section Refused
variable {s : State} {a : Agent} {i : Instr} {code : List Byte} {rest : List Input} {r : Refusal}

/-- An agent without the role violates it, once RESET has happened or is what the agent tries (R246, R247). -/
theorem admission_of_performer_ne (hwf : i.wf s.params = true) (hboot : s.booted = true ∨ i = .reset)
    (hperf : performer i ≠ a) : admission a i s = some (.roleViolation a) := by
  have hready : ¬ (s.booted = false ∧ i ≠ .reset) := fun ⟨hb, hi⟩ => hboot.elim (by simp [hb]) hi
  rw [admission, if_neg (by simp [hwf]), if_neg hready, if_neg hperf]

/-- Before RESET nothing else is admitted, whoever tries it (R267). -/
theorem admission_of_not_booted (hwf : i.wf s.params = true) (hboot : s.booted = false) (hi : i ≠ .reset) :
    admission a i s = some .beforeReset := by
  rw [admission, if_neg (by simp [hwf]), if_pos ⟨hboot, hi⟩]

/-- What is not admitted is refused, whatever would have run. -/
theorem runCode_of_not_admitted (hcode : decode s.params code = .instr i) (hadm : admission a i s = some r)
    (run : Instr → State → Result) : runCode a code s run = .refused r := by
  simp [runCode, hcode, hadm]

/-- An event, or the start of an operation, that need not wait and is not admitted is refused. -/
theorem step_of_not_admitted (hin : s.input = .event a code :: rest ∨ (a = .poll ∧ s.input = .begin code :: rest))
    (hfree : pollBusy a s = false) (hcode : decode s.params code = .instr i) (hadm : admission a i s = some r) :
    step s = .refused r := by
  have refuses := runCode_of_not_admitted (s := { s with input := rest }) hcode hadm
  rcases hin with hin | ⟨rfl, hin⟩
  case inl =>
    simp only [step, runNext, hin, hfree]
    exact refuses exec
  case inr =>
    simp only [step, runNext, hin, hfree]
    exact refuses beginOperation

end Refused

/-- Settles O50: the entry need not wait, so the step's refusal is that of admission. -/
theorem wrongAgentIsRefused : Obligations.WrongAgentIsRefused := by
  intro s a code rest i hin hcode hwf hfree
  have refused {r : Refusal} : admission a i s = some r → step s = .refused r :=
    step_of_not_admitted hin (pollBusy_eq_false.2 hfree) hcode
  exact ⟨fun hboot hperf => refused (admission_of_performer_ne hwf (.inl hboot) hperf),
    fun hboot hi => refused (admission_of_not_booted hwf hboot hi)⟩

end Sys2Proof.Machine
end

section
/-! SUPPORT and PROOF. RESET (R260 to R263): when it answers, and the machine that it leaves. -/
namespace Sys2Proof.Machine

/-- A machine right after RESET (R260; log 20). -/
def State.afterReset (s : State) : State :=
  { s with booted := true, links := s.links.map fun k => Link.fresh k.inCh.cap k.outCh.cap s.params.c0, raised := none }

/-- A configuration is accepted exactly if `ENC_MAX` is a byte and every channel has two slots and a slot `c0` (R237). -/
theorem State.configOk_iff {s : State} :
    s.configOk = true ↔ s.params.encMax ≤ 255 ∧
      ∀ (l : Nat) (k : Link) (d : Dir), s.links[l]? = some k → 2 ≤ (k.chan d).cap ∧ s.params.c0 < (k.chan d).cap := by
  simp only [State.configOk, Chan.configOk, Bool.and_eq_true, decide_eq_true_eq, List.all_eq_true]
  refine and_congr_right fun _ => ⟨fun h l k d hk => ?_, fun h k hk => ?_⟩
  · obtain ⟨hin, hout⟩ := h k (List.mem_of_getElem? hk)
    cases d
    · exact hin
    · exact hout
  · obtain ⟨l, hl⟩ := List.getElem?_of_mem hk
    exact ⟨h l k .inbound hl, h l k .outbound hl⟩

theorem execReset_eq_next {s t : State} :
    execReset s = .next t ↔ s.tasks = [] ∧ s.configOk = true ∧ t = s.afterReset := by
  unfold execReset
  by_cases htasks : s.tasks = []
  · cases hok : s.configOk <;> simp [htasks, State.afterReset, eq_comm]
  · simp [htasks]

theorem State.afterReset_getElem? {s : State} {l : Nat} {k : Link} (hk : s.links[l]? = some k) :
    s.afterReset.links[l]? = some (Link.fresh k.inCh.cap k.outCh.cap s.params.c0) := by
  simp [State.afterReset, hk]

/-- Either channel of a link right after RESET. -/
theorem Link.fresh_chan (k : Link) (c0 : Nat) (d : Dir) :
    (Link.fresh k.inCh.cap k.outCh.cap c0).chan d = Chan.fresh (k.chan d).cap c0 := by
  cases d <;> rfl

/-- Settles O46: each link is a fresh one of its capacities, whose inbound channel shows nothing. -/
theorem resetEmptiesTheBlock : Obligations.ResetEmptiesTheBlock := by
  intro s htasks henc hcaps
  refine ⟨s.afterReset, execReset_eq_next.2 ⟨htasks, State.configOk_iff.2 ⟨henc, hcaps⟩, rfl⟩, rfl, rfl,
    List.length_map _, rfl, rfl, rfl, htasks, rfl, rfl, fun l k hk => ?_⟩
  have hk' := State.afterReset_getElem? hk
  refine ⟨(decStepOn_of_some hk').trans (decCase_of_empty hk' rfl _), _, hk', rfl, fun d => ?_⟩
  rw [Link.fresh_chan]
  exact ⟨rfl, rfl, rfl, rfl, rfl, fun _ => rfl⟩

/-- Settles O47: the tasks are looked at first, and a channel of fewer than two slots is no accepted configuration. -/
theorem resetIsRefused : Obligations.ResetIsRefused := by
  intro s
  refine ⟨fun htasks => if_pos htasks, fun l k d htasks hk hcap => ?_⟩
  have hbad : ¬ s.configOk = true := fun hok => by
    obtain ⟨-, hcaps⟩ := State.configOk_iff.1 hok
    exact Nat.not_le.2 hcap (hcaps l k d hk).1
  show execReset s = _
  rw [execReset, if_neg (fun h => h htasks), if_neg hbad]

end Sys2Proof.Machine
end

section
/-! SUPPORT and PROOF. What is fixed before RESET (R262): the parameters, the collaborator and the capacities, along every
event, every task and every step. -/
namespace Sys2Proof.Machine

/-- The capacities of a link's two channels. -/
def Link.caps (k : Link) : Nat × Nat := (k.inCh.cap, k.outCh.cap)

/-- What is fixed before RESET: the parameters, the collaborator (R208), and the links with their capacities. -/
def State.config (s : State) : Params × Responder × List (Nat × Nat) := (s.params, s.responder, s.links.map Link.caps)

theorem Link.setChan_caps {k : Link} {d : Dir} {c : Chan} (hcap : c.cap = (k.chan d).cap) :
    (k.setChan d c).caps = k.caps := by
  cases d
  · exact congrArg (·, k.outCh.cap) hcap
  · exact congrArg (k.inCh.cap, ·) hcap

section Configuration
variable {s t : State}

/-- It is enough to look at each link. -/
theorem State.config_eq_of_links (hparams : t.params = s.params) (hresp : t.responder = s.responder)
    (hlen : t.links.length = s.links.length)
    (hl : ∀ (l : Nat) (k k' : Link), s.links[l]? = some k → t.links[l]? = some k' → k'.caps = k.caps) :
    t.config = s.config := by
  have hcaps : t.links.map Link.caps = s.links.map Link.caps :=
    List.ext_getElem (by simp [hlen]) fun l ht hs => by
      simp only [List.length_map] at ht hs
      simpa using hl l _ _ (List.getElem?_eq_getElem hs) (List.getElem?_eq_getElem ht)
  simp only [State.config, hparams, hresp, hcaps]

/-- The same configuration gives every channel its capacity. -/
theorem State.chan?_cap_of_config {ch : ChanId} {c c' : Chan} (h : t.config = s.config) (hc : s.chan? ch = some c)
    (hc' : t.chan? ch = some c') : c'.cap = c.cap := by
  obtain ⟨k, hk, rfl⟩ := State.chan?_eq_some.1 hc
  obtain ⟨k', hk', rfl⟩ := State.chan?_eq_some.1 hc'
  have hlist : t.links.map Link.caps = s.links.map Link.caps := congrArg (fun x => x.2.2) h
  have hcaps : k'.caps = k.caps := by simpa [hk, hk'] using congrArg (·[ch.link]?) hlist
  obtain ⟨hin, hout⟩ : k'.inCh.cap = k.inCh.cap ∧ k'.outCh.cap = k.outCh.cap := Prod.mk.inj hcaps
  cases ch.dir
  · exact hin
  · exact hout

/-- One channel replaced by one of its capacity. -/
theorem State.setChan_config {ch : ChanId} {c c' : Chan} (hc : s.chan? ch = some c) (hcap : c'.cap = c.cap) :
    (s.setChan ch c').config = s.config :=
  State.config_eq_of_links rfl rfl (by simp) fun l k k' hk hk' => by
    rw [State.setChan_getElem?, hk] at hk'
    split at hk'
    next hl =>
      subst hl
      obtain rfl : k.setChan ch.dir c' = k' := by simpa using hk'
      obtain rfl : k.chan ch.dir = c := by simpa [State.chan?, hk] using hc
      exact Link.setChan_caps hcap
    next =>
      obtain rfl : k = k' := by simpa using hk'
      rfl

theorem State.Answered.config_eq (h : s.Answered t) : t.config = s.config :=
  State.config_eq_of_links h.params_eq h.responder_eq h.length_eq fun l k k' hk hk' => by
    obtain ⟨k2, hk2, answered⟩ := h.link l k hk
    obtain rfl : k2 = k' := by simpa [hk2] using hk'
    obtain ⟨hcap, -⟩ := answered.inbound_eq
    obtain ⟨-, -, bs, hout⟩ := answered
    simp [Link.caps, hcap, hout]

theorem State.Decoded.config_eq {l : Nat} (h : s.Decoded l t) : t.config = s.config :=
  State.config_eq_of_links h.params_eq h.responder_eq h.length_eq fun j k k' hk hk' => by
    have kept := h.of_link hk hk'
    obtain ⟨bs, hout⟩ := kept.outbound
    simp [Link.caps, kept.cap_eq, hout]

end Configuration

/-! ### Every event -/

/-- RESET keeps the capacities in its fresh links (R262). -/
theorem State.afterReset_config (s : State) : s.afterReset.config = s.config := by
  simp only [State.config, State.afterReset, List.map_map]
  rfl

section Events
variable {s t : State} {ch : ChanId} {i : Instr}

theorem PushesOn.config_eq (hi : PushesOn ch i) (h : exec i s = .next t) : t.config = s.config := by
  obtain ⟨c, bs, hc, hc', only⟩ := hi.exec_spec h
  have hlinks := only.links_eq hc hc'
  obtain ⟨⟨hparams, -, hresp, -⟩, -⟩ := only
  calc t.config = (s.setChan ch (c.pushBytes bs)).config := by simp [State.config, hlinks, hparams, hresp]
    _ = s.config := State.setChan_config hc (c.pushBytes_cap bs)

theorem ReadsFrom.config_eq (hi : ReadsFrom ch i) (h : exec i s = .next t) : t.config = s.config := by
  cases hi with
  | hasData =>
    obtain ⟨c, hc, rfl⟩ := execHasData_eq_next.1 h
    exact State.setChan_config hc rfl
  | pop =>
    obtain ⟨c, b, hc, -, -, rfl⟩ := execPop_eq_next.1 h
    exact State.setChan_config hc rfl
  | peek =>
    obtain ⟨c, b, hc, -, -, rfl⟩ := execPeek_eq_next.1 h
    exact State.setChan_config hc rfl
  | stepback =>
    obtain ⟨c, hc, -, rfl⟩ := execStepback_eq_next.1 h
    exact State.setChan_config hc rfl
  | view off n =>
    obtain ⟨c, bs, hc, -, -, -, rfl⟩ := execView_eq_next.1 h
    exact State.setChan_config hc rfl

theorem deliver_config (h : deliver s = .next t) : t.config = s.config :=
  (deliver_answered h).config_eq

theorem decRunEach_config {ls : List Nat} (h : decRunEach ls s = .next t) : t.config = s.config := by
  induction ls generalizing s with
  | nil => cases h; rfl
  | cons l ls ih =>
    obtain ⟨u, hu, ht⟩ := andThen_eq_next.1 h
    exact (ih ht).trans (decRunAlone_decoded hu).config_eq

theorem commandEvent_config {c : Command} (h : commandEvent c s = .next t) : t.config = s.config := by
  obtain ⟨d, b, rest, -, -, -, hrun⟩ := withCommand_eq_next.1 h
  exact (runReplies_answered hrun).config_eq

theorem exec_config (h : exec i s = .next t) : t.config = s.config := by
  cases i with
  | push ch b => exact (PushesOn.push ch b).config_eq h
  | feedPc b => exact (PushesOn.feedPc b).config_eq h
  | feedRadio b => exact (PushesOn.feedRadio b).config_eq h
  | frame ch p => exact (PushesOn.frame ch p).config_eq h
  | frameReferenceHeader n => exact (PushesOn.frameReferenceHeader n).config_eq h
  | hasData => exact ReadsFrom.hasData.config_eq h
  | pop => exact ReadsFrom.pop.config_eq h
  | peek => exact ReadsFrom.peek.config_eq h
  | stepback => exact ReadsFrom.stepback.config_eq h
  | view ch off n => exact (ReadsFrom.view off n).config_eq h
  | decStep => exact (decStepOn_decoded h).config_eq
  | decAwaitMagic1 | decAwaitMagic2 | decAwaitMagic3 | decAwaitMagic4 | decReadLength | decReadToken | decPayload
  | decChecksum => exact (decStepOn_decoded (selectedCase_step h)).config_eq
  | dispatch => exact deliver_config (withRaised_next h)
  | decRun => exact (decRunAlone_decoded h).config_eq
  | encode => exact (encodeFrame_answered h).config_eq
  | tick => exact decRunEach_config h
  | reset =>
    obtain ⟨-, -, rfl⟩ := execReset_eq_next.1 h
    exact s.afterReset_config
  | cmdGetAlive | cmdAcknowledge | cmdStartConfig | cmdUnknown => exact commandEvent_config h

end Events

/-! ### Operations event by event, and every step -/

section Steps
variable {s t : State}

theorem pushNext_config {enc : Nat} {rest : List Byte} {cks : Byte} (h : pushNext enc rest cks s = .next t) :
    t.config = s.config := by
  cases rest with
  | nil => exact (pushRun_answered h).config_eq
  | cons x xs =>
    obtain ⟨u, hu, ht⟩ := andThen_eq_next.1 h
    cases ht
    exact (pushEvent_answered hu).config_eq

theorem encodeNext_config {enc : Nat} {p : List Byte} (h : encodeNext enc p s = .next t) : t.config = s.config := by
  obtain ⟨k, -, hpush⟩ := withLink_eq_next.1 h
  split at hpush
  · cases hpush
  · exact pushNext_config hpush

/-- The answer to a dispatch, queued, changes only what the polling agent does next and that the dispatch stands. -/
theorem deliverNext_config (h : deliverNext s = .next t) : t.config = s.config := by
  unfold deliverNext at h
  split at h <;> cases h <;> rfl

theorem decRunNext_config {l : Nat} (h : decRunNext l s = .next t) : t.config = s.config := by
  unfold decRunNext at h
  split at h
  · exact (deliverNext_config h).trans rfl
  · obtain ⟨k, hk, hturn⟩ := withLink_eq_next.1 h
    split at hturn
    · obtain ⟨u, hu, ht⟩ := andThen_eq_next.1 hturn
      cases ht
      exact (decStepOn_decoded hu).config_eq
    · cases hturn
      exact (State.decoded_look hk).config_eq

theorem runTask_config {x : Task} (h : runTask x s = .next t) : t.config = s.config := by
  cases x with
  | reply r =>
    cases r with
    | encode enc p => exact encodeNext_config h
    | copyRecord l off => exact (copyRecord_answered h).config_eq
  | pushing enc rest cks => exact pushNext_config h
  | decRun l => exact decRunNext_config h
  | deliver => exact deliverNext_config h

theorem pollNext_config (h : pollNext s = .next t) : t.config = s.config := by
  cases hts : s.tasks with
  | nil =>
    rw [pollNext_of_nil hts] at h
    cases h
    rfl
  | cons x ts =>
    rw [pollNext_of_cons hts] at h
    exact (runTask_config h).trans rfl

theorem withCommand_queueReplies_config {c : Command} (h : withCommand c s queueReplies = .next t) :
    t.config = s.config := by
  obtain ⟨d, b, rest, -, -, -, hq⟩ := withCommand_eq_next.1 h
  cases hq
  rfl

theorem beginOperation_config {i : Instr} (h : beginOperation i s = .next t) : t.config = s.config := by
  cases i with
  | encode | decRun =>
    obtain ⟨-, -, ht⟩ := withLink_eq_next.1 h
    cases ht
    rfl
  | tick =>
    cases h
    rfl
  | dispatch =>
    cases withRaised_next h
    rfl
  | cmdGetAlive | cmdAcknowledge | cmdStartConfig | cmdUnknown => exact withCommand_queueReplies_config h
  | _ => exact exec_config ((beginOperation_of_not_isOperation rfl).symm.trans h)

theorem step_config (h : step s = .next t) : t.config = s.config := by
  rcases step_cases h with hpoll | ⟨rest, -, hpoll⟩ | ⟨a, code, rest, i, -, -, -, hexec⟩ |
    ⟨code, rest, i, -, -, -, hbegin⟩
  · exact pollNext_config hpoll
  · exact (pollNext_config hpoll).trans rfl
  · exact (exec_config hexec).trans rfl
  · exact (beginOperation_config hbegin).trans rfl

end Steps

/-- Settles O55: a step is an event, an event of an operation under way, or the start of an operation, and none of them
changes the configuration; a RESET keeps the capacities in its fresh links. -/
theorem parametersNeverChange : Obligations.ParametersNeverChange := by
  intro s t h
  obtain ⟨hparams, hrest⟩ := Prod.mk.inj (step_config h)
  obtain ⟨hresp, hcaps⟩ := Prod.mk.inj hrest
  exact ⟨hparams, hresp, hcaps⟩

end Sys2Proof.Machine
end

section
/-! SUPPORT and PROOF. The history of a channel (R271): what it says of the visible contents, and what each event of the
channel's agents makes of it. -/
namespace Sys2Proof.Machine

section History
variable {c0 : Nat} {c : Chan} {hist : List Byte}

/-- The visible bytes are those of the last `occ` pushes: `R` and `W - occ` differ by a multiple of `C`, so they are
pushes to the same slot. -/
theorem Chan.Holds.visible (h : c.Holds c0 hist) (hw : c.Wf c0) {i : Nat} (hi : i < c.occ) :
    c.slot? ((c.rd + i) % c.cap) = hist[c.pushed - c.occ + i]? := by
  have hlt := hw.occ_lt
  have hbacklog : c.consumed + c.cap * ((c.pushed - c.consumed) / c.cap) + c.occ = c.pushed := by
    have hdiv := Nat.div_add_mod (c.pushed - c.consumed) c.cap
    rw [← hw.occ_eq] at hdiv
    have hle := hw.consumed_le
    omega
  have hslot : (c.rd + i) % c.cap = (c0 + (c.pushed - c.occ + i)) % c.cap := by
    rw [hw.rd_eq, Nat.mod_add_mod, ← Nat.add_mul_mod_self_left _ c.cap ((c.pushed - c.consumed) / c.cap)]
    congr 1
    omega
  rw [hslot, h.slot_eq _ (by omega) (by omega)]

/-- The history says nothing of the read cursor: it stays while the slots and the write side do (R25). -/
theorem Chan.Holds.of_sameProducerSide {c' : Chan} (h : c.Holds c0 hist) (same : c.SameProducerSide c')
    (hcap : c'.cap = c.cap) : c'.Holds c0 hist where
  length_eq := by rw [same.pushed_eq, h.length_eq]
  slot_eq := by
    simp only [Chan.slot?, same.mem_eq, same.pushed_eq, hcap]
    exact h.slot_eq

end History

/-- Settles O14: the last `occ` bytes of the history are `occ` bytes, and each stands in its visible slot. -/
theorem contentsAreTheLatestPushes : Obligations.ContentsAreTheLatestPushes := by
  intro c0 c hist hw h
  have hle : c.occ ≤ c.pushed := by
    rw [hw.occ_eq]
    exact Nat.le_trans (Nat.mod_le _ _) (Nat.sub_le _ _)
  rw [← hw.occ_eq, h.length_eq]
  refine hw.contents_eq ?_ fun i hi => ?_
  · rw [List.length_drop, h.length_eq, Nat.sub_sub_self hle]
  · rw [List.getElem?_drop, h.visible hw hi]

/-- The consumer's rows of a channel keep the producer's side, and so does, on an inbound channel, every event of the
polling agent (R25, R246). -/
theorem consumerEvent_sameProducerSide {s t : State} {ch : ChanId} {c : Chan} {i : Instr} (hc : s.chan? ch = some c)
    (hi : ReadsFrom ch i ∨ (ch.dir = .inbound ∧ performer i = .poll)) (h : exec i s = .next t) :
    ∃ c', t.chan? ch = some c' ∧ c.SameProducerSide c' := by
  rcases hi with hreads | ⟨hdir, hperf⟩
  · obtain ⟨c1, c', hc1, hc', -, same⟩ := hreads.exec_spec h
    obtain rfl : c = c1 := by simpa [hc] using hc1
    exact ⟨c', hc', same⟩
  · obtain ⟨c', hc', same⟩ := exec_keepsOtherSides hperf h ch c hc
    rw [hdir] at same
    exact ⟨c', hc', same⟩

theorem performer_decStepRows {l : Nat} {i : Instr} (hi : i ∈ decStepRows l) : performer i = .poll := by
  simp only [decStepRows, List.mem_cons, List.not_mem_nil, or_false] at hi
  obtain rfl | rfl | rfl | rfl | rfl | rfl | rfl | rfl | rfl := hi <;> rfl

/-- Settles O16: a PUSH stores its byte as the next of the history; a consumer's event keeps the producer's side and, as
every event, the capacity. -/
theorem eventsExtendOrKeepHistory : Obligations.EventsExtendOrKeepHistory := by
  intro s t ch c hist hc hw hholds
  refine ⟨fun b h => ?push, fun i hi h => ?consumer⟩
  case push =>
    obtain ⟨t', ht', htc, -⟩ := pushEvent_spec hc b
    obtain rfl : t' = t := Host.Outcome.next.inj (ht'.symm.trans h)
    exact ⟨c.pushByte b, htc, hholds.push hw b⟩
  case consumer =>
    have hrow : ReadsFrom ch i ∨ (ch.dir = .inbound ∧ performer i = .poll) := by
      obtain rfl | rfl | rfl | rfl | ⟨off, n, rfl⟩ | ⟨hdir, hrow | rfl⟩ := hi
      · exact .inl .hasData
      · exact .inl .pop
      · exact .inl .peek
      · exact .inl .stepback
      · exact .inl (.view off n)
      · exact .inr ⟨hdir, performer_decStepRows hrow⟩
      · exact .inr ⟨hdir, rfl⟩
    obtain ⟨c', hc', same⟩ := consumerEvent_sameProducerSide hc hrow h
    exact ⟨c', hc', hholds.of_sameProducerSide same (State.chan?_cap_of_config (exec_config h) hc hc')⟩

end Sys2Proof.Machine
end
